-- ==== Sys2Proof/Word.lean ====
section
/-! DEFINITION. The word types of the block (00_scope.md rules R15, R16; 10_state.md rules R25, R38, R39). -/
namespace Sys2Proof

/-- One byte of the RX or TX stream, or of a buffer (R15). -/
abbrev Byte := BitVec 8

/-- A host register word (R39). -/
abbrev Word32 := BitVec 32

/-- A 64-bit length, index or counter (R11, R38). -/
abbrev Word64 := BitVec 64

/-- A 4-bit opcode (R18). -/
abbrev Opcode := BitVec 4

end Sys2Proof
end

