-- ==== Sys2Proof/Syntax.lean ====
section
/-! DEFINITION. The instructions of spec/opcode_table.json, one constructor per row. A frame's operands are the fields of its header word (30_encoding.md rule R86); a command's are the ignored bits 31:4 of the `CMD` write (R98), kept so that no bit of an encoding is dropped. -/
namespace Sys2Proof

/-- The 25 rows of the opcode table: sixteen frame opcodes (R91) and nine host commands (R98). -/
inductive Instr where
  -- frames: FIN (bit 15), RSV (14:12), MASK (7), LEN7 (6:0) of the header word; OPCODE (11:8) is the constructor
  /-- `CONT`, opcode 0x0 (R142). -/
  | cont (fin : Bool) (rsv : BitVec 3) (mask : Bool) (len7 : BitVec 7)
  /-- `TEXT`, opcode 0x1 (R143). -/
  | text (fin : Bool) (rsv : BitVec 3) (mask : Bool) (len7 : BitVec 7)
  /-- `BINARY`, opcode 0x2 (R144). -/
  | binary (fin : Bool) (rsv : BitVec 3) (mask : Bool) (len7 : BitVec 7)
  /-- `RSVD3`, opcode 0x3 (R166). -/
  | rsvd3 (fin : Bool) (rsv : BitVec 3) (mask : Bool) (len7 : BitVec 7)
  /-- `RSVD4`, opcode 0x4 (R166). -/
  | rsvd4 (fin : Bool) (rsv : BitVec 3) (mask : Bool) (len7 : BitVec 7)
  /-- `RSVD5`, opcode 0x5 (R166). -/
  | rsvd5 (fin : Bool) (rsv : BitVec 3) (mask : Bool) (len7 : BitVec 7)
  /-- `RSVD6`, opcode 0x6 (R166). -/
  | rsvd6 (fin : Bool) (rsv : BitVec 3) (mask : Bool) (len7 : BitVec 7)
  /-- `RSVD7`, opcode 0x7 (R166). -/
  | rsvd7 (fin : Bool) (rsv : BitVec 3) (mask : Bool) (len7 : BitVec 7)
  /-- `CLOSE`, opcode 0x8 (R160). -/
  | close (fin : Bool) (rsv : BitVec 3) (mask : Bool) (len7 : BitVec 7)
  /-- `PING`, opcode 0x9 (R162). -/
  | ping (fin : Bool) (rsv : BitVec 3) (mask : Bool) (len7 : BitVec 7)
  /-- `PONG`, opcode 0xA (R164). -/
  | pong (fin : Bool) (rsv : BitVec 3) (mask : Bool) (len7 : BitVec 7)
  /-- `RSVDB`, opcode 0xB (R166). -/
  | rsvdB (fin : Bool) (rsv : BitVec 3) (mask : Bool) (len7 : BitVec 7)
  /-- `RSVDC`, opcode 0xC (R166). -/
  | rsvdC (fin : Bool) (rsv : BitVec 3) (mask : Bool) (len7 : BitVec 7)
  /-- `RSVDD`, opcode 0xD (R166). -/
  | rsvdD (fin : Bool) (rsv : BitVec 3) (mask : Bool) (len7 : BitVec 7)
  /-- `RSVDE`, opcode 0xE (R166). -/
  | rsvdE (fin : Bool) (rsv : BitVec 3) (mask : Bool) (len7 : BitVec 7)
  /-- `RSVDF`, opcode 0xF (R166). -/
  | rsvdF (fin : Bool) (rsv : BitVec 3) (mask : Bool) (len7 : BitVec 7)
  -- host commands: bits 31:4 of the `CMD` write are ignored, bits 3:0 are the code
  /-- `NOP`, code 0x0 (R211). -/
  | nop (ign : BitVec 28)
  /-- `HS_DONE`, code 0x1 (R213). -/
  | hsDone (ign : BitVec 28)
  /-- `HS_FAIL`, code 0x2 (R214). -/
  | hsFail (ign : BitVec 28)
  /-- `MSG_ACK`, code 0x3 (R215). -/
  | msgAck (ign : BitVec 28)
  /-- `TX_DATA`, code 0x4 (R216). -/
  | txData (ign : BitVec 28)
  /-- `TX_CLOSE`, code 0x5 (R217). -/
  | txClose (ign : BitVec 28)
  /-- `ABORT`, code 0x6 (R218). -/
  | abort (ign : BitVec 28)
  /-- `CLR_REJ`, code 0x7 (R219). -/
  | clrRej (ign : BitVec 28)
  /-- `CMD_RSVD8_F`, the reserved codes 0x8 to 0xF (R220); `code` is the whole of bits 3:0. -/
  | cmdRsvd8F (ign : BitVec 28) (code : BitVec 4)
deriving DecidableEq, Repr

end Sys2Proof
end

