-- ==== Sys2Proof/WellFormed.lean ====
section
/-! DEFINITION. Which terms of Instr stand for an encoding. The operand types carry the widths of 30_encoding.md rule R86, so a frame term always does; a reserved command must carry a reserved code (R220). -/
namespace Sys2Proof

/-- A term of Instr is well formed when some encoding of the opcode table spells it: a `CMD_RSVD8_F` carries a code of 0x8 to 0xF
(R98, R220); every other term is, for its operands have exactly the widths of their fields (R86, R98). -/
def Instr.wf : Instr → Bool
  | .cont _ _ _ _ => true
  | .text _ _ _ _ => true
  | .binary _ _ _ _ => true
  | .rsvd3 _ _ _ _ => true
  | .rsvd4 _ _ _ _ => true
  | .rsvd5 _ _ _ _ => true
  | .rsvd6 _ _ _ _ => true
  | .rsvd7 _ _ _ _ => true
  | .close _ _ _ _ => true
  | .ping _ _ _ _ => true
  | .pong _ _ _ _ => true
  | .rsvdB _ _ _ _ => true
  | .rsvdC _ _ _ _ => true
  | .rsvdD _ _ _ _ => true
  | .rsvdE _ _ _ _ => true
  | .rsvdF _ _ _ _ => true
  | .nop _ => true
  | .hsDone _ => true
  | .hsFail _ => true
  | .msgAck _ => true
  | .txData _ => true
  | .txClose _ => true
  | .abort _ => true
  | .clrRej _ => true
  | .cmdRsvd8F _ code => decide (8 ≤ code.toNat)

end Sys2Proof
end

