-- ==== Sys2Proof/Decode.lean ====
section
/-! DEFINITION. The decoder of frame headers and of `CMD` words (30_encoding.md rules R86, R91, R98, R99), total on any bytes, and the encoder written from the same tables. -/
namespace Sys2Proof

/-- An encoding of the opcode table: the 16-bit header word `hw = byte0 << 8 | byte1` of a frame (R86), or the 32-bit
value written to `CMD` (R98). -/
inductive Code where
  | frame (hw : BitVec 16)
  | command (w : Word32)
deriving DecidableEq, Repr

/-- Why bytes spell no instruction yet: a frame header is two bytes, and a prefix of one is not an instruction (R99). -/
inductive DecodeError where
  /-- There is no byte 0. -/
  | noByte0
  /-- There is a byte 0 but no byte 1. -/
  | noByte1
  /-- A word of this many bits is neither a header word (16) nor a `CMD` word (32). -/
  | noSuchWidth (nbits : Nat)
deriving DecidableEq, Repr

/-! ## Fields -/

/-- `FIN`, bit 7 of byte 0 (R86). -/
def finOf (b0 : Byte) : Bool := b0.getLsbD 7
/-- `RSV`, bits 6:4 of byte 0 (R86). -/
def rsvOf (b0 : Byte) : BitVec 3 := b0.extractLsb' 4 3
/-- `OPCODE`, bits 3:0 of byte 0 (R86). -/
def opcodeOf (b0 : Byte) : Opcode := b0.extractLsb' 0 4
/-- `MASK`, bit 7 of byte 1 (R86). -/
def maskOf (b1 : Byte) : Bool := b1.getLsbD 7
/-- `LEN7`, bits 6:0 of byte 1 (R86). -/
def len7Of (b1 : Byte) : BitVec 7 := b1.extractLsb' 0 7

/-- Byte 0 of a frame from its fields: `FIN || RSV || OPCODE` (R86). -/
def byte0Of (fin : Bool) (rsv : BitVec 3) (op : Opcode) : Byte :=
  BitVec.ofBool fin ++ rsv ++ op
/-- Byte 1 of a frame from its fields: `MASK || LEN7` (R86). -/
def byte1Of (mask : Bool) (len7 : BitVec 7) : Byte := BitVec.ofBool mask ++ len7

/-! ## Decoding -/

/-- The frame that bytes 0 and 1 of a header spell: the opcode selects the kind (R91), and every opcode value has one. -/
def decodeHeader (b0 b1 : Byte) : Instr :=
  let fin := finOf b0
  let rsv := rsvOf b0
  let mask := maskOf b1
  let len7 := len7Of b1
  match (opcodeOf b0).toNat with
  | 0x0 => .cont fin rsv mask len7
  | 0x1 => .text fin rsv mask len7
  | 0x2 => .binary fin rsv mask len7
  | 0x3 => .rsvd3 fin rsv mask len7
  | 0x4 => .rsvd4 fin rsv mask len7
  | 0x5 => .rsvd5 fin rsv mask len7
  | 0x6 => .rsvd6 fin rsv mask len7
  | 0x7 => .rsvd7 fin rsv mask len7
  | 0x8 => .close fin rsv mask len7
  | 0x9 => .ping fin rsv mask len7
  | 0xA => .pong fin rsv mask len7
  | 0xB => .rsvdB fin rsv mask len7
  | 0xC => .rsvdC fin rsv mask len7
  | 0xD => .rsvdD fin rsv mask len7
  | 0xE => .rsvdE fin rsv mask len7
  | _ => .rsvdF fin rsv mask len7

/-- The command that a write of `w` to `CMD` is: bits 3:0 are its code, bits 31:4 are ignored (R98, R210). -/
def decodeCommand (w : Word32) : Instr :=
  let ign := w.extractLsb' 4 28
  let code : BitVec 4 := w.extractLsb' 0 4
  match code.toNat with
  | 0x0 => .nop ign
  | 0x1 => .hsDone ign
  | 0x2 => .hsFail ign
  | 0x3 => .msgAck ign
  | 0x4 => .txData ign
  | 0x5 => .txClose ign
  | 0x6 => .abort ign
  | 0x7 => .clrRej ign
  | _ => .cmdRsvd8F ign code

/-- The frame header at the front of a byte sequence, and the bytes after it; a sequence that ends inside the two header
bytes is refused by name (R99). -/
def decodeBytes : List Byte → Except DecodeError (Instr × List Byte)
  | [] => .error .noByte0
  | [_] => .error .noByte1
  | b0 :: b1 :: rest => .ok (decodeHeader b0 b1, rest)

/-- The instruction an encoding spells. Every header word and every `CMD` word spells one (R91, R98). -/
def decode : Code → Instr
  | .frame hw => decodeHeader (hw.extractLsb' 8 8) (hw.extractLsb' 0 8)
  | .command w => decodeCommand w

/-- The two bytes of a header word in wire order, byte 0 first (R86). -/
def headerWordBytes (w : Nat) : List Byte :=
  [(BitVec.ofNat 16 w).extractLsb' 8 8, (BitVec.ofNat 16 w).extractLsb' 0 8]

/-- The instruction the decoder reads from bits numbered as the opcode table numbers them: a 16-bit header word, laid out in
wire order, or a 32-bit `CMD` word; any other width is refused by name. -/
def decodeWord (nbits w : Nat) : Except DecodeError Instr :=
  match nbits with
  | 16 => (decodeBytes (headerWordBytes w)).map Prod.fst
  | 32 => .ok (decodeCommand (BitVec.ofNat 32 w))
  | n => .error (.noSuchWidth n)

/-- `decodeWord` as the host asks for it: `none` where the decoder refuses. -/
def decodeTableWord (nbits w : Nat) : Option Instr :=
  match decodeWord nbits w with
  | .ok i => some i
  | .error _ => none

/-! ## Encoding -/

/-- The header word of a frame with opcode `op`: byte 0 in bits 15:8, byte 1 in bits 7:0 (R86). -/
def headerWord (op : Opcode) (fin : Bool) (rsv : BitVec 3) (mask : Bool) (len7 : BitVec 7) : BitVec 16 :=
  byte0Of fin rsv op ++ byte1Of mask len7

/-- The `CMD` word of a command (R98). -/
def commandWord (ign : BitVec 28) (code : BitVec 4) : Word32 := ign ++ code

/-- The encoding of an instruction, from the tables of R91 and R98. -/
def encode : Instr → Code
  | .cont fin rsv mask len7 => .frame (headerWord 0x0#4 fin rsv mask len7)
  | .text fin rsv mask len7 => .frame (headerWord 0x1#4 fin rsv mask len7)
  | .binary fin rsv mask len7 => .frame (headerWord 0x2#4 fin rsv mask len7)
  | .rsvd3 fin rsv mask len7 => .frame (headerWord 0x3#4 fin rsv mask len7)
  | .rsvd4 fin rsv mask len7 => .frame (headerWord 0x4#4 fin rsv mask len7)
  | .rsvd5 fin rsv mask len7 => .frame (headerWord 0x5#4 fin rsv mask len7)
  | .rsvd6 fin rsv mask len7 => .frame (headerWord 0x6#4 fin rsv mask len7)
  | .rsvd7 fin rsv mask len7 => .frame (headerWord 0x7#4 fin rsv mask len7)
  | .close fin rsv mask len7 => .frame (headerWord 0x8#4 fin rsv mask len7)
  | .ping fin rsv mask len7 => .frame (headerWord 0x9#4 fin rsv mask len7)
  | .pong fin rsv mask len7 => .frame (headerWord 0xA#4 fin rsv mask len7)
  | .rsvdB fin rsv mask len7 => .frame (headerWord 0xB#4 fin rsv mask len7)
  | .rsvdC fin rsv mask len7 => .frame (headerWord 0xC#4 fin rsv mask len7)
  | .rsvdD fin rsv mask len7 => .frame (headerWord 0xD#4 fin rsv mask len7)
  | .rsvdE fin rsv mask len7 => .frame (headerWord 0xE#4 fin rsv mask len7)
  | .rsvdF fin rsv mask len7 => .frame (headerWord 0xF#4 fin rsv mask len7)
  | .nop ign => .command (commandWord ign 0x0#4)
  | .hsDone ign => .command (commandWord ign 0x1#4)
  | .hsFail ign => .command (commandWord ign 0x2#4)
  | .msgAck ign => .command (commandWord ign 0x3#4)
  | .txData ign => .command (commandWord ign 0x4#4)
  | .txClose ign => .command (commandWord ign 0x5#4)
  | .abort ign => .command (commandWord ign 0x6#4)
  | .clrRej ign => .command (commandWord ign 0x7#4)
  | .cmdRsvd8F ign code => .command (commandWord ign code)

end Sys2Proof
end

