-- ==== Sys2Proof/Config.lean ====
section
/-! DEFINITION. What an implementation fixes: the open parameters of 00_scope.md rules R8 to R10 and 20_memory.md rule R73, and the free values of the spec's "any value" cases. -/
namespace Sys2Proof

/-- `P_BASE`, where the host platform maps the four spaces: one base address per space (R73). No rule reads it
(DESIGN CHOICE, notes/assumptions/10.md). -/
structure Bases where
  csr : Nat
  msgbuf : Nat
  ctrlbuf : Nat
  txbuf : Nat
deriving DecidableEq, Repr

/-- The open parameters of one WSFE (R8, R9, R10, R73). They are part of the state, and no step writes them, so a
claim about every state is a claim about every value of the parameters. -/
structure Params where
  /-- `P_MSG_CAP`, capacity of the message buffer in bytes; `none` is `UNBOUNDED` (R8). -/
  msgCap : Option Nat
  /-- `P_CTRL_CAP`, capacity of the control payload buffer in bytes (R9). -/
  ctrlCap : Nat
  /-- `P_TX_CAP`, capacity of the TX payload buffer in bytes (R10). -/
  txCap : Nat
  /-- `P_BASE` (R73). -/
  base : Bases
deriving DecidableEq, Repr

/-- The ranges of the parameters: each capacity at least 125, the control and TX ones below 2^32 (R8, R9, R10), and
`P_MSG_CAP` at most 2^64 - 1, as R123's `msg_limit <= 2^64 - 1` asks (DEDUCED; notes/assumptions/8.md). -/
def Params.wf (p : Params) : Bool :=
  (match p.msgCap with
    | none => true
    | some c => decide (125 ≤ c) && decide (c < 2 ^ 64)) &&
  decide (125 ≤ p.ctrlCap) && decide (p.ctrlCap < 2 ^ 32) &&
  decide (125 ≤ p.txCap) && decide (p.txCap < 2 ^ 32)

/-- The parameters of the reset state. DESIGN CHOICE (notes/assumptions/2.md): the spec leaves them open; these are the
values 95_test_vectors.md section 0 uses unless a vector says otherwise. -/
def Config.defaultParams : Params :=
  { msgCap := none, ctrlCap := 125, txCap := 4096,
    base := { csr := 0, msgbuf := 0, ctrlbuf := 0, txbuf := 0 } }

/-- FREE VALUE. The byte that "any value" draw number `n` yields (R59, R64, U1 to U4). It has no body, so nothing is
known of it. A step that draws reads it at the state's counter and advances the counter (notes/assumptions/4.md). -/
opaque Config.freeByte : Nat → Byte

end Sys2Proof
end

