-- ==== Sys2Proof/Machine/State.lean ====
section
/-! DEFINITION. Every piece of state of the block (10_state.md rules R20 to R59), the environment's side of its interfaces (R13, R22), the reasons a step can stop, and the reset state (R59). A field the spec writes `f_len` is `f.len` here: the part before the underscore is the group. -/
namespace Sys2Proof.Machine

/-! ## Named values

Encodings that are never held have no constructor (U17; DESIGN CHOICE, notes/assumptions/11.md). -/

/-- `cs`, the connection state (R23). The encodings 5 to 7 are never held and have no constructor. -/
inductive ConnState where
  /-- 0: reset; the host runs the handshake. -/
  | handshaking
  /-- 1: `OPEN`, framing active. -/
  | opened
  /-- 2: this peer has sent (queued) Close. -/
  | closingSent
  /-- 3: a Close was received in `OPEN`; its echo is pending or in flight. -/
  | closingReceived
  /-- 4: terminal. -/
  | closed
deriving DecidableEq, Repr

/-- `cfg_role` (R7, R24). -/
inductive Role where
  | server
  | client
deriving DecidableEq, Repr

/-- `cfg_close_echo` (R24). -/
inductive CloseEcho where
  | verbatim
  | empty
deriving DecidableEq, Repr

/-- `ph`, the RX parser phase (R26). The encodings 6 and 7 are never held and have no constructor. -/
inductive Phase where
  | hdr0
  | hdr1
  | ext
  | key
  | pay
  | stop
deriving DecidableEq, Repr

/-- `cr_pend`, the control-response slot (R33). The encoding 3 is never held and has no constructor. -/
inductive CtrlResp where
  | none
  | pong
  | closeEcho
deriving DecidableEq, Repr

/-- `enc_src` (R36). -/
inductive TxSrc where
  | host
  | ctrl
deriving DecidableEq, Repr

/-- `end_cause` (R37, R253). The encodings 5 to 15 are never held and have no constructor. -/
inductive EndCause where
  | none
  | close
  | eof
  | fault
  | abort
deriving DecidableEq, Repr

/-- `err`, the error code of the connection fault (R241). Codes not in the table are never held. -/
inductive ErrCode where
  | none
  | truncated
  | pvBadOpcode
  | pvContNoStart
  | pvStartInMsg
  | pvBadUtf8
  | pvMaskPolicy
  | ioError
  | handshake
  | resourceMsg
  | resourceCtrl
deriving DecidableEq, Repr

/-- The three buffer spaces (R60). -/
inductive Buf where
  | msgbuf
  | ctrlbuf
  | txbuf
deriving DecidableEq, Repr

/-! ## Groups of fields -/

/-- A masking key: four bytes in wire order (R67). -/
structure Key where
  k0 : Byte
  k1 : Byte
  k2 : Byte
  k3 : Byte
deriving DecidableEq, Repr

/-- The configuration fields of `CFG` (R24, R41). -/
structure Cfg where
  role : Role
  closeEcho : CloseEcho
deriving DecidableEq, Repr

/-- `f_*`, the header of the frame being parsed (R25). -/
structure FrameHdr where
  fin : Bool
  rsv : BitVec 3
  op : Opcode
  mask : Bool
  len7 : BitVec 7
  len : Word64
  key : Key
  idx : Word64
deriving DecidableEq, Repr

/-- `ra_*`, the reassembly registers (R29). -/
structure Reasm where
  active : Bool
  op : Opcode
  len : Word64
deriving DecidableEq, Repr

/-- `msg_*`, the delivered-message registers (R31). -/
structure Delivered where
  valid : Bool
  op : Opcode
  len : Word64
deriving DecidableEq, Repr

/-- `ctrl_op` and `ctrl_len` (R32). -/
structure CtrlInfo where
  op : Opcode
  len : Word32
deriving DecidableEq, Repr

/-- `ht_*`, the host TX request (R35). -/
structure HostTx where
  pend : Bool
  fin : Bool
  op : Opcode
  len : Word64
deriving DecidableEq, Repr

/-- `enc_*`, the frame being emitted (R36). -/
structure Encoder where
  busy : Bool
  src : TxSrc
  hdr : List Byte
  plen : Word64
  masked : Bool
  key : Key
  pos : Word64
deriving DecidableEq, Repr

/-- `irq_en` and `irq_pend` (R37): bit 0 `MSG`, 1 `TXDONE`, 2 `END`, 3 `FAULT` (R55). -/
structure Irq where
  en : BitVec 4
  pend : BitVec 4
deriving DecidableEq, Repr

/-- `TX_CTRL`: the stored fields `OPCODE` and `FIN` (R52). -/
structure TxCtrl where
  op : Opcode
  fin : Bool
deriving DecidableEq, Repr

/-- A byte buffer: (index, byte) pairs with strictly rising indices. An index that is not listed holds no known byte:
no step has written it since reset (R59; notes/assumptions/4.md). -/
abbrev Memory := List Host.Cell

/-! ## The environment (R13, R22) -/

/-- One host access (R62 to R65). `width` is the access width in bits (R70): the block defines 32 for `CSR` and 8 for a
buffer (DESIGN CHOICE, notes/assumptions/15.md). -/
inductive HostAccess where
  | csrRead (width off : Nat)
  | csrWrite (width off : Nat) (wdata : Word32)
  | bufRead (buf : Buf) (width idx : Nat)
  | bufWrite (buf : Buf) (width idx : Nat) (b : Byte)
deriving DecidableEq, Repr

/-- One event an agent offers the block (R12, R22, R270). An event whose guard is false waits: the block
holds. -/
inductive Event where
  /-- The transport offers one RX byte on `rx_data[7:0]`. -/
  | rxByte (b : Byte)
  /-- The transport signals the end of the RX stream. -/
  | rxEnd
  /-- The TX framer's turn to start a frame; `key` is what the key source supplies, `none` if it supplies none
  (R181; DESIGN CHOICE, notes/assumptions/19.md). -/
  | txStart (key : Option Word32)
  /-- The transport accepts one TX byte. -/
  | txByte
  /-- The transport reports a failed write. -/
  | txError
  /-- The host makes one access. -/
  | host (a : HostAccess)
  /-- The environment resets the block (R270). -/
  | reset
deriving DecidableEq, Repr

/-- What the host port returned for a read (R62, R64). -/
inductive Reply where
  | word (w : Word32)
  | byte (b : Byte)
deriving DecidableEq, Repr

/-- The environment's side of the interfaces of R22. None of it is a register of the block, and `Reset` leaves it alone. -/
structure Env where
  /-- The events the agents offer and the block has not taken, in the order they are offered, soonest first (R75). One
  whose guard is false waits here (R14). -/
  events : List Event
  /-- `rx_data[7:0]`, the byte of the RX step being taken. -/
  rxData : Byte
  /-- The TX stream: every byte handed to the transport, oldest first (R61). -/
  txStream : List Byte
  /-- What the last host read returned. -/
  reply : Option Reply
  /-- How many free values have been drawn (MODEL's own field; notes/assumptions/4.md). -/
  draws : Nat
deriving DecidableEq, Repr

/-! ## Stops -/

/-- Why a step stops with a fault of the MODEL. A connection fault of the block is none of these: it is a next state
with `fault` set (R14, R245; DEDUCED, notes/assumptions/13.md). No state a run reaches raises one of these. -/
inductive Fault where
  /-- Raised by the RX parser storing a payload byte at or past `P_MSG_CAP`, an index R117 says never occurs. Safe. -/
  | msgbufIndex
  /-- Raised by the RX parser or the TX framer at an index of `ctrlbuf` at or past `P_CTRL_CAP` (R117, R184). Safe. -/
  | ctrlbufIndex
  /-- Raised by the TX framer reading `txbuf` at or past `P_TX_CAP` (R60, R216). Safe. -/
  | txbufIndex
  /-- Raised by the UTF-8 check when a byte of the message was never written; R59 says no such byte is read. Safe. -/
  | msgbufUnwritten
deriving DecidableEq, Repr

/-- Why a step is refused: the access has no meaning and the model has no step for it (R14). -/
inductive Refusal where
  /-- Raised by no meaning of this model: an instruction not modelled yet, by its mnemonic. Safe. -/
  | notModelled (mnemonic : String)
  /-- Raised by a `CSR` access that is not 32 bits wide, not word-aligned or beyond 0xFFC (R62, R63, U7). Safe. -/
  | csrAccess
  /-- Raised by a buffer access that is not 8 bits wide or whose index is outside the space (R64, R65, U8). Safe. -/
  | bufAccess
deriving DecidableEq, Repr

/-! ## The state -/

/-- The machine: the registers and buffers of 10_state.md, the parameters, and the environment. -/
structure State where
  /-- `cs` (R23). -/
  cs : ConnState
  /-- `cfg_role`, `cfg_close_echo` (R24). -/
  cfg : Cfg
  /-- `f_fin`, `f_rsv`, `f_op`, `f_mask`, `f_len7`, `f_len`, `f_key`, `f_idx` (R25). -/
  f : FrameHdr
  /-- `ph` (R26). -/
  ph : Phase
  /-- `cnt`, 3 bits (R26). -/
  cnt : BitVec 3
  /-- `ra_active`, `ra_op`, `ra_len` (R29). -/
  ra : Reasm
  /-- `msgbuf` (R30). -/
  msgbuf : Memory
  /-- `msg_valid`, `msg_op`, `msg_len` (R31). -/
  msg : Delivered
  /-- `ctrlbuf` (R32). -/
  ctrlbuf : Memory
  /-- `ctrl_op`, `ctrl_len` (R32). -/
  ctrl : CtrlInfo
  /-- `cr_pend` (R33). -/
  crPend : CtrlResp
  /-- `close_rx` (R34). -/
  closeRx : Bool
  /-- `ht_pend`, `ht_fin`, `ht_op`, `ht_len` (R35). -/
  ht : HostTx
  /-- `txbuf` (R35). -/
  txbuf : Memory
  /-- `enc_busy`, `enc_src`, `enc_hdr`, `enc_plen`, `enc_masked`, `enc_key`, `enc_pos` (R36). -/
  enc : Encoder
  /-- `fault` (R37). -/
  fault : Bool
  /-- `err` (R37, R241). -/
  err : ErrCode
  /-- `err_info`, 21 bits (R37, R45). -/
  errInfo : BitVec 21
  /-- `end_cause` (R37). -/
  endCause : EndCause
  /-- `cmd_rej` (R37). -/
  cmdRej : Bool
  /-- `irq_en`, `irq_pend` (R37). -/
  irq : Irq
  /-- `rx_count` (R38). -/
  rxCount : Word64
  /-- `tx_count` (R38). -/
  txCount : Word64
  /-- `TX_CTRL` (R52). -/
  txCtrl : TxCtrl
  /-- `tx_len`: `TX_LEN_HI || TX_LEN_LO` (R53). -/
  txLen : Word64
  /-- The open parameters (R8 to R10). -/
  params : Params
  /-- The environment (R13, R22). -/
  env : Env
deriving DecidableEq, Repr

/-- Four zero key bytes (R25, R36). -/
def Key.zero : Key := ⟨0, 0, 0, 0⟩

/-- The reset state (R59): every field at its reset value. The buffers hold no known byte. The parameters and the
environment's fields are the model's choice (notes/assumptions/2.md, 3.md). -/
def State.reset : State :=
  { cs := .handshaking
    cfg := { role := .server, closeEcho := .verbatim }
    f := { fin := false, rsv := 0, op := 0, mask := false, len7 := 0, len := 0, key := Key.zero, idx := 0 }
    ph := .stop
    cnt := 0
    ra := { active := false, op := 0, len := 0 }
    msgbuf := []
    msg := { valid := false, op := 0, len := 0 }
    ctrlbuf := []
    ctrl := { op := 0, len := 0 }
    crPend := .none
    closeRx := false
    ht := { pend := false, fin := false, op := 0, len := 0 }
    txbuf := []
    enc := { busy := false, src := .host, hdr := [], plen := 0, masked := false, key := Key.zero, pos := 0 }
    fault := false
    err := .none
    errInfo := 0
    endCause := .none
    cmdRej := false
    irq := { en := 0, pend := 0 }
    rxCount := 0
    txCount := 0
    txCtrl := { op := 0, fin := false }
    txLen := 0
    params := Config.defaultParams
    env := { events := [], rxData := 0, txStream := [], reply := none, draws := 0 } }

/-- What a meaning or a step answers. -/
abbrev Out := Host.Outcome State Fault Refusal

end Sys2Proof.Machine
end

