-- ==== Sys2Proof/Machine/Operands.lean ====
section
/-! DEFINITION. The operand forms: the codes of the named values, opcode classes and destinations (R18, R28), the length forms of RX and TX (R27, R89, R97), masking keys and the mask function (R67, R116, R186), the header the TX framer builds (R182), and the well-formed UTF-8 table (R146). -/
namespace Sys2Proof.Machine

/-! ## Codes (R23, R24, R26, R241, R253) -/

/-- The 3-bit code of `cs` (R23). -/
def ConnState.code : ConnState → BitVec 3
  | .handshaking => 0
  | .opened => 1
  | .closingSent => 2
  | .closingReceived => 3
  | .closed => 4

/-- The bit of `cfg_role` (R24): 1 for `CLIENT`. -/
def Role.bit : Role → Bool
  | .server => false
  | .client => true

/-- The bit of `cfg_close_echo` (R24): 1 for `EMPTY`. -/
def CloseEcho.bit : CloseEcho → Bool
  | .verbatim => false
  | .empty => true

/-- The role a `CFG` bit writes (R41). -/
def Role.ofBit : Bool → Role
  | false => .server
  | true => .client

/-- The echo mode a `CFG` bit writes (R41). -/
def CloseEcho.ofBit : Bool → CloseEcho
  | false => .verbatim
  | true => .empty

/-- The 3-bit code of `ph` (R26). -/
def Phase.code : Phase → BitVec 3
  | .hdr0 => 0
  | .hdr1 => 1
  | .ext => 2
  | .key => 3
  | .pay => 4
  | .stop => 5

/-- The 4-bit code of `end_cause` (R253). -/
def EndCause.code : EndCause → BitVec 4
  | .none => 0
  | .close => 1
  | .eof => 2
  | .fault => 3
  | .abort => 4

/-- The 8-bit code of `err` (R241). -/
def ErrCode.code : ErrCode → BitVec 8
  | .none => 0x00
  | .truncated => 0x01
  | .pvBadOpcode => 0x10
  | .pvContNoStart => 0x11
  | .pvStartInMsg => 0x12
  | .pvBadUtf8 => 0x13
  | .pvMaskPolicy => 0x14
  | .ioError => 0x20
  | .handshake => 0x30
  | .resourceMsg => 0x40
  | .resourceCtrl => 0x41

/-! ## Opcodes (R18, R28) -/

/-- "Data opcode" means one of `CONT`, `TEXT`, `BINARY` (R18). -/
def isDataOp (op : Opcode) : Bool := op == 0x0#4 || op == 0x1#4 || op == 0x2#4

/-- "Control opcode" means one of `CLOSE`, `PING`, `PONG` (R18, R91). -/
def isControlOp (op : Opcode) : Bool := op == 0x8#4 || op == 0x9#4 || op == 0xA#4

/-- "Reserved opcode" means 0x3 to 0x7 and 0xB to 0xF (R18). -/
def isReservedOp (op : Opcode) : Bool := !isDataOp op && !isControlOp op

/-- Where payload bytes go (R28); a reserved opcode has no destination (R91). -/
inductive Dest where
  | msg
  | ctrl
  | discard
  | none
deriving DecidableEq, Repr

/-- `dest(op)` (R28). -/
def dest (op : Opcode) : Dest :=
  if isDataOp op then .msg
  else if op == 0x9#4 || op == 0x8#4 then .ctrl
  else if op == 0xA#4 then .discard
  else .none

/-! ## Lengths (R27, R88, R89, R97) -/

/-- Bits 31:0 of a 64-bit value, the `_LO` half (R68). -/
def lo32 (v : Word64) : Word32 := v.extractLsb' 0 32

/-- Bits 63:32 of a 64-bit value, the `_HI` half (R68). -/
def hi32 (v : Word64) : Word32 := v.extractLsb' 32 32

/-- Byte `j` of a 64-bit value, `v[8j+7:8j]` (R15). -/
def byteOf (v : Word64) (j : Nat) : Byte := v.extractLsb' (8 * j) 8

/-- `ext_need`: how many extended length bytes a base length announces (R27). -/
def extNeed (len7 : BitVec 7) : Nat :=
  if len7.toNat = 126 then 2 else if len7.toNat = 127 then 8 else 0

/-- `hlen`, the header length known once byte 1 has been read (R88). -/
def hlen (mask : Bool) (len7 : BitVec 7) : Nat := 2 + extNeed len7 + 4 * mask.toNat

/-- One big-endian length byte taken in: `(f_len << 8) | b` in 64 bits (R66, R113). -/
def pushLenByte (len : Word64) (b : Byte) : Word64 := (len <<< 8) ||| b.setWidth 64

/-- The true length a base length and its extended bytes give (R89). -/
def frameLen (len7 : BitVec 7) (ext : List Byte) : Word64 :=
  if len7.toNat ≤ 125 then len7.setWidth 64 else ext.foldl pushLenByte 0

/-- `enc_len(n)`, the base length and extended bytes the TX framer sends for length `n` (R97). -/
def encLen (n : Word64) : BitVec 7 × List Byte :=
  if n.toNat < 126 then (n.setWidth 7, [])
  else if n.toNat ≤ 65535 then (126#7, [byteOf n 1, byteOf n 0])
  else (127#7, [byteOf n 7, byteOf n 6, byteOf n 5, byteOf n 4, byteOf n 3, byteOf n 2, byteOf n 1, byteOf n 0])

/-- `msg_limit`: `P_MSG_CAP`, or 2^64 - 1 when it is `UNBOUNDED` (R114 (d)). -/
def msgLimit (p : Params) : Nat := p.msgCap.getD (2 ^ 64 - 1)

/-- Whether `idx` is an index of a buffer space (R60). `MSGBUF` has every natural when `P_MSG_CAP` is `UNBOUNDED`. -/
def bufIndexOk (p : Params) (buf : Buf) (idx : Nat) : Bool :=
  match buf with
  | .msgbuf => (match p.msgCap with | none => true | some c => decide (idx < c))
  | .ctrlbuf => decide (idx < p.ctrlCap)
  | .txbuf => decide (idx < p.txCap)

/-! ## Masking (R67, R116, R121, R186) -/

/-- `key[i mod 4]`. -/
def Key.get (k : Key) (i : Nat) : Byte :=
  match i % 4 with
  | 0 => k.k0
  | 1 => k.k1
  | 2 => k.k2
  | _ => k.k3

/-- The key with byte `j` written, `j` below 4 (R113 `KEY`). -/
def Key.set (k : Key) (j : Nat) (b : Byte) : Key :=
  match j with
  | 0 => { k with k0 := b }
  | 1 => { k with k1 := b }
  | 2 => { k with k2 := b }
  | _ => { k with k3 := b }

/-- The four key bytes in wire order (R67). -/
def Key.bytes (k : Key) : List Byte := [k.k0, k.k1, k.k2, k.k3]

/-- The key a key word gives: `k[31:24]` first (R67). -/
def Key.ofWord (w : Word32) : Key :=
  ⟨w.extractLsb' 24 8, w.extractLsb' 16 8, w.extractLsb' 8 8, w.extractLsb' 0 8⟩

/-- The masking engine on one payload byte: `b XOR key[i mod 4]` when masked, else `b` (R116, R186). -/
def maskByte (masked : Bool) (k : Key) (i : Nat) (b : Byte) : Byte :=
  if masked then b ^^^ k.get i else b

/-- `mask_k` on a byte sequence whose first byte has payload index `i` (R121). -/
def maskFrom (k : Key) (i : Nat) : List Byte → List Byte
  | [] => []
  | b :: p => (b ^^^ k.get i) :: maskFrom k (i + 1) p

/-! ## The header the TX framer builds (R181, R182) -/

/-- `enc_hdr` of a frame of `n` payload bytes: byte 0 with RSV = 0, byte 1, the extended length, then the key when
masked (R182). -/
def buildHeader (fin : Bool) (op : Opcode) (masked : Bool) (key : Key) (n : Word64) : List Byte :=
  [byte0Of fin 0 op, byte1Of masked (encLen n).1] ++ (encLen n).2 ++ (if masked then key.bytes else [])

/-! ## Well-formed UTF-8 (R146) -/

/-- `lo ≤ b ≤ hi`. -/
def inRange (lo hi : Nat) (b : Byte) : Bool := decide (lo ≤ b.toNat) && decide (b.toNat ≤ hi)

/-- Row 1 of the table: a one-byte sequence. -/
def utf8One (a : Byte) : Bool := inRange 0x00 0x7F a

/-- Row 2: a two-byte sequence. -/
def utf8Two (a b : Byte) : Bool := inRange 0xC2 0xDF a && inRange 0x80 0xBF b

/-- Rows 3 to 6: a three-byte sequence. -/
def utf8Three (a b c : Byte) : Bool :=
  (inRange 0xE0 0xE0 a && inRange 0xA0 0xBF b && inRange 0x80 0xBF c) ||
  (inRange 0xE1 0xEC a && inRange 0x80 0xBF b && inRange 0x80 0xBF c) ||
  (inRange 0xED 0xED a && inRange 0x80 0x9F b && inRange 0x80 0xBF c) ||
  (inRange 0xEE 0xEF a && inRange 0x80 0xBF b && inRange 0x80 0xBF c)

/-- Rows 7 to 9: a four-byte sequence. -/
def utf8Four (a b c d : Byte) : Bool :=
  (inRange 0xF0 0xF0 a && inRange 0x90 0xBF b && inRange 0x80 0xBF c && inRange 0x80 0xBF d) ||
  (inRange 0xF1 0xF3 a && inRange 0x80 0xBF b && inRange 0x80 0xBF c && inRange 0x80 0xBF d) ||
  (inRange 0xF4 0xF4 a && inRange 0x80 0x8F b && inRange 0x80 0xBF c && inRange 0x80 0xBF d)

/-- `utf8_valid(s)`: `s` is cut from the left into sequences of the table (R146). The rows' first bytes are disjoint, so
there is at most one way to cut. -/
def utf8Valid : List Byte → Bool
  | [] => true
  | a :: l1 =>
    if utf8One a then utf8Valid l1
    else match l1 with
      | [] => false
      | b :: l2 =>
        if utf8Two a b then utf8Valid l2
        else match l2 with
          | [] => false
          | c :: l3 =>
            if utf8Three a b c then utf8Valid l3
            else match l3 with
              | [] => false
              | d :: l4 => utf8Four a b c d && utf8Valid l4

end Sys2Proof.Machine
end

