-- ==== Sys2Proof/Machine/Flags.lean ====
section
/-! DEFINITION. The derived signals of the state: the guards and busy signals (R33, R36, R112, R181, R185), the outputs `irq` and `term` (R22, R37), the interrupt bits (R55, R251), the `STATUS` word (R43) and the `ERR_INFO` capture (R246). -/
namespace Sys2Proof.Machine

/-! ## Busy signals and guards -/

/-- `cr_busy` (R33). -/
def crBusy (s : State) : Bool :=
  decide (s.crPend ≠ .none) || (s.enc.busy && decide (s.enc.src = .ctrl))

/-- `tx_host_busy` (R36). -/
def txHostBusy (s : State) : Bool :=
  s.ht.pend || (s.enc.busy && decide (s.enc.src = .host))

/-- `rx_enabled`, the guard of `RxByte` and `RxEnd` (R112). -/
def rxEnabled (s : State) : Bool :=
  decide (s.ph ≠ .stop) && !(decide (s.ph = .hdr0) && (s.msg.valid || crBusy s))

/-- The guard of `TxStart`, but for the key of the `CLIENT` role (R181). -/
def txStartEnabled (s : State) : Bool :=
  !s.enc.busy &&
  decide (s.cs = .opened ∨ s.cs = .closingSent ∨ s.cs = .closingReceived) &&
  (decide (s.crPend ≠ .none) || (s.ht.pend && decide (s.cs = .opened ∨ s.cs = .closingSent)))

/-! ## Outputs (R22) -/

/-- `irq`: 1 exactly when an enabled interrupt is pending (R37, R252). -/
def irqOut (s : State) : Bool := decide (s.irq.pend &&& s.irq.en ≠ 0)

/-- `term`: 1 when `cs = CLOSED` (R22). -/
def termOut (s : State) : Bool := decide (s.cs = .closed)

/-! ## Interrupt bits (R55, R251) -/

/-- `MSG`, bit 0 of `irq_pend`. -/
def irqMsg : BitVec 4 := 0b0001#4
/-- `TXDONE`, bit 1. -/
def irqTxDone : BitVec 4 := 0b0010#4
/-- `END`, bit 2. -/
def irqEnd : BitVec 4 := 0b0100#4
/-- `FAULT`, bit 3. -/
def irqFault : BitVec 4 := 0b1000#4

/-- `irq_pend` with the bits `m` set; the others keep their values (R251). -/
def setPend (i : Irq) (m : BitVec 4) : Irq := { i with pend := i.pend ||| m }

/-- `irq_pend` with the bits `m` cleared, the effect of writing 1 to them (R55). -/
def clearPend (i : Irq) (m : BitVec 4) : Irq := { i with pend := i.pend &&& ~~~m }

/-! ## STATUS (R43) -/

/-- The value of `STATUS`, field by field from bit 17 down to bit 0; bits 31:18 are 0 (R43). -/
def statusWord (s : State) : Word32 :=
  (BitVec.ofBool s.closeRx ++ BitVec.ofBool (termOut s) ++ BitVec.ofBool (crBusy s) ++ s.ph.code ++
    s.endCause.code ++ BitVec.ofBool s.cmdRej ++ BitVec.ofBool s.fault ++ BitVec.ofBool s.ra.active ++
    BitVec.ofBool (txHostBusy s) ++ BitVec.ofBool s.msg.valid ++ s.cs.code).setWidth 32

/-! ## ERR_INFO (R45, R246) -/

/-- `B0_VALID`: byte 0 of the current frame had been consumed (R246). -/
def b0Valid (p : Phase) (consumed : Bool) : Bool :=
  match p with
  | .hdr0 => consumed
  | .hdr1 => true
  | .ext => true
  | .key => true
  | .pay => true
  | .stop => false

/-- `B1_VALID`: byte 1 of the current frame had been consumed (R246). -/
def b1Valid (p : Phase) (consumed : Bool) : Bool :=
  match p with
  | .hdr0 => false
  | .hdr1 => consumed
  | .ext => true
  | .key => true
  | .pay => true
  | .stop => false

/-- `capture(p, consumed)` (R246): `b1_valid || b0_valid || p || byte1 || byte0`, with `f_*` as the step left them. -/
def capture (p : Phase) (consumed : Bool) (f : FrameHdr) : BitVec 21 :=
  BitVec.ofBool (b1Valid p consumed) ++ BitVec.ofBool (b0Valid p consumed) ++ p.code ++
    (if b1Valid p consumed then byte1Of f.mask f.len7 else 0) ++
    (if b0Valid p consumed then byte0Of f.fin f.rsv f.op else 0)

end Sys2Proof.Machine
end

