-- ==== Sys2Proof/Machine/Ops.lean ====
section
/-! DEFINITION. The named operations over the state: the buffers (R30, R59, R117), the fault action and the ends of a connection (R212, R231, R232, R245), the reassembler's completion (R145, R147), and the one RX byte step that every frame opcode shares (R113 to R119). -/
namespace Sys2Proof.Machine

/-! ## Buffers (R30, R32, R35, R59) -/

/-- The byte a buffer holds at an index, `none` if no step has written it since reset (R59). -/
def Memory.read : Memory → Nat → Option Byte
  | [], _ => none
  | (k, v) :: m, a => if k = a then some v else Memory.read m a

/-- `buf[a] <- b`, keeping the indices strictly rising (R17). -/
def Memory.write : Memory → Nat → Byte → Memory
  | [], a, b => [(a, b)]
  | (k, v) :: m, a, b =>
    if a < k then (a, b) :: (k, v) :: m
    else if a = k then (a, b) :: m
    else (k, v) :: Memory.write m a b

/-- The canonical form: indices strictly rising. Every listed byte is a known one, so no entry equals what an unlisted
index reads as. -/
def Memory.wf : Memory → Bool
  | [] => true
  | [_] => true
  | (k, _) :: (k', v') :: m => decide (k < k') && Memory.wf ((k', v') :: m)

/-- The `n` bytes from index `a` on, `none` if one of them was never written. -/
def Memory.bytes (m : Memory) (a : Nat) : Nat → Option (List Byte)
  | 0 => some []
  | n + 1 =>
    match m.read a, Memory.bytes m (a + 1) n with
    | some b, some bs => some (b :: bs)
    | _, _ => none

/-- Whether each of the `n` bytes from index `a` on has been written. -/
def Memory.written (m : Memory) (a : Nat) : Nat → Bool
  | 0 => true
  | n + 1 => (m.read a).isSome && Memory.written m (a + 1) n

/-- The buffer of a space (R60). -/
def bufOf (s : State) : Buf → Memory
  | .msgbuf => s.msgbuf
  | .ctrlbuf => s.ctrlbuf
  | .txbuf => s.txbuf

/-- One free value: the byte at the counter, and the counter advanced. -/
def drawByte (s : State) : Byte × State :=
  (Config.freeByte s.env.draws, { s with env := { s.env with draws := s.env.draws + 1 } })

/-- The byte at `idx` of a buffer, or a free value if no step wrote it (R59, R64, R185), and the state after it. -/
def readOrDraw (buf : Buf) (idx : Nat) (s : State) : Byte × State :=
  match (bufOf s buf).read idx with
  | some b => (b, s)
  | none => drawByte s

/-! ## Ends of the connection -/

/-- `raise F(code)`: the fault action (R245). `p` is the phase at the start of the step and `consumed` says whether the
step is an `RxByte`. -/
def raise (code : ErrCode) (p : Phase) (consumed : Bool) (s : State) : State :=
  { s with
    fault := true
    err := code
    errInfo := capture p consumed s.f
    cs := .closed
    endCause := .fault
    ph := .stop
    ra := { active := false, op := 0, len := 0 }
    crPend := .none
    ht := { s.ht with pend := false }
    enc := { s.enc with busy := false }
    irq := setPend s.irq (irqFault ||| irqEnd) }

/-- `close_done(cause)`: the connection ends without a fault (R232). -/
def closeDone (cause : EndCause) (s : State) : State :=
  { s with
    cs := .closed
    endCause := cause
    ph := .stop
    ra := { active := false, op := 0, len := 0 }
    crPend := .none
    ht := { s.ht with pend := false }
    enc := { s.enc with busy := false }
    irq := setPend s.irq irqEnd }

/-- The first condition of `settle`: the Close echo has been emitted (R231). -/
def echoDone (s : State) : Bool :=
  decide (s.cs = .closingReceived) && decide (s.crPend = .none) && !s.enc.busy

/-- The second condition of `settle`: this peer's Close emitted, the other's received (R231). -/
def bothClosesDone (s : State) : Bool :=
  decide (s.cs = .closingSent) && s.closeRx && !s.ht.pend && decide (s.crPend = .none) && !s.enc.busy

/-- `settle()`, the completion check at the end of every step (R231). -/
def settle (s : State) : State :=
  if echoDone s || bothClosesDone s then closeDone .close s else s

/-- `settle` after a step that answers a next state; a stop has no state to settle. The step applies it, not exec: DEDUCED
(notes/assumptions/16.md). -/
def settleOut : Out → Out
  | .next s => .next (settle s)
  | .fault r => .fault r
  | .refused r => .refused r

/-- The reject action (R212). -/
def reject (s : State) : State := { s with cmdRej := true }

/-! ## The reassembler's completion -/

/-- `deliver()`: the completed message goes to the host and the reassembler is idle (R147). -/
def deliver (s : State) : State :=
  { s with
    msg := { valid := true, op := s.ra.op, len := s.ra.len }
    irq := setPend s.irq irqMsg
    ra := { active := false, op := 0, len := 0 } }

/-- `message_complete()`, with check (e) on the whole accumulated payload of a `TEXT` message (R145). -/
def messageComplete (p : Phase) (s : State) : Out :=
  if s.ra.op = 0x1#4 then
    match s.msgbuf.bytes 0 s.ra.len.toNat with
    | none => .fault .msgbufUnwritten
    | some bs =>
      if utf8Valid bs then .next (deliver s) else .next (raise .pvBadUtf8 p true s)
  else .next (deliver s)

/-! ## The checks of the parser (R114) -/

/-- Check (a) for a reserved opcode: it always fails. -/
def reservedCheck (_ : State) : Option ErrCode := some .pvBadOpcode

/-- Check (b) for `CONT`: a message must be in progress. -/
def contCheck (s : State) : Option ErrCode := if s.ra.active then none else some .pvContNoStart

/-- Check (b) for `TEXT` and `BINARY`: no message may be in progress. -/
def startCheck (s : State) : Option ErrCode := if s.ra.active then some .pvStartInMsg else none

/-- A control opcode has no check at byte 0. -/
def noCheck (_ : State) : Option ErrCode := none

/-- The MASK value the role requires of a received frame (R7, R94). -/
def requiredMask (s : State) : Bool :=
  match s.cfg.role with
  | .server => true
  | .client => false

/-- Check (d), on the length just known, for a frame with opcode `op`. The sum is unbounded (R114). -/
def capacityCheck (op : Opcode) (s : State) : Option ErrCode :=
  match dest op with
  | .msg => if msgLimit s.params < s.ra.len.toNat + s.f.len.toNat then some .resourceMsg else none
  | .ctrl => if s.params.ctrlCap < s.f.len.toNat then some .resourceCtrl else none
  | .discard => none
  | .none => none

/-! ## The RX byte step (R113) -/

/-- What a frame opcode does with a frame that has ended, given the phase in which its last byte was consumed (R119). -/
abbrev FrameEnd := Phase → State → Out

/-- `frame_end()`: the phase is `HDR0` again, then the opcode's own action (R119). -/
def frameEnd (atEnd : FrameEnd) (p : Phase) (s : State) : Out := atEnd p { s with ph := .hdr0 }

/-- `header_done()` (R113). -/
def headerDone (atEnd : FrameEnd) (p : Phase) (s : State) : Out :=
  if s.f.len = 0 then frameEnd atEnd p s else .next { s with ph := .pay }

/-- `length_known()` (R113, R115): check (d), then the key or the end of the header. -/
def lengthKnown (op : Opcode) (atEnd : FrameEnd) (p : Phase) (s : State) : Out :=
  match capacityCheck op s with
  | some e => .next (raise e p true s)
  | none => if s.f.mask then .next { s with ph := .key, cnt := 0 } else headerDone atEnd p s

/-- `store(dest, i, d)` (R117). An index outside the buffer, which R117 says never occurs, is a fault of the model, DEDUCED
(notes/assumptions/9.md). -/
def store (d : Dest) (i : Nat) (b : Byte) (s : State) : Out :=
  match d with
  | .msg =>
    if bufIndexOk s.params .msgbuf (s.ra.len.toNat + i) then
      .next { s with msgbuf := s.msgbuf.write (s.ra.len.toNat + i) b }
    else .fault .msgbufIndex
  | .ctrl =>
    if bufIndexOk s.params .ctrlbuf i then .next { s with ctrlbuf := s.ctrlbuf.write i b }
    else .fault .ctrlbufIndex
  | .discard => .next s
  | .none => .next s

/-- The working registers after byte 0 (R113 `HDR0`). -/
def byte0Hdr (fin : Bool) (rsv : BitVec 3) (op : Opcode) : FrameHdr :=
  { fin := fin, rsv := rsv, op := op, mask := false, len7 := 0, len := 0, key := Key.zero, idx := 0 }

/-- `HDR0`: byte 0 stored, checks (a) and (b) (R113, R114). -/
def byte0Step (fin : Bool) (rsv : BitVec 3) (op : Opcode) (check0 : State → Option ErrCode) (s : State) : Out :=
  let t := { s with f := byte0Hdr fin rsv op, cnt := 0 }
  match check0 t with
  | some e => .next (raise e .hdr0 true t)
  | none => .next { t with ph := .hdr1 }

/-- `HDR1`: byte 1 stored, check (c), then the length or the extended length (R113, R114). -/
def byte1Step (op : Opcode) (mask : Bool) (len7 : BitVec 7) (atEnd : FrameEnd) (s : State) : Out :=
  let t := { s with f := { s.f with mask := mask, len7 := len7 } }
  if mask ≠ requiredMask t then .next (raise .pvMaskPolicy .hdr1 true t)
  else if len7.toNat ≤ 125 then
    lengthKnown op atEnd .hdr1 { t with f := { t.f with len := len7.setWidth 64 } }
  else .next { t with ph := .ext, cnt := 0 }

/-- `EXT`: one more big-endian length byte (R66, R113). `cnt` is compared before it wraps, DEDUCED
(notes/assumptions/7.md). -/
def extStep (op : Opcode) (atEnd : FrameEnd) (b : Byte) (s : State) : Out :=
  let t := { s with f := { s.f with len := pushLenByte s.f.len b }, cnt := s.cnt + 1 }
  if s.cnt.toNat + 1 = extNeed s.f.len7 then lengthKnown op atEnd .ext t else .next t

/-- `KEY`: one more key byte (R67, R113). -/
def keyStep (atEnd : FrameEnd) (b : Byte) (s : State) : Out :=
  let t := { s with f := { s.f with key := s.f.key.set s.cnt.toNat b }, cnt := s.cnt + 1 }
  if s.cnt.toNat + 1 = 4 then headerDone atEnd .key t else .next t

/-- What follows a stored payload byte: the index moves on, and the last byte ends the frame (R113 `PAY`). -/
def payNext (atEnd : FrameEnd) (s : State) : Out :=
  let t := { s with f := { s.f with idx := s.f.idx + 1 } }
  if t.f.idx = t.f.len then frameEnd atEnd .pay t else .next t

/-- `PAY`: one payload byte unmasked and stored (R113, R116, R117). -/
def payStep (op : Opcode) (atEnd : FrameEnd) (b : Byte) (s : State) : Out :=
  match store (dest op) s.f.idx.toNat (maskByte s.f.mask s.f.key s.f.idx.toNat b) s with
  | .next t => payNext atEnd t
  | .fault r => .fault r
  | .refused r => .refused r

/-- `RxByte` for a byte of a frame with opcode `op` (R113). The byte is the one on `rx_data`; the operands are the fields
of the header word it belongs to, as far as it has been received (notes/assumptions/1.md). `check0` is the opcode's
check at byte 0 and `atEnd` its frame-end action. When the guard is false the step holds and nothing changes (R14). -/
def rxFrameByte (op : Opcode) (fin : Bool) (rsv : BitVec 3) (mask : Bool) (len7 : BitVec 7)
    (check0 : State → Option ErrCode) (atEnd : FrameEnd) (s : State) : Out :=
  if rxEnabled s then
    let t := { s with rxCount := s.rxCount + 1 }
    match s.ph with
    | .hdr0 => byte0Step fin rsv op check0 t
    | .hdr1 => byte1Step op mask len7 atEnd t
    | .ext => extStep op atEnd s.env.rxData t
    | .key => keyStep atEnd s.env.rxData t
    | .pay => payStep op atEnd s.env.rxData t
    | .stop => .next s
  else .next s

end Sys2Proof.Machine
end

