-- ==== Sys2Proof/Machine/Commands.lean ====
section
/-! DEFINITION. The host commands (44_host_interface.md rules R210 to R221). A legal command makes its writes; an illegal one takes the reject action (R210, R212). Bits 31:4 of the `CMD` write, the operand `ign`, are ignored (R98). -/
namespace Sys2Proof.Machine

/-- When `TX_DATA` is legal (R216). -/
def txDataLegal (s : State) : Bool :=
  decide (s.cs = .opened) && !txHostBusy s && isDataOp s.txCtrl.op && decide (s.txLen.toNat ≤ s.params.txCap)

/-- When `TX_CLOSE` is legal (R217). -/
def txCloseLegal (s : State) : Bool :=
  decide (s.cs = .opened) && !txHostBusy s && decide (s.txLen.toNat ≤ s.params.txCap)

/-- `NOP` (R211). -/
def execNop (_ign : BitVec 28) (s : State) : Out := .next s

/-- `HS_DONE` (R213). -/
def execHsDone (_ign : BitVec 28) (s : State) : Out :=
  if s.cs = .handshaking then .next { s with cs := .opened, ph := .hdr0, cnt := 0 } else .next (reject s)

/-- `HS_FAIL` (R214): the `HANDSHAKE` fault. -/
def execHsFail (_ign : BitVec 28) (s : State) : Out :=
  if s.cs = .handshaking then .next (raise .handshake s.ph false s) else .next (reject s)

/-- `MSG_ACK` (R215). -/
def execMsgAck (_ign : BitVec 28) (s : State) : Out :=
  if s.msg.valid then .next { s with msg := { s.msg with valid := false } } else .next (reject s)

/-- `TX_DATA` (R216). -/
def execTxData (_ign : BitVec 28) (s : State) : Out :=
  if txDataLegal s then
    .next { s with ht := { pend := true, fin := s.txCtrl.fin, op := s.txCtrl.op, len := s.txLen } }
  else .next (reject s)

/-- `TX_CLOSE` (R217). -/
def execTxClose (_ign : BitVec 28) (s : State) : Out :=
  if txCloseLegal s then
    .next { s with ht := { pend := true, fin := true, op := 0x8#4, len := s.txLen }, cs := .closingSent }
  else .next (reject s)

/-- `ABORT` (R218). -/
def execAbort (_ign : BitVec 28) (s : State) : Out :=
  if s.cs ≠ .closed then .next (closeDone .abort s) else .next (reject s)

/-- `CLR_REJ` (R219). -/
def execClrRej (_ign : BitVec 28) (s : State) : Out := .next { s with cmdRej := false }

/-- `CMD_RSVD8_F` (R220): a reserved code is never legal. -/
def execCmdRsvd8F (_ign : BitVec 28) (_code : BitVec 4) (s : State) : Out := .next (reject s)

end Sys2Proof.Machine
end

