-- ==== Sys2Proof/Machine/ControlFrames.lean ====
section
/-! DEFINITION. The control opcodes `CLOSE`, `PING` and `PONG` (42_control_frames.md rules R160, R162, R164): each one's frame-end action and its meaning. FIN and RSV do not affect them (R167). -/
namespace Sys2Proof.Machine

/-- The frame-end action of `CLOSE` (R160). `f_len` fits the 32 bits of `ctrl_len`, DEDUCED (notes/assumptions/18.md). -/
def frameEndClose (_ : Phase) (s : State) : Out :=
  let t := { s with
    ctrl := { op := 0x8#4, len := s.f.len.setWidth 32 }
    closeRx := true
    ph := .stop
    ra := { active := false, op := 0, len := 0 } }
  if s.cs = .opened then .next { t with cs := .closingReceived, crPend := .closeEcho } else .next t

/-- The frame-end action of `PING` (R162): a Pong is queued in `OPEN` only. -/
def frameEndPing (_ : Phase) (s : State) : Out :=
  let t := { s with ctrl := { op := 0x9#4, len := s.f.len.setWidth 32 } }
  if s.cs = .opened then .next { t with crPend := .pong } else .next t

/-- The frame-end action of `PONG` (R164): nothing. -/
def frameEndPong (_ : Phase) (s : State) : Out := .next s

/-- `CLOSE` (R160): one RX byte of a Close frame. -/
def execClose (fin : Bool) (rsv : BitVec 3) (mask : Bool) (len7 : BitVec 7) (s : State) : Out :=
  rxFrameByte 0x8#4 fin rsv mask len7 noCheck frameEndClose s

/-- `PING` (R162): one RX byte of a Ping frame. -/
def execPing (fin : Bool) (rsv : BitVec 3) (mask : Bool) (len7 : BitVec 7) (s : State) : Out :=
  rxFrameByte 0x9#4 fin rsv mask len7 noCheck frameEndPing s

/-- `PONG` (R164): one RX byte of a Pong frame. -/
def execPong (fin : Bool) (rsv : BitVec 3) (mask : Bool) (len7 : BitVec 7) (s : State) : Out :=
  rxFrameByte 0xA#4 fin rsv mask len7 noCheck frameEndPong s

end Sys2Proof.Machine
end

