-- ==== Sys2Proof/Machine/DataFrames.lean ====
section
/-! DEFINITION. The data opcodes `CONT`, `TEXT` and `BINARY` (41_data_frames.md rules R142 to R144): each one's frame-end action and its meaning. -/
namespace Sys2Proof.Machine

/-- The frame-end action of `CONT` (R142). -/
def frameEndCont (p : Phase) (s : State) : Out :=
  let t := { s with ra := { s.ra with len := s.ra.len + s.f.len } }
  if s.f.fin then messageComplete p t else .next t

/-- The frame-end action of `TEXT` (R143). -/
def frameEndText (p : Phase) (s : State) : Out :=
  let t := { s with ra := { active := true, op := 0x1#4, len := s.f.len } }
  if s.f.fin then messageComplete p t else .next t

/-- The frame-end action of `BINARY` (R144). -/
def frameEndBinary (p : Phase) (s : State) : Out :=
  let t := { s with ra := { active := true, op := 0x2#4, len := s.f.len } }
  if s.f.fin then messageComplete p t else .next t

/-- `CONT` (R142): one RX byte of a continuation frame. -/
def execCont (fin : Bool) (rsv : BitVec 3) (mask : Bool) (len7 : BitVec 7) (s : State) : Out :=
  rxFrameByte 0x0#4 fin rsv mask len7 contCheck frameEndCont s

/-- `TEXT` (R143): one RX byte of the first frame of a text message. -/
def execText (fin : Bool) (rsv : BitVec 3) (mask : Bool) (len7 : BitVec 7) (s : State) : Out :=
  rxFrameByte 0x1#4 fin rsv mask len7 startCheck frameEndText s

/-- `BINARY` (R144): one RX byte of the first frame of a binary message. -/
def execBinary (fin : Bool) (rsv : BitVec 3) (mask : Bool) (len7 : BitVec 7) (s : State) : Out :=
  rxFrameByte 0x2#4 fin rsv mask len7 startCheck frameEndBinary s

end Sys2Proof.Machine
end

