-- ==== Sys2Proof/Machine/ReservedFrames.lean ====
section
/-! DEFINITION. The ten reserved opcodes (42_control_frames.md rule R166): each faults at byte 0, and none reaches a frame-end action. -/
namespace Sys2Proof.Machine

/-- The frame-end action of a reserved opcode, which R166 says is never reached: the same fault as at byte 0,
DEDUCED (notes/assumptions/12.md). -/
def frameEndReserved (p : Phase) (s : State) : Out := .next (raise .pvBadOpcode p true s)

/-- `RSVD3`, opcode 0x3 (R166). -/
def execRsvd3 (fin : Bool) (rsv : BitVec 3) (mask : Bool) (len7 : BitVec 7) (s : State) : Out :=
  rxFrameByte 0x3#4 fin rsv mask len7 reservedCheck frameEndReserved s

/-- `RSVD4`, opcode 0x4 (R166). -/
def execRsvd4 (fin : Bool) (rsv : BitVec 3) (mask : Bool) (len7 : BitVec 7) (s : State) : Out :=
  rxFrameByte 0x4#4 fin rsv mask len7 reservedCheck frameEndReserved s

/-- `RSVD5`, opcode 0x5 (R166). -/
def execRsvd5 (fin : Bool) (rsv : BitVec 3) (mask : Bool) (len7 : BitVec 7) (s : State) : Out :=
  rxFrameByte 0x5#4 fin rsv mask len7 reservedCheck frameEndReserved s

/-- `RSVD6`, opcode 0x6 (R166). -/
def execRsvd6 (fin : Bool) (rsv : BitVec 3) (mask : Bool) (len7 : BitVec 7) (s : State) : Out :=
  rxFrameByte 0x6#4 fin rsv mask len7 reservedCheck frameEndReserved s

/-- `RSVD7`, opcode 0x7 (R166). -/
def execRsvd7 (fin : Bool) (rsv : BitVec 3) (mask : Bool) (len7 : BitVec 7) (s : State) : Out :=
  rxFrameByte 0x7#4 fin rsv mask len7 reservedCheck frameEndReserved s

/-- `RSVDB`, opcode 0xB (R166). -/
def execRsvdB (fin : Bool) (rsv : BitVec 3) (mask : Bool) (len7 : BitVec 7) (s : State) : Out :=
  rxFrameByte 0xB#4 fin rsv mask len7 reservedCheck frameEndReserved s

/-- `RSVDC`, opcode 0xC (R166). -/
def execRsvdC (fin : Bool) (rsv : BitVec 3) (mask : Bool) (len7 : BitVec 7) (s : State) : Out :=
  rxFrameByte 0xC#4 fin rsv mask len7 reservedCheck frameEndReserved s

/-- `RSVDD`, opcode 0xD (R166). -/
def execRsvdD (fin : Bool) (rsv : BitVec 3) (mask : Bool) (len7 : BitVec 7) (s : State) : Out :=
  rxFrameByte 0xD#4 fin rsv mask len7 reservedCheck frameEndReserved s

/-- `RSVDE`, opcode 0xE (R166). -/
def execRsvdE (fin : Bool) (rsv : BitVec 3) (mask : Bool) (len7 : BitVec 7) (s : State) : Out :=
  rxFrameByte 0xE#4 fin rsv mask len7 reservedCheck frameEndReserved s

/-- `RSVDF`, opcode 0xF (R166). -/
def execRsvdF (fin : Bool) (rsv : BitVec 3) (mask : Bool) (len7 : BitVec 7) (s : State) : Out :=
  rxFrameByte 0xF#4 fin rsv mask len7 reservedCheck frameEndReserved s

end Sys2Proof.Machine
end

