-- ==== Sys2Proof/Machine/Dispatch.lean ====
section
/-! DEFINITION. The meaning of each instruction: one arm per row of spec/opcode_table.json. -/
namespace Sys2Proof.Machine

def exec (i : Instr) (s : State) : Host.Outcome State Fault Refusal :=
  match i with
  | .cont fin rsv mask len7 => Sys2Proof.Machine.execCont fin rsv mask len7 s
  | .text fin rsv mask len7 => Sys2Proof.Machine.execText fin rsv mask len7 s
  | .binary fin rsv mask len7 => Sys2Proof.Machine.execBinary fin rsv mask len7 s
  | .rsvd3 fin rsv mask len7 => Sys2Proof.Machine.execRsvd3 fin rsv mask len7 s
  | .rsvd4 fin rsv mask len7 => Sys2Proof.Machine.execRsvd4 fin rsv mask len7 s
  | .rsvd5 fin rsv mask len7 => Sys2Proof.Machine.execRsvd5 fin rsv mask len7 s
  | .rsvd6 fin rsv mask len7 => Sys2Proof.Machine.execRsvd6 fin rsv mask len7 s
  | .rsvd7 fin rsv mask len7 => Sys2Proof.Machine.execRsvd7 fin rsv mask len7 s
  | .close fin rsv mask len7 => Sys2Proof.Machine.execClose fin rsv mask len7 s
  | .ping fin rsv mask len7 => Sys2Proof.Machine.execPing fin rsv mask len7 s
  | .pong fin rsv mask len7 => Sys2Proof.Machine.execPong fin rsv mask len7 s
  | .rsvdB fin rsv mask len7 => Sys2Proof.Machine.execRsvdB fin rsv mask len7 s
  | .rsvdC fin rsv mask len7 => Sys2Proof.Machine.execRsvdC fin rsv mask len7 s
  | .rsvdD fin rsv mask len7 => Sys2Proof.Machine.execRsvdD fin rsv mask len7 s
  | .rsvdE fin rsv mask len7 => Sys2Proof.Machine.execRsvdE fin rsv mask len7 s
  | .rsvdF fin rsv mask len7 => Sys2Proof.Machine.execRsvdF fin rsv mask len7 s
  | .nop ign => Sys2Proof.Machine.execNop ign s
  | .hsDone ign => Sys2Proof.Machine.execHsDone ign s
  | .hsFail ign => Sys2Proof.Machine.execHsFail ign s
  | .msgAck ign => Sys2Proof.Machine.execMsgAck ign s
  | .txData ign => Sys2Proof.Machine.execTxData ign s
  | .txClose ign => Sys2Proof.Machine.execTxClose ign s
  | .abort ign => Sys2Proof.Machine.execAbort ign s
  | .clrRej ign => Sys2Proof.Machine.execClrRej ign s
  | .cmdRsvd8F ign code => Sys2Proof.Machine.execCmdRsvd8F ign code s

end Sys2Proof.Machine
end

