-- ==== Sys2Proof/Machine/HostPort.lean ====
section
/-! DEFINITION. The host port: the register space `CSR` (10_state.md rules R39 to R58) and the buffer spaces (20_memory.md rules R60 to R71). -/
namespace Sys2Proof.Machine

/-! ## Registers (R39) -/

/-- The registers of the table of R39. -/
inductive Csr where
  | id | cfg | cmd | status | err | errInfo | msgInfo | msgLenLo | msgLenHi | reasmInfo | reasmLenLo | reasmLenHi
  | ctrlInfo | ctrlLen | txCtrl | txLenLo | txLenHi | irqEn | irqPend | rxCountLo | rxCountHi | txCountLo | txCountHi
  | capMsg | capCtrl | capTx
deriving DecidableEq, Repr

/-- The register at a byte offset; a reserved offset has none (R39, R58). -/
def csrAt (off : Nat) : Option Csr :=
  match off with
  | 0x000 => some .id
  | 0x004 => some .cfg
  | 0x008 => some .cmd
  | 0x00C => some .status
  | 0x010 => some .err
  | 0x014 => some .errInfo
  | 0x018 => some .msgInfo
  | 0x01C => some .msgLenLo
  | 0x020 => some .msgLenHi
  | 0x024 => some .reasmInfo
  | 0x028 => some .reasmLenLo
  | 0x02C => some .reasmLenHi
  | 0x030 => some .ctrlInfo
  | 0x034 => some .ctrlLen
  | 0x038 => some .txCtrl
  | 0x03C => some .txLenLo
  | 0x040 => some .txLenHi
  | 0x044 => some .irqEn
  | 0x048 => some .irqPend
  | 0x04C => some .rxCountLo
  | 0x050 => some .rxCountHi
  | 0x054 => some .txCountLo
  | 0x058 => some .txCountHi
  | 0x05C => some .capMsg
  | 0x060 => some .capCtrl
  | 0x064 => some .capTx
  | _ => none

/-- Whether a `CSR` access is defined: 32 bits wide, word-aligned and at most 0xFFC (R62, R63, R69). -/
def csrAccessOk (width off : Nat) : Bool :=
  decide (width = 32) && decide (off % 4 = 0) && decide (off ≤ 0xFFC)

/-- The constant `ID` reads (R40). -/
def idWord : Word32 := 0x57530001#32

/-- `CAP_MSG`: `P_MSG_CAP` below 2^32 - 1, else 0xFFFFFFFF (R57). -/
def capMsgWord (p : Params) : Word32 :=
  match p.msgCap with
  | none => 0xFFFFFFFF#32
  | some c => if c < 2 ^ 32 - 1 then BitVec.ofNat 32 c else 0xFFFFFFFF#32

/-- The value a register reads (R40 to R57). -/
def csrValue (s : State) : Csr → Word32
  | .id => idWord
  | .cfg => (BitVec.ofBool s.cfg.closeEcho.bit ++ BitVec.ofBool s.cfg.role.bit).setWidth 32
  | .cmd => 0
  | .status => statusWord s
  | .err => s.err.code.setWidth 32
  | .errInfo => s.errInfo.setWidth 32
  | .msgInfo => s.msg.op.setWidth 32
  | .msgLenLo => lo32 s.msg.len
  | .msgLenHi => hi32 s.msg.len
  | .reasmInfo => (BitVec.ofBool s.ra.active ++ s.ra.op).setWidth 32
  | .reasmLenLo => lo32 s.ra.len
  | .reasmLenHi => hi32 s.ra.len
  | .ctrlInfo => s.ctrl.op.setWidth 32
  | .ctrlLen => s.ctrl.len
  | .txCtrl => (BitVec.ofBool s.txCtrl.fin ++ (0 : BitVec 3) ++ s.txCtrl.op).setWidth 32
  | .txLenLo => lo32 s.txLen
  | .txLenHi => hi32 s.txLen
  | .irqEn => s.irq.en.setWidth 32
  | .irqPend => s.irq.pend.setWidth 32
  | .rxCountLo => lo32 s.rxCount
  | .rxCountHi => hi32 s.rxCount
  | .txCountLo => lo32 s.txCount
  | .txCountHi => hi32 s.txCount
  | .capMsg => capMsgWord s.params
  | .capCtrl => BitVec.ofNat 32 s.params.ctrlCap
  | .capTx => BitVec.ofNat 32 s.params.txCap

/-- The value at an offset: its register's, or 0 at a reserved offset (R58). -/
def csrRead (s : State) (off : Nat) : Word32 :=
  match csrAt off with
  | some r => csrValue s r
  | none => 0

/-- A `CFG` write: taken in `HANDSHAKING`, rejected in any other state (R41). -/
def writeCfg (w : Word32) (s : State) : State :=
  if s.cs = .handshaking then
    { s with cfg := { role := Role.ofBit (w.getLsbD 0), closeEcho := CloseEcho.ofBit (w.getLsbD 1) } }
  else reject s

/-- The write effect of a register (R63). `CMD` runs the command the word encodes (R42, R210). A register the table marks
RO ignores the write (R39). -/
def csrWrite (r : Csr) (w : Word32) (s : State) : Out :=
  match r with
  | .cfg => .next (writeCfg w s)
  | .cmd => exec (decodeCommand w) s
  | .txCtrl => .next { s with txCtrl := { op := w.extractLsb' 0 4, fin := w.getLsbD 7 } }
  | .txLenLo => .next { s with txLen := hi32 s.txLen ++ w }
  | .txLenHi => .next { s with txLen := w ++ lo32 s.txLen }
  | .irqEn => .next { s with irq := { s.irq with en := w.extractLsb' 0 4 } }
  | .irqPend => .next { s with irq := clearPend s.irq (w.extractLsb' 0 4) }
  | _ => .next s

/-- The write effect at an offset: its register's, or nothing at a reserved offset (R58, R63). -/
def csrWriteAt (off : Nat) (w : Word32) (s : State) : Out :=
  match csrAt off with
  | some r => csrWrite r w s
  | none => .next s

/-! ## Buffer spaces (R64, R65) -/

/-- Whether a buffer access is defined: 8 bits wide and inside the index range (R64, R65, R70). -/
def bufAccessOk (p : Params) (buf : Buf) (width idx : Nat) : Bool := decide (width = 8) && bufIndexOk p buf idx

/-- Whether a host read of a buffer returns the byte the buffer holds; otherwise it returns any value (R64). Where a Ping's or
a Close's payload was cut off and `ph` is `STOP`, R64 reads the partly overwritten `ctrlbuf` and R284 speaks of the last
payload received: R64 is followed, DESIGN CHOICE (notes/assumptions/20.md). -/
def readWindow (s : State) : Buf → Nat → Bool
  | .msgbuf, idx => s.msg.valid && decide (idx < s.msg.len.toNat)
  | .ctrlbuf, idx =>
    decide (idx < s.ctrl.len.toNat) && !(decide (s.ph = .pay) && decide (dest s.f.op = .ctrl))
  | .txbuf, _ => true

/-- What a host read of a buffer returns, and the state after it (R64). -/
def hostBufByte (buf : Buf) (idx : Nat) (s : State) : Byte × State :=
  if readWindow s buf idx then readOrDraw buf idx s else drawByte s

/-- The host port's read data. -/
def withReply (r : Reply) (s : State) : State := { s with env := { s.env with reply := some r } }

/-- A host write to a buffer byte: `TXBUF` stores it, the other two ignore it (R65). -/
def hostBufWrite (buf : Buf) (idx : Nat) (b : Byte) (s : State) : State :=
  match buf with
  | .txbuf => { s with txbuf := s.txbuf.write idx b }
  | .msgbuf => s
  | .ctrlbuf => s

/-! ## The access -/

/-- One host access, refused where the block gives it no meaning (R14, R62 to R65). -/
def hostAccess (a : HostAccess) (s : State) : Out :=
  match a with
  | .csrRead width off =>
    if csrAccessOk width off then .next (withReply (.word (csrRead s off)) s) else .refused .csrAccess
  | .csrWrite width off w =>
    if csrAccessOk width off then csrWriteAt off w s else .refused .csrAccess
  | .bufRead buf width idx =>
    if bufAccessOk s.params buf width idx then
      .next (withReply (.byte (hostBufByte buf idx s).1) (hostBufByte buf idx s).2)
    else .refused .bufAccess
  | .bufWrite buf width idx b =>
    if bufAccessOk s.params buf width idx then .next (hostBufWrite buf idx b s) else .refused .bufAccess

end Sys2Proof.Machine
end

