-- ==== Sys2Proof/Machine/Transport.lean ====
section
/-! DEFINITION. The RX side: fetching the frame an RX byte belongs to and running it (R22, R112, R113); the end of the RX stream and a write error (R225, R226); and the `Reset` event (R270). -/
namespace Sys2Proof.Machine

/-- Bytes 0 and 1 of the header an RX byte `b` belongs to, as far as they have been received: the parser's working
registers, with `b` in its place and zero for what has not come (R25, R113). -/
def headerBytes (s : State) (b : Byte) : Byte × Byte :=
  match s.ph with
  | .hdr0 => (b, 0)
  | .hdr1 => (byte0Of s.f.fin s.f.rsv s.f.op, b)
  | _ => (byte0Of s.f.fin s.f.rsv s.f.op, byte1Of s.f.mask s.f.len7)

/-- The frame an RX byte belongs to: the instruction the step runs (R20). -/
def fetchFrame (s : State) (b : Byte) : Instr := decodeHeader (headerBytes s b).1 (headerBytes s b).2

/-- The byte `b` on `rx_data[7:0]` (R22). -/
def offerRx (b : Byte) (s : State) : State := { s with env := { s.env with rxData := b } }

/-- The event `RxByte(b)` (R113): taken when `rx_enabled`, else the block holds. -/
def rxByteEvent (b : Byte) (s : State) : Out :=
  if rxEnabled s then settleOut (exec (fetchFrame s b) (offerRx b s)) else .next s

/-- `RxEnd` (R225); its guard is `rx_enabled`. -/
def rxEnd (s : State) : State :=
  if s.ph = .hdr0 then closeDone .eof s else raise .truncated s.ph false s

/-- The event `RxEnd` (R225). -/
def rxEndEvent (s : State) : Out := if rxEnabled s then settleOut (.next (rxEnd s)) else .next s

/-- `TxError` (R226); its guard is `enc_busy = 1`. -/
def txError (s : State) : State := raise .ioError s.ph false s

/-- The event `TxError` (R226). -/
def txErrorEvent (s : State) : Out := if s.enc.busy then settleOut (.next (txError s)) else .next s

/-- The event `Reset` (R270): every field at its reset value; the parameters and the environment are not the block's
(DEDUCED, notes/assumptions/14.md). -/
def resetBlock (s : State) : State := { State.reset with params := s.params, env := s.env }

end Sys2Proof.Machine
end

