-- ==== Sys2Proof/Machine/TxFramer.lean ====
section
/-! DEFINITION. The TX framer (43_tx_framer.md): starting a frame (R180 to R184) and emitting its bytes (R185, R186). -/
namespace Sys2Proof.Machine

/-- A frame to start: source, FIN, opcode and payload length (R181). -/
structure TxReq where
  src : TxSrc
  fin : Bool
  op : Opcode
  len : Word64
deriving DecidableEq, Repr

/-- The frame `TxStart` starts: a control response first (R180, R181). -/
def txRequest (s : State) : TxReq :=
  match s.crPend with
  | .pong => { src := .ctrl, fin := true, op := 0xA#4, len := s.ctrl.len.setWidth 64 }
  | .closeEcho =>
    { src := .ctrl, fin := true, op := 0x8#4
      len := (match s.cfg.closeEcho with | .verbatim => s.ctrl.len.setWidth 64 | .empty => 0) }
  | .none => { src := .host, fin := s.ht.fin, op := s.ht.op, len := s.ht.len }

/-- The encoder registers at the start of a frame (R181). -/
def encoderFor (r : TxReq) (masked : Bool) (key : Key) : Encoder :=
  { busy := true, src := r.src, hdr := buildHeader r.fin r.op masked key r.len, plen := r.len
    masked := masked, key := key, pos := 0 }

/-- `TxStart(k)` under its guard, with the key of the `CLIENT` role or four zeros (R181). -/
def txStartWith (masked : Bool) (key : Key) (s : State) : State :=
  { s with
    enc := encoderFor (txRequest s) masked key
    crPend := .none
    ht := { s.ht with pend := (if s.crPend = .none then false else s.ht.pend) } }

/-- Whether `TxStart` is taken with what the key source supplies: a `CLIENT` needs a key (R181). -/
def txStartTaken (key : Option Word32) (s : State) : Bool :=
  txStartEnabled s && (decide (s.cfg.role = .server) || key.isSome)

/-- `TxStart` (R181); its guard is `txStartTaken`. The key is read in the `CLIENT` role only. -/
def txStart (key : Option Word32) (s : State) : State :=
  match s.cfg.role, key with
  | .server, _ => txStartWith false Key.zero s
  | .client, some k => txStartWith true (Key.ofWord k) s
  | .client, none => s

/-- The buffer the payload of the frame being emitted comes from (R184). -/
def encBuf (s : State) : Buf :=
  match s.enc.src with
  | .host => .txbuf
  | .ctrl => .ctrlbuf

/-- The fault of the model for an index outside that buffer. -/
def encBufFault (s : State) : Fault :=
  match s.enc.src with
  | .host => .txbufIndex
  | .ctrl => .ctrlbufIndex

/-- The byte the frame's position calls for, and the state after reading it: a header byte, or a payload byte read now
and masked (R185, R186). -/
def txOut (s : State) : Except Fault (Byte × State) :=
  match s.enc.hdr[s.enc.pos.toNat]? with
  | some b => .ok (b, s)
  | none =>
    let i := s.enc.pos.toNat - s.enc.hdr.length
    if bufIndexOk s.params (encBuf s) i then
      let r := readOrDraw (encBuf s) i s
      .ok (maskByte s.enc.masked s.enc.key i r.1, r.2)
    else .error (encBufFault s)

/-- `TxEmit(out)` and the framer's registers after it: the byte joins the TX stream, the position and `tx_count` move on,
and the last byte frees the framer (R185). -/
def txEmit (out : Byte) (s : State) : State :=
  let last := decide (s.enc.pos.toNat + 1 = s.enc.hdr.length + s.enc.plen.toNat)
  { s with
    env := { s.env with txStream := s.env.txStream ++ [out] }
    txCount := s.txCount + 1
    enc := { s.enc with pos := s.enc.pos + 1, busy := s.enc.busy && !last }
    irq := (if last && decide (s.enc.src = .host) then setPend s.irq irqTxDone else s.irq) }

/-- `TxByte` (R185); its guard is `enc_busy = 1`. -/
def txByte (s : State) : Out :=
  match txOut s with
  | .ok (out, t) => .next (txEmit out t)
  | .error r => .fault r

end Sys2Proof.Machine
end

