-- ==== Sys2Proof/Machine/Events.lean ====
section
/-! DEFINITION. One event of an agent (R12, R13): its guard, its step, and `settle` after it (R231). An event whose guard is false holds: it waits in its place in the order until another step makes the guard true, and nothing of the block changes (R14, R112, R266). -/
namespace Sys2Proof.Machine

/-- The event `TxStart` (R181). -/
def txStartEvent (key : Option Word32) (s : State) : Out :=
  if txStartTaken key s then settleOut (.next (txStart key s)) else .next s

/-- The event `TxByte` (R185). -/
def txByteEvent (s : State) : Out := if s.enc.busy then settleOut (txByte s) else .next s

/-- The event `Reset` (R270); `settle` runs after it as after every step (R231). -/
def resetEvent (s : State) : Out := settleOut (.next (resetBlock s))

/-- Whether the guard of an event holds, so that the block takes it (R14). A host access and a reset are never held. -/
def eventTaken (e : Event) (s : State) : Bool :=
  match e with
  | .rxByte _ => rxEnabled s
  | .rxEnd => rxEnabled s
  | .txStart key => txStartTaken key s
  | .txByte => s.enc.busy
  | .txError => s.enc.busy
  | .host _ => true
  | .reset => true

/-- One event, from the state it finds. -/
def runEvent (e : Event) (s : State) : Out :=
  match e with
  | .rxByte b => rxByteEvent b s
  | .rxEnd => rxEndEvent s
  | .txStart key => txStartEvent key s
  | .txByte => txByteEvent s
  | .txError => txErrorEvent s
  | .host a => settleOut (hostAccess a s)
  | .reset => resetEvent s

/-- The state with `es` as the events still to come. -/
def withEvents (es : List Event) (s : State) : State := { s with env := { s.env with events := es } }

/-- The state with events put before its pending ones. -/
def pushEvents (es : List Event) (s : State) : State := { s with env := { s.env with events := es ++ s.env.events } }

/-- The first event of an order whose guard holds in `s`, and the order without it: the events before it hold, and stay
(R14, R266). -/
def firstTaken (s : State) : List Event → Option (Event × List Event)
  | [] => none
  | e :: es =>
    if eventTaken e s then some (e, es)
    else match firstTaken s es with
      | some (x, rest) => some (x, e :: rest)
      | none => none

/-- The first event whose guard holds is taken off and run; an event before it waits in its place, and when all wait, or
none is left, nothing happens (R14, R112). That the earliest goes first is a DESIGN CHOICE (notes/assumptions/6.md). -/
def takeEvent (s : State) : Out :=
  match firstTaken s s.env.events with
  | none => .next s
  | some (e, rest) => runEvent e (withEvents rest s)

/-! ## Placing an instruction -/

/-- The bytes that follow a frame's header word when all of them are 0: the extended length, the key and the payload
(R85, R87). The extended length is then 0, so only a base length below 126 has a payload. -/
def zeroTail (mask : Bool) (len7 : BitVec 7) : List Byte :=
  List.replicate (extNeed len7 + 4 * mask.toNat + (if len7.toNat ≤ 125 then len7.toNat else 0)) 0

/-- A state in which the parser takes the first byte of a frame: as it is, if `rx_enabled` holds at `HDR0`; else with the
registers that `rx_enabled` and R23 need there changed and no other. -/
def readyForFrame (s : State) : State :=
  { s with
    cs := (if s.cs = .opened ∨ s.cs = .closingSent then s.cs else .opened)
    ph := .hdr0
    msg := { s.msg with valid := false }
    crPend := .none
    enc := { s.enc with busy := s.enc.busy && decide (s.enc.src = .host) } }

/-- `s` with the frame whose header word is `w`, and zeros after it, as its next RX bytes. -/
def placeFrame (w : Nat) (s : State) : State :=
  let b0 : Byte := (BitVec.ofNat 16 w).extractLsb' 8 8
  let b1 : Byte := (BitVec.ofNat 16 w).extractLsb' 0 8
  pushEvents (([b0, b1] ++ zeroTail (maskOf b1) (len7Of b1)).map Event.rxByte) (readyForFrame s)

/-- `s` with a write of `w` to `CMD` as its next event. -/
def placeCommand (w : Nat) (s : State) : State :=
  pushEvents [Event.host (.csrWrite 32 0x008 (BitVec.ofNat 32 w))] s

end Sys2Proof.Machine
end

