-- ==== Sys2Proof/Machine/Step.lean ====
section
/-! DEFINITION. The step of the machine (R12): the next event of the one total order that is not held (R14, R75), and the placing of an instruction where the step fetches it. -/
namespace Sys2Proof.Machine

/-- One step: the first event of the order whose guard holds (R12, R14, R75). -/
def step (s : State) : Host.Outcome State Fault Refusal := takeEvent s

/-- `s` with the instruction of `nbits` bits `w` where the very next step fetches it: a 16-bit header word as the first RX
bytes of a frame, a 32-bit word as a host write to `CMD` (notes/assumptions/5.md). -/
def State.withFetchWord (s : State) (nbits w : Nat) : State :=
  match nbits with
  | 16 => placeFrame w s
  | 32 => placeCommand w s
  | _ => s

end Sys2Proof.Machine
end

