-- ==== Sys2Proof/Safety.lean ====
section
/-! DEFINITION. What claims speak of: how a step ended (R14), where a byte ends a frame (R111), and the invariants of the machine (R23, R112, R117, R123, R184, R188, R231, R253). -/
namespace Sys2Proof.Machine

/-! ## How an event ended (R14) -/

/-- The four outcomes of a step (R14). -/
inductive StepKind where
  /-- The guard holds and the step writes its state. -/
  | next
  /-- The step raises a connection fault. -/
  | fault
  /-- The guard is false. -/
  | hold
  /-- The access has no meaning. -/
  | refused
  /-- The model stopped at a state no run reaches (`Fault`). -/
  | stuck
deriving DecidableEq, Repr

/-- Which of the outcomes of R14 an event offered in state `s` has. -/
def stepKind (e : Event) (s : State) : StepKind :=
  if eventTaken e s then
    match runEvent e s with
    | .next t => if t.fault && !s.fault then .fault else .next
    | .fault _ => .stuck
    | .refused _ => .refused
  else .hold

/-- The event the next step takes, and the events that stay: its guard holds, and each event before it waits (R14, R112,
R266). -/
def Takes (s : State) (e : Event) (rest : List Event) : Prop :=
  ∃ pre post, s.env.events = pre ++ e :: post ∧ rest = pre ++ post ∧
    (∀ x ∈ pre, eventTaken x s = false) ∧ eventTaken e s = true

/-! ## Where a byte ends a frame (R111) -/

/-- The opcode of a frame instruction; a command has none (R91). -/
def frameOpcode : Instr → Option Opcode
  | .cont _ _ _ _ => some 0x0#4
  | .text _ _ _ _ => some 0x1#4
  | .binary _ _ _ _ => some 0x2#4
  | .rsvd3 _ _ _ _ => some 0x3#4
  | .rsvd4 _ _ _ _ => some 0x4#4
  | .rsvd5 _ _ _ _ => some 0x5#4
  | .rsvd6 _ _ _ _ => some 0x6#4
  | .rsvd7 _ _ _ _ => some 0x7#4
  | .close _ _ _ _ => some 0x8#4
  | .ping _ _ _ _ => some 0x9#4
  | .pong _ _ _ _ => some 0xA#4
  | .rsvdB _ _ _ _ => some 0xB#4
  | .rsvdC _ _ _ _ => some 0xC#4
  | .rsvdD _ _ _ _ => some 0xD#4
  | .rsvdE _ _ _ _ => some 0xE#4
  | .rsvdF _ _ _ _ => some 0xF#4
  | .nop _ => none
  | .hsDone _ => none
  | .hsFail _ => none
  | .msgAck _ => none
  | .txData _ => none
  | .txClose _ => none
  | .abort _ => none
  | .clrRej _ => none
  | .cmdRsvd8F _ _ => none

/-- An RX byte is counted (R113). -/
def countRx (s : State) : State := { s with rxCount := s.rxCount + 1 }

/-- The state in which the frame-end action of a frame with opcode `op` starts, when the byte accepted in `s` is the
frame's last: everything the step writes before it, and `ph` at `HDR0` (R111, R113, R119). `none` when the byte does
not end the frame, or a check fails first. The four ways: byte 1 of an unmasked empty frame, the last extended length
byte of one, the last key byte of a masked empty frame, and the last payload byte. -/
def frameEndState (op : Opcode) (mask : Bool) (len7 : BitVec 7) (s : State) : Option State :=
  let b := s.env.rxData
  match s.ph with
  | .hdr1 =>
    if mask = false ∧ requiredMask s = false ∧ len7 = 0 ∧
        capacityCheck op { s with f := { s.f with len := 0 } } = none then
      some { countRx s with f := { s.f with mask := mask, len7 := len7, len := 0 }, ph := .hdr0 }
    else none
  | .ext =>
    if s.f.mask = false ∧ s.cnt.toNat + 1 = extNeed s.f.len7 ∧ pushLenByte s.f.len b = 0 ∧
        capacityCheck op { s with f := { s.f with len := 0 } } = none then
      some { countRx s with f := { s.f with len := 0 }, cnt := s.cnt + 1, ph := .hdr0 }
    else none
  | .key =>
    if s.cnt.toNat + 1 = 4 ∧ s.f.len = 0 then
      some { countRx s with f := { s.f with key := s.f.key.set s.cnt.toNat b }, cnt := s.cnt + 1, ph := .hdr0 }
    else none
  | .pay =>
    if s.f.idx + 1 = s.f.len then
      match store (dest op) s.f.idx.toNat (maskByte s.f.mask s.f.key s.f.idx.toNat b) (countRx s) with
      | .next t => some { t with f := { t.f with idx := t.f.idx + 1 }, ph := .hdr0 }
      | _ => none
    else none
  | .hdr0 => none
  | .stop => none

/-! ## The table of well-formed UTF-8 (R146), as ranges -/

/-- The nine rows of the table: a range for each byte of the sequence. -/
def utf8Rows : List (List (Nat × Nat)) :=
  [[(0x00, 0x7F)],
   [(0xC2, 0xDF), (0x80, 0xBF)],
   [(0xE0, 0xE0), (0xA0, 0xBF), (0x80, 0xBF)],
   [(0xE1, 0xEC), (0x80, 0xBF), (0x80, 0xBF)],
   [(0xED, 0xED), (0x80, 0x9F), (0x80, 0xBF)],
   [(0xEE, 0xEF), (0x80, 0xBF), (0x80, 0xBF)],
   [(0xF0, 0xF0), (0x90, 0xBF), (0x80, 0xBF), (0x80, 0xBF)],
   [(0xF1, 0xF3), (0x80, 0xBF), (0x80, 0xBF), (0x80, 0xBF)],
   [(0xF4, 0xF4), (0x80, 0x8F), (0x80, 0xBF), (0x80, 0xBF)]]

/-- A sequence fits a row: as many bytes as ranges, each in its range. -/
def fitsRow : List (Nat × Nat) → List Byte → Bool
  | [], [] => true
  | (lo, hi) :: row, b :: q => decide (lo ≤ b.toNat ∧ b.toNat ≤ hi) && fitsRow row q
  | _, _ => false

/-! ## Invariants -/

/-- The parser is inside a frame (R26). -/
def midFrame (s : State) : Bool := decide (s.ph ≠ .hdr0 ∧ s.ph ≠ .stop)

/-- The buffers are in canonical form and hold bytes at their spaces' indices only (R60). -/
structure BuffersOk (s : State) : Prop where
  msgWf : s.msgbuf.wf = true
  ctrlWf : s.ctrlbuf.wf = true
  txWf : s.txbuf.wf = true
  msgIn : ∀ c ∈ s.msgbuf, bufIndexOk s.params .msgbuf c.1 = true
  ctrlIn : ∀ c ∈ s.ctrlbuf, bufIndexOk s.params .ctrlbuf c.1 = true
  txIn : ∀ c ∈ s.txbuf, bufIndexOk s.params .txbuf c.1 = true

/-- The connection state agrees with the parser, the end cause, the fault record and the TX requests. -/
structure ConnOk (s : State) : Prop where
  /-- R112: `ph != STOP` implies `cs` is `OPEN` or `CLOSING_SENT` and `fault = 0`. -/
  running : s.ph ≠ .stop → (s.cs = .opened ∨ s.cs = .closingSent) ∧ s.fault = false
  /-- R253: `NONE` is held until the connection ends. -/
  ended : s.cs = .closed ↔ s.endCause ≠ .none
  /-- R37, R253: `end_cause = FAULT` exactly when a fault was raised. -/
  faulted : s.fault = true ↔ s.endCause = .fault
  /-- R44: `err` holds a code exactly when a fault was raised. -/
  coded : s.fault = true ↔ s.err ≠ .none
  /-- R188, R232, R245: nothing is queued, emitted or being reassembled in `HANDSHAKING` or `CLOSED`. -/
  quiet : s.cs = .handshaking ∨ s.cs = .closed →
    s.crPend = .none ∧ s.ht.pend = false ∧ s.enc.busy = false ∧ s.ra.active = false
  /-- R160: a Close received stops the parser. -/
  closeStops : s.closeRx = true → s.ph = .stop
  /-- R160: in `HANDSHAKING` and `OPEN` no Close has been received. -/
  noClose : s.cs = .handshaking ∨ s.cs = .opened → s.closeRx = false
  /-- R160: `CLOSING_RECEIVED` is entered by a received Close. -/
  received : s.cs = .closingReceived → s.closeRx = true
  /-- R160: the Close echo is queued in `CLOSING_RECEIVED` only. -/
  echo : s.crPend = .closeEcho → s.cs = .closingReceived

/-- The parser's registers agree with its position, and the bytes it will need are there. -/
structure ParserOk (s : State) : Prop where
  /-- R29: `ra_op` is `TEXT` or `BINARY` while active. -/
  raActive : s.ra.active = true → s.ra.op = 0x1#4 ∨ s.ra.op = 0x2#4
  /-- R29: idle is `ra_active = 0, ra_op = 0, ra_len = 0`. -/
  raIdle : s.ra.active = false → s.ra.op = 0 ∧ s.ra.len = 0
  /-- R123: the message in progress is within the limit. -/
  raLen : s.ra.len.toNat ≤ msgLimit s.params
  /-- R112, R184: inside a frame no message is held and no control response is pending or being emitted. -/
  alone : midFrame s = true → s.msg.valid = false ∧ crBusy s = false
  /-- R166: a reserved opcode never gets past byte 0. -/
  opcode : midFrame s = true → isReservedOp s.f.op = false
  /-- R141: the sequence rule has been checked. -/
  sequence : midFrame s = true → isDataOp s.f.op = true → (s.f.op = 0x0#4 ↔ s.ra.active = true)
  /-- R113: nothing of the length or the payload has been read. -/
  atByte1 : s.ph = .hdr1 → s.f.len = 0 ∧ s.f.idx = 0
  /-- R26, R113: fewer length bytes than needed have been read, and the length register holds just those. -/
  atExt : s.ph = .ext → s.cnt.toNat < extNeed s.f.len7 ∧ s.f.len.toNat < 256 ^ s.cnt.toNat ∧ s.f.idx = 0
  /-- R26, R113: fewer than four key bytes have been read. -/
  atKey : s.ph = .key → s.cnt.toNat < 4 ∧ s.f.mask = true ∧ s.f.idx = 0 ∧ capacityCheck s.f.op s = none
  /-- R123: `f_idx < f_len`, and the capacity check passed. -/
  atPay : s.ph = .pay → s.f.idx.toNat < s.f.len.toNat ∧ capacityCheck s.f.op s = none
  /-- R94: the mask check has been passed. -/
  maskOk : s.ph = .ext ∨ s.ph = .key ∨ s.ph = .pay → s.f.mask = requiredMask s
  /-- R30, R117: every byte of the message in progress has been written. -/
  msgWritten : s.msgbuf.written 0
    (s.ra.len.toNat + (if s.ph = .pay ∧ dest s.f.op = .msg then s.f.idx.toNat else 0)) = true
  /-- R117: so has every byte of the control payload arriving. -/
  ctrlArriving : s.ph = .pay → dest s.f.op = .ctrl → s.ctrlbuf.written 0 s.f.idx.toNat = true
  /-- R31: a delivered message is `TEXT` or `BINARY` and all of it is in the buffer. -/
  delivered : s.msg.valid = true →
    (s.msg.op = 0x1#4 ∨ s.msg.op = 0x2#4) ∧ s.msgbuf.written 0 s.msg.len.toNat = true

/-- The TX requests fit their buffers, and the frame being emitted has bytes left. -/
structure TxOk (s : State) : Prop where
  /-- R32: `ctrl_len` fits the buffer and the payload is there. -/
  ctrlLen : s.ctrl.len.toNat ≤ s.params.ctrlCap ∧ s.ctrlbuf.written 0 s.ctrl.len.toNat = true
  /-- R216, R217: an accepted host frame fits `txbuf`. -/
  hostLen : s.ht.pend = true → s.ht.len.toNat ≤ s.params.txCap
  /-- R36: `enc_hdr` is 2 to 14 bytes. -/
  hdrLen : s.enc.busy = true → 2 ≤ s.enc.hdr.length ∧ s.enc.hdr.length ≤ 14
  /-- R185: a frame in emission has a byte left. -/
  left : s.enc.busy = true → s.enc.pos.toNat < s.enc.hdr.length + s.enc.plen.toNat
  /-- R184: its payload fits the buffer it comes from. -/
  fits : s.enc.busy = true →
    s.enc.plen.toNat ≤ (match s.enc.src with | .host => s.params.txCap | .ctrl => s.ctrl.len.toNat)
  /-- R7, R183: it is masked exactly in the `CLIENT` role. -/
  masks : s.enc.busy = true → s.enc.masked = s.cfg.role.bit

/-- What every step's own writes keep, before `settle` runs. -/
structure PreInv (s : State) : Prop where
  params : s.params.wf = true
  buffers : BuffersOk s
  conn : ConnOk s
  parser : ParserOk s
  tx : TxOk s

/-- The invariant of the machine between steps: `PreInv`, and the closing handshake is not complete, for `settle` would
have closed the connection (R231). -/
structure Inv (s : State) : Prop where
  pre : PreInv s
  settled : (echoDone s || bothClosesDone s) = false

end Sys2Proof.Machine
end

