-- ==== Sys2Proof/Certificates/Slice0/Obligations.lean ====
section
/-! DEFINITION. The statements for the provers. Each docstring names the rules of spec/ it rests on. -/
open Sys2Proof Sys2Proof.Machine

/-! ## Encoding -/

/-- A few header words and `CMD` words, written out from R86, R91 and R98, decode to the instruction they stand for. -/
def Obligations.KnownWordsDecode : Prop :=
  decodeTableWord 16 0x8185 = some (.text true 0 true 5) ∧
  decodeTableWord 16 0x0003 = some (.cont false 0 false 3) ∧
  decodeTableWord 16 0xF27F = some (.binary true 7 false 127) ∧
  decodeTableWord 16 0x88FE = some (.close true 0 true 126) ∧
  decodeTableWord 16 0x8B00 = some (.rsvdB true 0 false 0) ∧
  decodeTableWord 32 0x00000011 = some (.hsDone 1) ∧
  decodeTableWord 32 0xFFFFFFFC = some (.cmdRsvd8F 0xFFFFFFF 12) ∧
  decodeTableWord 8 0x81 = none

/-- Decoding the encoding of a well-formed instruction gives it back, whatever its operands (R86, R91, R98). -/
def Obligations.DecodeOfEncodeIsTheInstruction : Prop :=
  ∀ i : Instr, i.wf = true → decode (encode i) = i

/-- Every header word and every `CMD` word has exactly one reading: what it decodes to is well formed and encodes to it
again (R91, R98, R99). -/
def Obligations.EncodeOfDecodeIsTheCode : Prop :=
  ∀ c : Code, (decode c).wf = true ∧ encode (decode c) = c

/-- R97: the base length and extended bytes `enc_len(n)` picks, by the three regimes of `n`; and they are read back as
`n` under R89. -/
def Obligations.EncLenIsShortestAndReadsBack : Prop :=
  ∀ n : Word64,
    (n.toNat < 126 → (encLen n).1.toNat = n.toNat ∧ (encLen n).2 = []) ∧
    (126 ≤ n.toNat → n.toNat ≤ 65535 →
      (encLen n).1 = 126#7 ∧
      (encLen n).2 = [BitVec.ofNat 8 (n.toNat / 256), BitVec.ofNat 8 n.toNat]) ∧
    (65535 < n.toNat →
      (encLen n).1 = 127#7 ∧
      (encLen n).2 = (List.range 8).map (fun j => BitVec.ofNat 8 (n.toNat / 256 ^ (7 - j)))) ∧
    (encLen n).2.length = extNeed (encLen n).1 ∧
    frameLen (encLen n).1 (encLen n).2 = n

/-- R121: `mask_k(p)[i] = p[i] XOR k[i mod 4]`, masking twice gives the payload back, and the byte function that RX and TX
share is this one. -/
def Obligations.MaskingTwiceGivesThePayloadBack : Prop :=
  ∀ (k : Key) (p : List Byte),
    maskFrom k 0 (maskFrom k 0 p) = p ∧
    (∀ i, (maskFrom k 0 p)[i]? = p[i]?.map (fun b => maskByte true k i b)) ∧
    (∀ i b, some (maskByte true k i b) = k.bytes[i % 4]?.map (fun c => b ^^^ c)) ∧
    (∀ i b, maskByte false k i b = b)

/-- R146: `utf8_valid(s)` is true exactly when `s` is a concatenation of sequences that fit rows of the table. -/
def Obligations.Utf8ValidIsConcatenationOfRows : Prop :=
  ∀ s : List Byte,
    utf8Valid s = true ↔
      ∃ qs : List (List Byte), (∀ q ∈ qs, ∃ row ∈ utf8Rows, fitsRow row q = true) ∧ s = qs.flatten

/-! ## The step -/

/-- An accepted RX byte runs the frame it belongs to: the one that the header bytes received so far decode to, with the
byte itself in its place and zero for a byte 1 that has not come (R20, R113; the zero is the model's choice,
notes/assumptions/1.md). `settle` follows (R231). -/
def Obligations.StepRunsTheFrameOfAnRxByte : Prop :=
  ∀ (s : State) (b b0 b1 : Byte) (rest : List Event) (i : Instr),
    s.env.events = .rxByte b :: rest → rxEnabled s = true →
    (b0 = if s.ph = .hdr0 then b else byte0Of s.f.fin s.f.rsv s.f.op) →
    (b1 = if s.ph = .hdr0 then 0 else if s.ph = .hdr1 then b else byte1Of s.f.mask s.f.len7) →
    decodeBytes [b0, b1] = .ok (i, []) →
    step s = settleOut (exec i { s with env := { s.env with events := rest, rxData := b } })

/-- Every host access the next event makes is run, from the state with that event taken off, and `settle` follows: a read
or write of a register or a buffer (R12, R62 to R65, R231). A write to `CMD` runs the command its word decodes to (R42, R63,
R210). -/
def Obligations.StepRunsTheCommandOfACmdWrite : Prop :=
  (∀ (s : State) (a : HostAccess) (rest : List Event), s.env.events = .host a :: rest →
    step s = settleOut (hostAccess a { s with env := { s.env with events := rest } })) ∧
  ∀ (s : State) (w : Word32) (rest : List Event) (i : Instr),
    s.env.events = .host (.csrWrite 32 0x008 w) :: rest → decode (.command w) = i →
    step s = settleOut (exec i { s with env := { s.env with events := rest } })

/-- An instruction placed by `withFetchWord` is the one the very next step runs (the placing is the model's,
notes/assumptions/5.md). -/
def Obligations.PlacedInstructionRunsNext : Prop :=
  ∀ (s : State) (w : Nat) (i : Instr),
    (decodeTableWord 32 w = some i → step (s.withFetchWord 32 w) = settleOut (exec i s)) ∧
    (decodeTableWord 16 w = some i →
      ∃ t, step (s.withFetchWord 16 w) = settleOut (exec i t) ∧ t.ph = .hdr0 ∧ rxEnabled t = true ∧
        (t.cs = .opened ∨ t.cs = .closingSent) ∧ t.ra = s.ra ∧ t.cfg = s.cfg ∧ t.msgbuf = s.msgbuf ∧
        t.env.rxData = BitVec.ofNat 8 (w / 256) ∧
        t.env.events = .rxByte (BitVec.ofNat 8 w) ::
          (zeroTail (maskOf (BitVec.ofNat 8 w)) (len7Of (BitVec.ofNat 8 w))).map .rxByte ++ s.env.events)

/-- An event whose guard is false holds (R14, R112, R266): a step passes it over, keeps it in its place, and takes the first
event whose guard holds as if that one came first; when every event holds nothing changes. So a hold lasts until another
event makes the guard true. The guards: `rx_enabled` (R112), that of `TxStart` (R181), `enc_busy = 1` (R185, R226); a host
access and a reset are never held. A frame run with `rx_enabled` false changes nothing at all. That the earliest of the
events that can be taken goes first is the model's choice (notes/assumptions/6.md). -/
def Obligations.GuardFalseHolds : Prop :=
  (∀ (s : State) (i : Instr), rxEnabled s = false → frameOpcode i ≠ none → exec i s = .next s) ∧
  ∀ s : State,
    let holds : Event → Prop := fun e =>
      (((∃ b, e = .rxByte b) ∨ e = .rxEnd) ∧ (s.ph = .stop ∨
        (s.ph = .hdr0 ∧ (s.msg.valid = true ∨ s.crPend ≠ .none ∨ (s.enc.busy = true ∧ s.enc.src = .ctrl))))) ∨
      (∃ k, e = .txStart k ∧ (s.enc.busy = true ∨ s.cs = .handshaking ∨ s.cs = .closed ∨
        (s.crPend = .none ∧ (s.ht.pend = false ∨ s.cs = .closingReceived)) ∨ (s.cfg.role = .client ∧ k = none))) ∨
      ((e = .txByte ∨ e = .txError) ∧ s.enc.busy = false)
    ((∀ e ∈ s.env.events, holds e) → step s = .next s) ∧
    (∀ (pre post : List Event) (e : Event), s.env.events = pre ++ e :: post → (∀ x ∈ pre, holds x) → ¬ holds e →
      Takes s e (pre ++ post) ∧
      step s = step { s with env := { s.env with events := e :: (pre ++ post) } })

/-! ## Byte 0 -/

/-- Byte 0 of a frame that passes checks (a) and (b): the header registers hold it, the others are zeroed, and the parser
goes to `HDR1` (R113, R114). -/
def Obligations.Byte0OfALegalFrame : Prop :=
  ∀ (s : State) (fin : Bool) (rsv : BitVec 3) (mask : Bool) (len7 : BitVec 7),
    rxEnabled s = true → s.ph = .hdr0 →
    let t : Opcode → State := fun op => { s with
      rxCount := s.rxCount + 1, ph := .hdr1, cnt := 0
      f := { fin := fin, rsv := rsv, op := op, mask := false, len7 := 0, len := 0, key := ⟨0, 0, 0, 0⟩, idx := 0 } }
    (s.ra.active = true → exec (.cont fin rsv mask len7) s = .next (t 0x0)) ∧
    (s.ra.active = false → exec (.text fin rsv mask len7) s = .next (t 0x1)) ∧
    (s.ra.active = false → exec (.binary fin rsv mask len7) s = .next (t 0x2)) ∧
    exec (.close fin rsv mask len7) s = .next (t 0x8) ∧
    exec (.ping fin rsv mask len7) s = .next (t 0x9) ∧
    exec (.pong fin rsv mask len7) s = .next (t 0xA)

/-- Check (b): a `CONT` with no message in progress and a `TEXT` or `BINARY` during one are faults at byte 0 (R114, R141). -/
def Obligations.Byte0AgainstTheSequenceFaults : Prop :=
  ∀ (s : State) (fin : Bool) (rsv : BitVec 3) (mask : Bool) (len7 : BitVec 7),
    rxEnabled s = true → s.ph = .hdr0 →
    let u : Opcode → State := fun op => { s with
      rxCount := s.rxCount + 1, cnt := 0
      f := { fin := fin, rsv := rsv, op := op, mask := false, len7 := 0, len := 0, key := ⟨0, 0, 0, 0⟩, idx := 0 } }
    (s.ra.active = false → exec (.cont fin rsv mask len7) s = .next (raise .pvContNoStart .hdr0 true (u 0x0))) ∧
    (s.ra.active = true → exec (.text fin rsv mask len7) s = .next (raise .pvStartInMsg .hdr0 true (u 0x1))) ∧
    (s.ra.active = true → exec (.binary fin rsv mask len7) s = .next (raise .pvStartInMsg .hdr0 true (u 0x2)))

/-- R166: each reserved opcode raises `PV_BAD_OPCODE` at byte 0, whatever the reassembly state; the header registers hold
byte 0 and `ERR_INFO` shows it. -/
def Obligations.ReservedOpcodeFaultsAtByte0 : Prop :=
  ∀ (s : State) (fin : Bool) (rsv : BitVec 3) (mask : Bool) (len7 : BitVec 7),
    rxEnabled s = true → s.ph = .hdr0 →
    ∀ p ∈ [(Instr.rsvd3 fin rsv mask len7, 0x3#4), (.rsvd4 fin rsv mask len7, 0x4#4), (.rsvd5 fin rsv mask len7, 0x5#4),
        (.rsvd6 fin rsv mask len7, 0x6#4), (.rsvd7 fin rsv mask len7, 0x7#4), (.rsvdB fin rsv mask len7, 0xB#4),
        (.rsvdC fin rsv mask len7, 0xC#4), (.rsvdD fin rsv mask len7, 0xD#4), (.rsvdE fin rsv mask len7, 0xE#4),
        (.rsvdF fin rsv mask len7, 0xF#4)],
      ∃ t, exec p.1 s = .next t ∧
        t = raise .pvBadOpcode .hdr0 true { s with
          rxCount := s.rxCount + 1, cnt := 0
          f := { fin := fin, rsv := rsv, op := p.2, mask := false, len7 := 0, len := 0, key := ⟨0, 0, 0, 0⟩, idx := 0 } } ∧
        t.fault = true ∧ t.err.code = 0x10#8 ∧ t.cs = .closed ∧ t.ph = .stop ∧ t.endCause = .fault ∧
        t.f.fin = fin ∧ t.f.rsv = rsv ∧ t.f.op = p.2 ∧ t.rxCount = s.rxCount + 1 ∧
        t.errInfo.toNat = 2 ^ 19 + fin.toNat * 128 + rsv.toNat * 16 + p.2.toNat

/-! ## Byte 1, the length, the key -/

/-- R94: a frame whose MASK is not the one the role requires raises `PV_MASK_POLICY` at byte 1, whatever its length and
opcode; the fault is the one of R245 on the state with byte 1 stored. -/
def Obligations.WrongMaskFaultsAtByte1 : Prop :=
  ∀ (s : State) (fin : Bool) (rsv : BitVec 3) (mask : Bool) (len7 : BitVec 7),
    s.ph = .hdr1 → (mask = true ↔ s.cfg.role = .client) →
    ∀ i ∈ [Instr.cont fin rsv mask len7, .text fin rsv mask len7, .binary fin rsv mask len7, .close fin rsv mask len7,
        .ping fin rsv mask len7, .pong fin rsv mask len7],
      ∃ t, exec i s = .next t ∧
        t = raise .pvMaskPolicy .hdr1 true
          { s with rxCount := s.rxCount + 1, f := { s.f with mask := mask, len7 := len7 } } ∧
        t.fault = true ∧ t.err.code = 0x14#8 ∧ t.cs = .closed ∧ t.ph = .stop ∧
        t.errInfo.toNat = 2 ^ 20 + 2 ^ 19 + 2 ^ 16 + (mask.toNat * 128 + len7.toNat) * 256 +
          (s.f.fin.toNat * 128 + s.f.rsv.toNat * 16 + s.f.op.toNat)

/-- Byte 1 with the required MASK (R111 `HDR1`, R113): a base length of 126 or 127 goes to `EXT`; a shorter one is the
length, and once within capacity goes to `KEY` when masked and to `PAY` when not and not 0. -/
def Obligations.Byte1OfALegalFrame : Prop :=
  ∀ (s : State) (fin : Bool) (rsv : BitVec 3) (mask : Bool) (len7 : BitVec 7),
    s.ph = .hdr1 → (mask = true ↔ s.cfg.role = .server) →
    let f1 : FrameHdr := { s.f with mask := mask, len7 := len7 }
    let f2 : FrameHdr := { s.f with mask := mask, len7 := len7, len := len7.setWidth 64 }
    ∀ p ∈ [(Instr.cont fin rsv mask len7, 0x0#4), (.text fin rsv mask len7, 0x1#4), (.binary fin rsv mask len7, 0x2#4),
        (.close fin rsv mask len7, 0x8#4), (.ping fin rsv mask len7, 0x9#4), (.pong fin rsv mask len7, 0xA#4)],
      (126 ≤ len7.toNat →
        exec p.1 s = .next { s with rxCount := s.rxCount + 1, f := f1, ph := .ext, cnt := 0 }) ∧
      (len7.toNat ≤ 125 → capacityCheck p.2 { s with f := f2 } = none → mask = true →
        exec p.1 s = .next { s with rxCount := s.rxCount + 1, f := f2, ph := .key, cnt := 0 }) ∧
      (len7.toNat ≤ 125 → capacityCheck p.2 { s with f := f2 } = none → mask = false → len7 ≠ 0 →
        exec p.1 s = .next { s with rxCount := s.rxCount + 1, f := f2, ph := .pay })

/-- R114 (d): the sum is unbounded, a `PONG` is never checked, and the codes are `RESOURCE_MSG` and `RESOURCE_CTRL`. -/
def Obligations.CapacityCheckByDestination : Prop :=
  ∀ (s : State) (op : Opcode) (limit : Nat),
    (s.params.msgCap = some limit ∨ (s.params.msgCap = none ∧ limit = 2 ^ 64 - 1)) →
    (op = 0x0 ∨ op = 0x1 ∨ op = 0x2 →
      (capacityCheck op s = some .resourceMsg ↔ limit < s.ra.len.toNat + s.f.len.toNat) ∧
      (capacityCheck op s = none ↔ s.ra.len.toNat + s.f.len.toNat ≤ limit)) ∧
    (op = 0x8 ∨ op = 0x9 →
      (capacityCheck op s = some .resourceCtrl ↔ s.params.ctrlCap < s.f.len.toNat) ∧
      (capacityCheck op s = none ↔ s.f.len.toNat ≤ s.params.ctrlCap)) ∧
    (op = 0xA → capacityCheck op s = none)

/-- R115: the capacity check is made at the byte that makes the length known, before any key or payload byte: at byte 1 for
a base length up to 125, at the last extended length byte else. A failing check is a fault at that byte. -/
def Obligations.CapacityFaultsWhenTheLengthIsKnown : Prop :=
  ∀ (s : State) (fin : Bool) (rsv : BitVec 3) (mask : Bool) (len7 : BitVec 7) (e : ErrCode),
    ∀ p ∈ [(Instr.cont fin rsv mask len7, 0x0#4), (.text fin rsv mask len7, 0x1#4), (.binary fin rsv mask len7, 0x2#4),
        (.close fin rsv mask len7, 0x8#4), (.ping fin rsv mask len7, 0x9#4), (.pong fin rsv mask len7, 0xA#4)],
      (s.ph = .hdr1 → (mask = true ↔ s.cfg.role = .server) → len7.toNat ≤ 125 →
        let u := { s with rxCount := s.rxCount + 1, f := { s.f with mask := mask, len7 := len7, len := len7.setWidth 64 } }
        capacityCheck p.2 u = some e → exec p.1 s = .next (raise e .hdr1 true u)) ∧
      (s.ph = .ext → s.cnt.toNat + 1 = extNeed s.f.len7 →
        let u := { s with
          rxCount := s.rxCount + 1, cnt := s.cnt + 1, f := { s.f with len := pushLenByte s.f.len s.env.rxData } }
        capacityCheck p.2 u = some e → exec p.1 s = .next (raise e .ext true u))

/-- R66, R113 `EXT`: an extended length byte enters the length register as its least significant byte, so the first one is
the most significant; the last one, within capacity, goes to `KEY` when masked and to `PAY` when not and not 0. -/
def Obligations.ExtendedLengthIsBigEndian : Prop :=
  ∀ (s : State) (fin : Bool) (rsv : BitVec 3) (mask : Bool) (len7 : BitVec 7), s.ph = .ext →
    let f : FrameHdr := { s.f with len := BitVec.ofNat 64 (s.f.len.toNat * 256 + s.env.rxData.toNat) }
    ∀ p ∈ [(Instr.cont fin rsv mask len7, 0x0#4), (.text fin rsv mask len7, 0x1#4), (.binary fin rsv mask len7, 0x2#4),
        (.close fin rsv mask len7, 0x8#4), (.ping fin rsv mask len7, 0x9#4), (.pong fin rsv mask len7, 0xA#4)],
      (s.cnt.toNat + 1 ≠ extNeed s.f.len7 →
        exec p.1 s = .next { s with rxCount := s.rxCount + 1, f := f, cnt := s.cnt + 1 }) ∧
      (s.cnt.toNat + 1 = extNeed s.f.len7 → capacityCheck p.2 { s with f := f } = none → s.f.mask = true →
        exec p.1 s = .next { s with rxCount := s.rxCount + 1, f := f, ph := .key, cnt := 0 }) ∧
      (s.cnt.toNat + 1 = extNeed s.f.len7 → capacityCheck p.2 { s with f := f } = none → s.f.mask = false → f.len ≠ 0 →
        exec p.1 s = .next { s with rxCount := s.rxCount + 1, f := f, ph := .pay, cnt := s.cnt + 1 })

/-- R67, R113 `KEY`: key byte `cnt` is stored in its place and the others are kept; after the fourth the parser goes to
`PAY` when the length is not 0. -/
def Obligations.KeyBytesAreKeptInWireOrder : Prop :=
  ∀ (s : State) (fin : Bool) (rsv : BitVec 3) (mask : Bool) (len7 : BitVec 7), s.ph = .key → s.cnt.toNat < 4 →
    ∀ i ∈ [Instr.cont fin rsv mask len7, .text fin rsv mask len7, .binary fin rsv mask len7, .close fin rsv mask len7,
        .ping fin rsv mask len7, .pong fin rsv mask len7],
      (s.cnt.toNat < 3 ∨ s.f.len ≠ 0 →
        ∃ k, k.bytes = s.f.key.bytes.set s.cnt.toNat s.env.rxData ∧
          exec i s = .next { s with
            rxCount := s.rxCount + 1, f := { s.f with key := k }, cnt := s.cnt + 1
            ph := if s.cnt.toNat = 3 then .pay else .key })

/-! ## The payload -/

/-- R113 `PAY`, R116, R117: a payload byte that is not the frame's last is unmasked with `f_key[f_idx mod 4]` and stored:
a data frame's at `msgbuf[ra_len + f_idx]`, a `PING`'s or `CLOSE`'s at `ctrlbuf[f_idx]`, a `PONG`'s nowhere. -/
def Obligations.PayloadByteIsUnmaskedAndStored : Prop :=
  ∀ (s : State) (fin : Bool) (rsv : BitVec 3) (mask : Bool) (len7 : BitVec 7),
    s.ph = .pay → s.f.idx + 1 ≠ s.f.len →
    let d : Byte := if s.f.mask then s.env.rxData ^^^ s.f.key.get s.f.idx.toNat else s.env.rxData
    let u : State := { s with rxCount := s.rxCount + 1, f := { s.f with idx := s.f.idx + 1 } }
    (s.params.msgCap = none ∨ (∃ c, s.params.msgCap = some c ∧ s.ra.len.toNat + s.f.idx.toNat < c) →
      ∀ i ∈ [Instr.cont fin rsv mask len7, .text fin rsv mask len7, .binary fin rsv mask len7],
        exec i s = .next { u with msgbuf := s.msgbuf.write (s.ra.len.toNat + s.f.idx.toNat) d }) ∧
    (s.f.idx.toNat < s.params.ctrlCap →
      ∀ i ∈ [Instr.close fin rsv mask len7, .ping fin rsv mask len7],
        exec i s = .next { u with ctrlbuf := s.ctrlbuf.write s.f.idx.toNat d }) ∧
    exec (.pong fin rsv mask len7) s = .next u

/-! ## Frame end -/

/-- R142, R143, R144 with FIN = 0: the message in progress grows by the frame's length, and a first frame records its
opcode. `t` is the state in which the frame-end action starts (R111, R119). -/
def Obligations.UnfinishedDataFrameJoinsTheMessage : Prop :=
  ∀ (s t : State) (fin : Bool) (rsv : BitVec 3) (mask : Bool) (len7 : BitVec 7), s.f.fin = false →
    (frameEndState 0x0 mask len7 s = some t →
      exec (.cont fin rsv mask len7) s = .next { t with ra := { t.ra with len := t.ra.len + t.f.len } }) ∧
    (frameEndState 0x1 mask len7 s = some t →
      exec (.text fin rsv mask len7) s = .next { t with ra := { active := true, op := 0x1, len := t.f.len } }) ∧
    (frameEndState 0x2 mask len7 s = some t →
      exec (.binary fin rsv mask len7) s = .next { t with ra := { active := true, op := 0x2, len := t.f.len } })

/-- R142 to R147 with FIN = 1: the message is delivered with the opcode of its first frame, `MSG` becomes pending and the
reassembler is idle; a `TEXT` message only when its bytes are valid UTF-8. -/
def Obligations.FinishedMessageIsDelivered : Prop :=
  ∀ (s t : State) (fin : Bool) (rsv : BitVec 3) (mask : Bool) (len7 : BitVec 7), s.f.fin = true →
    let done : Opcode → Word64 → State := fun op len => { t with
      msg := { valid := true, op := op, len := len }, irq := { t.irq with pend := t.irq.pend ||| 1 }
      ra := { active := false, op := 0, len := 0 } }
    (frameEndState 0x2 mask len7 s = some t →
      exec (.binary fin rsv mask len7) s = .next (done 0x2 t.f.len)) ∧
    (frameEndState 0x0 mask len7 s = some t → t.ra.op = 0x2 →
      exec (.cont fin rsv mask len7) s = .next (done 0x2 (t.ra.len + t.f.len))) ∧
    (∀ bs, frameEndState 0x1 mask len7 s = some t → t.msgbuf.bytes 0 t.f.len.toNat = some bs → utf8Valid bs = true →
      exec (.text fin rsv mask len7) s = .next (done 0x1 t.f.len)) ∧
    (∀ bs, frameEndState 0x0 mask len7 s = some t → t.ra.op = 0x1 →
      t.msgbuf.bytes 0 (t.ra.len + t.f.len).toNat = some bs → utf8Valid bs = true →
      exec (.cont fin rsv mask len7) s = .next (done 0x1 (t.ra.len + t.f.len)))

/-- R145 (e): a completed `TEXT` message that is not valid UTF-8 raises `PV_BAD_UTF8`; it is not delivered and the
reassembler is idle. -/
def Obligations.BadUtf8IsNotDelivered : Prop :=
  ∀ (s t : State) (bs : List Byte) (fin : Bool) (rsv : BitVec 3) (mask : Bool) (len7 : BitVec 7),
    s.f.fin = true → utf8Valid bs = false →
    (frameEndState 0x1 mask len7 s = some t → t.msgbuf.bytes 0 t.f.len.toNat = some bs →
      ∃ u, exec (.text fin rsv mask len7) s = .next u ∧ u.fault = true ∧ u.err.code = 0x13#8 ∧ u.cs = .closed ∧
        u.msg = s.msg ∧ u.ra = { active := false, op := 0, len := 0 } ∧
        u.errInfo = capture s.ph true t.f) ∧
    (frameEndState 0x0 mask len7 s = some t → t.ra.op = 0x1 → t.msgbuf.bytes 0 (t.ra.len + t.f.len).toNat = some bs →
      ∃ u, exec (.cont fin rsv mask len7) s = .next u ∧ u.fault = true ∧ u.err.code = 0x13#8 ∧ u.cs = .closed ∧
        u.msg = s.msg ∧ u.ra = { active := false, op := 0, len := 0 } ∧
        u.errInfo = capture s.ph true t.f)

/-- R160: a Close that ends records its payload, stops the parser and discards the message in progress; in `OPEN` its echo
is queued and `cs` is `CLOSING_RECEIVED`. FIN and RSV do not matter (R167). -/
def Obligations.CloseReceivedQueuesItsEcho : Prop :=
  ∀ (s t : State) (fin : Bool) (rsv : BitVec 3) (mask : Bool) (len7 : BitVec 7),
    frameEndState 0x8 mask len7 s = some t →
    let u : State := { t with
      ctrl := { op := 0x8, len := t.f.len.setWidth 32 }, closeRx := true, ph := .stop
      ra := { active := false, op := 0, len := 0 } }
    (s.cs = .opened →
      exec (.close fin rsv mask len7) s = .next { u with cs := .closingReceived, crPend := .closeEcho }) ∧
    (s.cs ≠ .opened → exec (.close fin rsv mask len7) s = .next u)

/-- R162: a Ping that ends records its payload; in `OPEN` a Pong is queued, in `CLOSING_SENT` none is. -/
def Obligations.PingReceivedQueuesAPong : Prop :=
  ∀ (s t : State) (fin : Bool) (rsv : BitVec 3) (mask : Bool) (len7 : BitVec 7),
    frameEndState 0x9 mask len7 s = some t → rxEnabled s = true →
    let u : State := { t with ctrl := { op := 0x9, len := t.f.len.setWidth 32 } }
    (s.cs = .opened → exec (.ping fin rsv mask len7) s = .next { u with crPend := .pong }) ∧
    (s.cs ≠ .opened → exec (.ping fin rsv mask len7) s = .next u)

/-- R164: a Pong that ends changes nothing beyond the parser's own registers and `rx_count`. -/
def Obligations.PongReceivedIsDiscarded : Prop :=
  ∀ (s t : State) (fin : Bool) (rsv : BitVec 3) (mask : Bool) (len7 : BitVec 7),
    frameEndState 0xA mask len7 s = some t →
    exec (.pong fin rsv mask len7) s = .next t ∧
      t = { s with rxCount := s.rxCount + 1, f := t.f, cnt := t.cnt, ph := .hdr0 }

/-! ## Frames -/

/-- What an RX byte of a data frame leaves alone. `msgbuf` changes at the one index a payload byte is stored at, and at no
other; the delivered-message registers change only by a delivery; the connection, TX and fault registers only by a fault
(R113, R117, R142 to R147, R245). -/
def Obligations.DataFrameByteFrame : Prop :=
  ∀ (s t : State) (fin : Bool) (rsv : BitVec 3) (mask : Bool) (len7 : BitVec 7),
    ∀ i ∈ [Instr.cont fin rsv mask len7, .text fin rsv mask len7, .binary fin rsv mask len7], exec i s = .next t →
      (t.cfg = s.cfg ∧ t.ctrlbuf = s.ctrlbuf ∧ t.ctrl = s.ctrl ∧ t.closeRx = s.closeRx ∧ t.txbuf = s.txbuf ∧
        t.cmdRej = s.cmdRej ∧ t.irq.en = s.irq.en ∧ t.txCount = s.txCount ∧ t.txCtrl = s.txCtrl ∧ t.txLen = s.txLen ∧
        t.params = s.params ∧ t.env = s.env ∧
        t.ht = { s.ht with pend := t.ht.pend } ∧ t.enc = { s.enc with busy := t.enc.busy }) ∧
      (∀ a, ¬ (s.ph = .pay ∧ a = s.ra.len.toNat + s.f.idx.toNat) → t.msgbuf.read a = s.msgbuf.read a) ∧
      ((t.fault = true ∧ t.cs = .closed ∧ t.endCause = .fault ∧ t.msg = s.msg ∧ t.irq.pend = s.irq.pend ||| 0xC) ∨
        (t.cs = s.cs ∧ t.fault = s.fault ∧ t.err = s.err ∧ t.errInfo = s.errInfo ∧ t.endCause = s.endCause ∧
          t.crPend = s.crPend ∧ t.ht = s.ht ∧ t.enc = s.enc ∧
          ((t.msg = s.msg ∧ t.irq.pend = s.irq.pend) ∨
            (t.msg.valid = true ∧ t.irq.pend = s.irq.pend ||| 1 ∧ t.ra = { active := false, op := 0, len := 0 }))))

/-- What an RX byte of a control frame leaves alone: the message buffer, the delivered message, and, unless the frame is a
Close or a check fails, the reassembly registers (R148). `ctrlbuf` changes at the one index a payload byte of a Ping or a
Close is stored at, and a Pong stores nothing (R117). -/
def Obligations.ControlFrameByteFrame : Prop :=
  ∀ (s t : State) (fin : Bool) (rsv : BitVec 3) (mask : Bool) (len7 : BitVec 7),
    ∀ i ∈ [Instr.close fin rsv mask len7, .ping fin rsv mask len7, .pong fin rsv mask len7], exec i s = .next t →
      (t.cfg = s.cfg ∧ t.msgbuf = s.msgbuf ∧ t.msg = s.msg ∧ t.txbuf = s.txbuf ∧
        t.cmdRej = s.cmdRej ∧ t.irq.en = s.irq.en ∧ t.txCount = s.txCount ∧ t.txCtrl = s.txCtrl ∧ t.txLen = s.txLen ∧
        t.params = s.params ∧ t.env = s.env ∧
        t.ht = { s.ht with pend := t.ht.pend } ∧ t.enc = { s.enc with busy := t.enc.busy }) ∧
      (∀ a, ¬ (s.ph = .pay ∧ a = s.f.idx.toNat ∧ i ≠ .pong fin rsv mask len7) →
        t.ctrlbuf.read a = s.ctrlbuf.read a) ∧
      ((t.fault = true ∧ t.cs = .closed ∧ t.endCause = .fault ∧ t.closeRx = s.closeRx ∧ t.ctrl = s.ctrl ∧
          t.irq.pend = s.irq.pend ||| 0xC) ∨
        (t.fault = s.fault ∧ t.err = s.err ∧ t.errInfo = s.errInfo ∧ t.endCause = s.endCause ∧ t.ht = s.ht ∧
          t.enc = s.enc ∧ t.irq = s.irq ∧
          (i = .close fin rsv mask len7 ∨ (t.ra = s.ra ∧ t.cs = s.cs ∧ t.closeRx = s.closeRx)) ∧
          (i = .pong fin rsv mask len7 → t.ctrl = s.ctrl ∧ t.crPend = s.crPend)))

/-! ## The fault action and the ends -/

/-- R245: what the fault action writes and what it keeps; `settle` changes nothing after it. -/
def Obligations.FaultActionWritesAndKeeps : Prop :=
  ∀ (code : ErrCode) (p : Phase) (consumed : Bool) (s : State),
    let t := raise code p consumed s
    (t.fault = true ∧ t.err = code ∧ t.errInfo = capture p consumed s.f ∧ t.cs = .closed ∧ t.endCause = .fault ∧
      t.ph = .stop ∧ t.ra = { active := false, op := 0, len := 0 } ∧ t.crPend = .none ∧ t.ht.pend = false ∧
      t.enc.busy = false ∧ t.irq.pend = s.irq.pend ||| 0b1100 ∧ settle t = t ∧ termOut t = true) ∧
    (t.msg = s.msg ∧ t.msgbuf = s.msgbuf ∧ t.ctrl = s.ctrl ∧ t.ctrlbuf = s.ctrlbuf ∧ t.f = s.f ∧
      t.rxCount = s.rxCount ∧ t.txCount = s.txCount ∧ t.cfg = s.cfg ∧ t.txCtrl = s.txCtrl ∧ t.txLen = s.txLen ∧
      t.txbuf = s.txbuf ∧ t.irq.en = s.irq.en ∧ t.cmdRej = s.cmdRej ∧ t.closeRx = s.closeRx ∧
      t.params = s.params ∧ t.env = s.env)

/-- R246: the 21-bit capture, as the number its fields give. -/
def Obligations.CaptureShowsTheHeaderSeenSoFar : Prop :=
  ∀ (p : Phase) (consumed : Bool) (f : FrameHdr),
    let b0 : Bool := decide ((consumed = true ∧ p = .hdr0) ∨ p = .hdr1 ∨ p = .ext ∨ p = .key ∨ p = .pay)
    let b1 : Bool := decide ((consumed = true ∧ p = .hdr1) ∨ p = .ext ∨ p = .key ∨ p = .pay)
    (capture p consumed f).toNat =
      b1.toNat * 2 ^ 20 + b0.toNat * 2 ^ 19 + p.code.toNat * 2 ^ 16 +
        (if b1 then f.mask.toNat * 128 + f.len7.toNat else 0) * 256 +
        (if b0 then f.fin.toNat * 128 + f.rsv.toNat * 16 + f.op.toNat else 0)

/-- R231, R232: `settle` closes the connection with cause `CLOSE` exactly when the closing handshake is complete, and
`close_done` writes just these fields. -/
def Obligations.SettleClosesACompleteHandshake : Prop :=
  ∀ s : State,
    let done := (s.cs = .closingReceived ∧ s.crPend = .none ∧ s.enc.busy = false) ∨
      (s.cs = .closingSent ∧ s.closeRx = true ∧ s.ht.pend = false ∧ s.crPend = .none ∧ s.enc.busy = false)
    (done → settle s = { s with
      cs := .closed, endCause := .close, ph := .stop, ra := { active := false, op := 0, len := 0 }, crPend := .none
      ht := { s.ht with pend := false }, enc := { s.enc with busy := false }
      irq := { s.irq with pend := s.irq.pend ||| 0b0100 } }) ∧
    (¬ done → settle s = s)

/-! ## Commands -/

/-- R211, R219, R220: `NOP` changes nothing, `CLR_REJ` clears `cmd_rej`, a reserved code sets it; nothing else changes. -/
def Obligations.NopClrRejAndReservedCodes : Prop :=
  ∀ (s : State) (ign : BitVec 28) (code : BitVec 4),
    exec (.nop ign) s = .next s ∧
    exec (.clrRej ign) s = .next { s with cmdRej := false } ∧
    exec (.cmdRsvd8F ign code) s = .next { s with cmdRej := true }

/-- R213: `HS_DONE` opens the connection from `HANDSHAKING`, else it is rejected. -/
def Obligations.HsDoneOpensTheConnection : Prop :=
  ∀ (s : State) (ign : BitVec 28),
    (s.cs = .handshaking → exec (.hsDone ign) s = .next { s with cs := .opened, ph := .hdr0, cnt := 0 }) ∧
    (s.cs ≠ .handshaking → exec (.hsDone ign) s = .next { s with cmdRej := true })

/-- R214: `HS_FAIL` raises the `HANDSHAKE` fault from `HANDSHAKING`, else it is rejected. -/
def Obligations.HsFailRaisesTheHandshakeFault : Prop :=
  ∀ (s : State) (ign : BitVec 28),
    (s.cs = .handshaking → ∃ t, exec (.hsFail ign) s = .next t ∧ t = raise .handshake s.ph false s ∧
      t.err.code = 0x30#8 ∧ t.fault = true ∧ t.cs = .closed ∧ t.endCause = .fault) ∧
    (s.cs ≠ .handshaking → exec (.hsFail ign) s = .next { s with cmdRej := true })

/-- R215: `MSG_ACK` releases a delivered message and keeps its opcode and length; without one it is rejected. -/
def Obligations.MsgAckReleasesTheMessage : Prop :=
  ∀ (s : State) (ign : BitVec 28),
    (s.msg.valid = true → exec (.msgAck ign) s = .next { s with msg := { s.msg with valid := false } }) ∧
    (s.msg.valid = false → exec (.msgAck ign) s = .next { s with cmdRej := true })

/-- R216: `TX_DATA` latches FIN, opcode and length when legal; else it is rejected and nothing else changes. -/
def Obligations.TxDataLatchesTheFrame : Prop :=
  ∀ (s : State) (ign : BitVec 28),
    let legal := s.cs = .opened ∧ ¬ (s.ht.pend = true ∨ (s.enc.busy = true ∧ s.enc.src = .host)) ∧
      (s.txCtrl.op = 0x0 ∨ s.txCtrl.op = 0x1 ∨ s.txCtrl.op = 0x2) ∧ s.txLen.toNat ≤ s.params.txCap
    (legal → exec (.txData ign) s =
      .next { s with ht := { pend := true, fin := s.txCtrl.fin, op := s.txCtrl.op, len := s.txLen } }) ∧
    (¬ legal → exec (.txData ign) s = .next { s with cmdRej := true })

/-- R217: `TX_CLOSE` latches a Close frame and enters `CLOSING_SENT` when legal; else it is rejected. -/
def Obligations.TxCloseStartsTheClosingHandshake : Prop :=
  ∀ (s : State) (ign : BitVec 28),
    let legal := s.cs = .opened ∧ ¬ (s.ht.pend = true ∨ (s.enc.busy = true ∧ s.enc.src = .host)) ∧
      s.txLen.toNat ≤ s.params.txCap
    (legal → exec (.txClose ign) s =
      .next { s with cs := .closingSent, ht := { pend := true, fin := true, op := 0x8, len := s.txLen } }) ∧
    (¬ legal → exec (.txClose ign) s = .next { s with cmdRej := true })

/-- R218, R232: `ABORT` ends any live connection with cause `ABORT` and no fault; in `CLOSED` it is rejected. -/
def Obligations.AbortEndsALiveConnection : Prop :=
  ∀ (s : State) (ign : BitVec 28),
    (s.cs ≠ .closed → exec (.abort ign) s = .next { s with
      cs := .closed, endCause := .abort, ph := .stop, ra := { active := false, op := 0, len := 0 }, crPend := .none
      ht := { s.ht with pend := false }, enc := { s.enc with busy := false }
      irq := { s.irq with pend := s.irq.pend ||| 0b0100 } }) ∧
    (s.cs = .closed → exec (.abort ign) s = .next { s with cmdRej := true })

/-! ## Transport events -/

/-- R225: the end of the RX stream is a clean end between frames and `TRUNCATED` inside one; where `rx_enabled` is false it
is not observed, and holds. -/
def Obligations.RxEndBetweenAndInsideFrames : Prop :=
  ∀ (s : State) (rest : List Event), s.env.events = .rxEnd :: rest →
    let u : State := { s with env := { s.env with events := rest } }
    (rxEnabled s = false → (∀ e t, ¬ Takes s e t) → step s = .next s) ∧
    (rxEnabled s = false → ¬ Takes s .rxEnd rest) ∧
    (rxEnabled s = true → s.ph = .hdr0 → step s = .next (closeDone .eof u)) ∧
    (rxEnabled s = true → s.ph ≠ .hdr0 → step s = .next (raise .truncated s.ph false u))

/-- R226: a failed write while a frame is emitted is the fault `IO_ERROR`; the frame is abandoned and nothing is sent. With
no frame in emission there is no such step, and the event holds. -/
def Obligations.TxErrorIsAFault : Prop :=
  ∀ (s : State) (rest : List Event), s.env.events = .txError :: rest →
    let u : State := { s with env := { s.env with events := rest } }
    (s.enc.busy = false → (∀ e t, ¬ Takes s e t) → step s = .next s) ∧
    (s.enc.busy = false → ¬ Takes s .txError rest) ∧
    (s.enc.busy = true → ∃ t, step s = .next t ∧ t = raise .ioError s.ph false u ∧
      t.err.code = 0x20#8 ∧ t.enc.busy = false ∧ t.env.txStream = s.env.txStream)

/-! ## The TX framer -/

/-- R180, R181: a frame starts with a control response first, a host frame else; the header, key and registers are those of
R181, masked in the `CLIENT` role with the key drawn and unmasked in the `SERVER` role. -/
def Obligations.TxStartBuildsTheFrame : Prop :=
  ∀ (s : State) (k : Option Word32) (rest : List Event), s.env.events = .txStart k :: rest →
    s.enc.busy = false → (s.cs = .opened ∨ s.cs = .closingSent ∨ s.cs = .closingReceived) →
    (s.crPend ≠ .none ∨ (s.ht.pend = true ∧ s.cs ≠ .closingReceived)) → (s.cfg.role = .client → k ≠ none) →
    ∃ t, step s = .next (settle t) ∧
      t = { s with env := { s.env with events := rest }, enc := t.enc, crPend := .none
                   ht := { s.ht with pend := if s.crPend = .none then false else s.ht.pend } } ∧
      t.enc.busy = true ∧ t.enc.pos = 0 ∧ t.enc.masked = decide (s.cfg.role = .client) ∧
      (s.cfg.role = .server → t.enc.key = ⟨0, 0, 0, 0⟩) ∧
      (∀ w, s.cfg.role = .client → k = some w → t.enc.key.bytes =
        [w.extractLsb' 24 8, w.extractLsb' 16 8, w.extractLsb' 8 8, w.extractLsb' 0 8]) ∧
      (s.crPend = .pong → t.enc.src = .ctrl ∧ t.enc.plen.toNat = s.ctrl.len.toNat ∧
        t.enc.hdr.head? = some 0x8A#8) ∧
      (s.crPend = .closeEcho → t.enc.src = .ctrl ∧ t.enc.hdr.head? = some 0x88#8 ∧
        t.enc.plen.toNat = if s.cfg.closeEcho = .verbatim then s.ctrl.len.toNat else 0) ∧
      (s.crPend = .none → t.enc.src = .host ∧ t.enc.plen = s.ht.len ∧
        t.enc.hdr.head? = some (BitVec.ofNat 8 (s.ht.fin.toNat * 128 + s.ht.op.toNat))) ∧
      t.enc.hdr.tail = BitVec.ofNat 8 (t.enc.masked.toNat * 128 + (encLen t.enc.plen).1.toNat) ::
        (encLen t.enc.plen).2 ++ (if t.enc.masked then t.enc.key.bytes else [])

/-- R185: the byte emitted is the header byte at the position, or the payload byte read now from the frame's buffer and
masked; `tx_count` and the position move on; the last byte frees the framer and, for a host frame, sets `TXDONE`. -/
def Obligations.TxByteEmitsTheNextByte : Prop :=
  ∀ (s : State) (rest : List Event), s.env.events = .txByte :: rest → s.enc.busy = true →
    let n := s.enc.hdr.length
    let j := s.enc.pos.toNat
    let last := decide (j + 1 = n + s.enc.plen.toNat)
    let sent : Byte → State := fun out => { s with
      env := { s.env with events := rest, txStream := s.env.txStream ++ [out] }
      txCount := s.txCount + 1
      enc := { s.enc with pos := s.enc.pos + 1, busy := !last }
      irq := { s.irq with pend := if last ∧ s.enc.src = .host then s.irq.pend ||| 0b0010 else s.irq.pend } }
    (∀ out, s.enc.hdr[j]? = some out → step s = .next (settle (sent out))) ∧
    (∀ d, n ≤ j → s.enc.src = .host → j - n < s.params.txCap → s.txbuf.read (j - n) = some d →
      step s = .next (settle (sent (if s.enc.masked then d ^^^ s.enc.key.get (j - n) else d)))) ∧
    (∀ d, n ≤ j → s.enc.src = .ctrl → j - n < s.params.ctrlCap → s.ctrlbuf.read (j - n) = some d →
      step s = .next (settle (sent (if s.enc.masked then d ^^^ s.enc.key.get (j - n) else d)))) ∧
    (n ≤ j → s.enc.src = .host → j - n < s.params.txCap → s.txbuf.read (j - n) = none →
      ∃ (d : Byte) (k : Nat),
        let t := sent (if s.enc.masked then d ^^^ s.enc.key.get (j - n) else d)
        step s = .next (settle { t with env := { t.env with draws := k } }))

/-! ## Registers -/

/-- R59, R270, R271: what the registers hold and read after a `Reset` in any state; the transport and the host port are not
touched. -/
def Obligations.ResetPutsEveryFieldAtItsResetValue : Prop :=
  ∀ (s : State) (rest : List Event), s.env.events = .reset :: rest →
    ∃ t, step s = .next t ∧ t.env = { s.env with events := rest } ∧ t.params = s.params ∧
      t.cs = .handshaking ∧ t.cfg = { role := .server, closeEcho := .verbatim } ∧ t.ph = .stop ∧ t.cnt = 0 ∧
      t.f = { fin := false, rsv := 0, op := 0, mask := false, len7 := 0, len := 0, key := ⟨0, 0, 0, 0⟩, idx := 0 } ∧
      t.ra = { active := false, op := 0, len := 0 } ∧ t.msg = { valid := false, op := 0, len := 0 } ∧
      t.ctrl = { op := 0, len := 0 } ∧ t.crPend = .none ∧ t.closeRx = false ∧
      t.ht = { pend := false, fin := false, op := 0, len := 0 } ∧
      t.enc = { busy := false, src := .host, hdr := [], plen := 0, masked := false, key := ⟨0, 0, 0, 0⟩, pos := 0 } ∧
      t.fault = false ∧ t.err = .none ∧ t.errInfo = 0 ∧ t.endCause = .none ∧ t.cmdRej = false ∧
      t.irq = { en := 0, pend := 0 } ∧ t.rxCount = 0 ∧ t.txCount = 0 ∧ t.txCtrl = { op := 0, fin := false } ∧
      t.txLen = 0 ∧ (∀ b a, (bufOf t b).read a = none) ∧
      csrRead t 0x000 = 0x57530001#32 ∧ csrRead t 0x00C = 0x00005000#32 ∧
      (∀ off, off ≤ 0xFFC → off ≠ 0x000 → off ≠ 0x00C → off ≠ 0x05C → off ≠ 0x060 → off ≠ 0x064 → csrRead t off = 0) ∧
      irqOut t = false ∧ termOut t = false

/-- R62: a word-aligned 32-bit read of `CSR` up to 0xFFC returns the register's value from the state before the step and
changes nothing else; any other `CSR` access is refused (R62, R63). -/
def Obligations.CsrReadsChangeNothing : Prop :=
  ∀ (s : State) (width off : Nat) (w : Word32),
    (width = 32 → off % 4 = 0 → off ≤ 0xFFC →
      hostAccess (.csrRead width off) s = .next { s with env := { s.env with reply := some (.word (csrRead s off)) } }) ∧
    (width ≠ 32 ∨ off % 4 ≠ 0 ∨ 0xFFC < off →
      hostAccess (.csrRead width off) s = .refused .csrAccess ∧
      hostAccess (.csrWrite width off w) s = .refused .csrAccess)

/-- R43: each field of `STATUS` is the view of the state the table gives, a write is ignored, and reset reads 0x5000. The
codes are those of R23 (`cs`), R26 (`ph`) and R253 (`end_cause`). -/
def Obligations.StatusFields : Prop :=
  (ConnState.handshaking.code = 0#3 ∧ ConnState.opened.code = 1#3 ∧ ConnState.closingSent.code = 2#3 ∧
    ConnState.closingReceived.code = 3#3 ∧ ConnState.closed.code = 4#3) ∧
  (Phase.hdr0.code = 0#3 ∧ Phase.hdr1.code = 1#3 ∧ Phase.ext.code = 2#3 ∧ Phase.key.code = 3#3 ∧ Phase.pay.code = 4#3 ∧
    Phase.stop.code = 5#3) ∧
  (EndCause.none.code = 0#4 ∧ EndCause.close.code = 1#4 ∧ EndCause.eof.code = 2#4 ∧ EndCause.fault.code = 3#4 ∧
    EndCause.abort.code = 4#4) ∧
  csrRead State.reset 0x00C = 0x00005000#32 ∧
  ∀ s : State,
    (∀ w, hostAccess (.csrWrite 32 0x00C w) s = .next s) ∧
    let v := csrRead s 0x00C
    v.extractLsb' 0 3 = s.cs.code ∧ v.getLsbD 3 = s.msg.valid ∧
    v.getLsbD 4 = (s.ht.pend || (s.enc.busy && decide (s.enc.src = .host))) ∧ v.getLsbD 5 = s.ra.active ∧
    v.getLsbD 6 = s.fault ∧ v.getLsbD 7 = s.cmdRej ∧ v.extractLsb' 8 4 = s.endCause.code ∧
    v.extractLsb' 12 3 = s.ph.code ∧
    v.getLsbD 15 = (decide (s.crPend ≠ .none) || (s.enc.busy && decide (s.enc.src = .ctrl))) ∧
    v.getLsbD 16 = decide (s.cs = .closed) ∧ v.getLsbD 17 = s.closeRx ∧ v.extractLsb' 18 14 = 0

/-- R40 to R58: what every other register reads, and that a reserved offset reads 0. The error codes are those of R241, and
`CFG` shows 1 for `CLIENT` and for `EMPTY` (R24). -/
def Obligations.RegistersReadTheirFields : Prop :=
  (ErrCode.none.code = 0x00#8 ∧ ErrCode.truncated.code = 0x01#8 ∧ ErrCode.pvBadOpcode.code = 0x10#8 ∧
    ErrCode.pvContNoStart.code = 0x11#8 ∧ ErrCode.pvStartInMsg.code = 0x12#8 ∧ ErrCode.pvBadUtf8.code = 0x13#8 ∧
    ErrCode.pvMaskPolicy.code = 0x14#8 ∧ ErrCode.ioError.code = 0x20#8 ∧ ErrCode.handshake.code = 0x30#8 ∧
    ErrCode.resourceMsg.code = 0x40#8 ∧ ErrCode.resourceCtrl.code = 0x41#8) ∧
  ∀ s : State,
    csrRead s 0x000 = 0x57530001#32 ∧
    (csrRead s 0x004).toNat =
      (if s.cfg.role = .client then 1 else 0) + (if s.cfg.closeEcho = .empty then 2 else 0) ∧
    csrRead s 0x008 = 0 ∧
    (csrRead s 0x010).toNat = s.err.code.toNat ∧ (csrRead s 0x014).toNat = s.errInfo.toNat ∧
    (csrRead s 0x018).toNat = s.msg.op.toNat ∧
    csrRead s 0x020 ++ csrRead s 0x01C = s.msg.len ∧
    (csrRead s 0x024).toNat = s.ra.op.toNat + 16 * s.ra.active.toNat ∧
    csrRead s 0x02C ++ csrRead s 0x028 = s.ra.len ∧
    (csrRead s 0x030).toNat = s.ctrl.op.toNat ∧ csrRead s 0x034 = s.ctrl.len ∧
    (csrRead s 0x038).toNat = s.txCtrl.op.toNat + 128 * s.txCtrl.fin.toNat ∧
    csrRead s 0x040 ++ csrRead s 0x03C = s.txLen ∧
    (csrRead s 0x044).toNat = s.irq.en.toNat ∧ (csrRead s 0x048).toNat = s.irq.pend.toNat ∧
    csrRead s 0x050 ++ csrRead s 0x04C = s.rxCount ∧ csrRead s 0x058 ++ csrRead s 0x054 = s.txCount ∧
    (csrRead s 0x05C).toNat = (match s.params.msgCap with
      | none => 0xFFFFFFFF | some c => if c < 2 ^ 32 - 1 then c else 0xFFFFFFFF) ∧
    (s.params.wf = true → (csrRead s 0x060).toNat = s.params.ctrlCap ∧ (csrRead s 0x064).toNat = s.params.txCap) ∧
    (∀ off, 0x064 < off → csrRead s off = 0)

/-- R41: a `CFG` write sets the role and echo mode in `HANDSHAKING`, and in any other state changes nothing but
`cmd_rej`. -/
def Obligations.CfgWriteIsLockedOutsideHandshaking : Prop :=
  ∀ (s : State) (w : Word32),
    (s.cs = .handshaking → ∃ c, hostAccess (.csrWrite 32 0x004 w) s = .next { s with cfg := c } ∧
      c.role = (if w.getLsbD 0 then .client else .server) ∧
      c.closeEcho = (if w.getLsbD 1 then .empty else .verbatim)) ∧
    (s.cs ≠ .handshaking → hostAccess (.csrWrite 32 0x004 w) s = .next { s with cmdRej := true })

/-- R52 to R55, R39, R58: the effects of a write to `TX_CTRL`, `TX_LEN_LO`, `TX_LEN_HI`, `IRQ_EN` and `IRQ_PEND`, in any
state; a write to a read-only register or a reserved offset is ignored. -/
def Obligations.WritesToTheOtherRegisters : Prop :=
  ∀ (s : State) (w : Word32),
    hostAccess (.csrWrite 32 0x038 w) s =
      .next { s with txCtrl := { op := w.extractLsb' 0 4, fin := w.getLsbD 7 } } ∧
    (∃ l, hostAccess (.csrWrite 32 0x03C w) s = .next { s with txLen := l } ∧
      l.toNat = s.txLen.toNat / 2 ^ 32 * 2 ^ 32 + w.toNat) ∧
    (∃ l, hostAccess (.csrWrite 32 0x040 w) s = .next { s with txLen := l } ∧
      l.toNat = w.toNat * 2 ^ 32 + s.txLen.toNat % 2 ^ 32) ∧
    hostAccess (.csrWrite 32 0x044 w) s = .next { s with irq := { s.irq with en := w.extractLsb' 0 4 } } ∧
    (∃ p, hostAccess (.csrWrite 32 0x048 w) s = .next { s with irq := { s.irq with pend := p } } ∧
      ∀ j < 4, p.getLsbD j = (s.irq.pend.getLsbD j && !w.getLsbD j)) ∧
    (∀ off, off % 4 = 0 → off ≤ 0xFFC → off ∉ [0x004, 0x008, 0x038, 0x03C, 0x040, 0x044, 0x048] →
      hostAccess (.csrWrite 32 off w) s = .next s)

/-- R64: a host read of a buffer byte. Inside its window it returns the byte the buffer holds, and otherwise any value; it
changes no register and no buffer. R65: a host write stores a byte of `TXBUF` and no other, and is ignored by `MSGBUF`
and `CTRLBUF`. Either is refused outside the index range of R60, which the parameters give: `MSGBUF` below `P_MSG_CAP`,
unless `UNBOUNDED`, `CTRLBUF` below `P_CTRL_CAP`, `TXBUF` below `P_TX_CAP`. Where the connection ended inside a control
payload, that `CTRLBUF` reads as R64's pseudocode says, against R284, is the model's choice (notes/assumptions/20.md). -/
def Obligations.BufferAccessesByWindow : Prop :=
  ∀ (s : State) (b : Buf) (width idx : Nat) (v : Byte),
    let inSpace : Prop := (b = .msgbuf ∧ (s.params.msgCap = none ∨ ∃ c, s.params.msgCap = some c ∧ idx < c)) ∨
      (b = .ctrlbuf ∧ idx < s.params.ctrlCap) ∨ (b = .txbuf ∧ idx < s.params.txCap)
    (width ≠ 8 ∨ ¬ inSpace →
      hostAccess (.bufRead b width idx) s = .refused .bufAccess ∧
      hostAccess (.bufWrite b width idx v) s = .refused .bufAccess) ∧
    (width = 8 → inSpace →
      (∃ (d : Byte) (n : Nat), hostAccess (.bufRead b width idx) s =
        .next { s with env := { s.env with reply := some (.byte d), draws := n } }) ∧
      (∀ d, (bufOf s b).read idx = some d →
        (b = .msgbuf → s.msg.valid = true ∧ idx < s.msg.len.toNat) →
        (b = .ctrlbuf → idx < s.ctrl.len.toNat ∧ ¬ (s.ph = .pay ∧ (s.f.op = 0x8 ∨ s.f.op = 0x9))) →
        hostAccess (.bufRead b width idx) s = .next { s with env := { s.env with reply := some (.byte d) } }) ∧
      (b ≠ .txbuf → hostAccess (.bufWrite b width idx v) s = .next s) ∧
      (b = .txbuf → ∃ m, hostAccess (.bufWrite b width idx v) s = .next { s with txbuf := m } ∧
        m.read idx = some v ∧ ∀ a, a ≠ idx → m.read a = s.txbuf.read a))

/-- R37, R252: `irq` is 1 exactly when some interrupt is both pending and enabled. -/
def Obligations.IrqIsPendingAndEnabled : Prop :=
  ∀ s : State, irqOut s = true ↔ ∃ j < 4, s.irq.pend.getLsbD j = true ∧ s.irq.en.getLsbD j = true

/-! ## Invariants and whole-machine rules -/

/-- The reset state meets the invariant. -/
def Obligations.ResetMeetsTheInvariant : Prop := Inv State.reset

/-- Every step keeps the invariant: the buffers stay canonical and in range, the parser runs only in `OPEN` and
`CLOSING_SENT` (R112), the end cause and fault record agree (R253), every length fits its buffer (R117, R123, R184), and
the closing handshake is never left complete (R231). -/
def Obligations.StepKeepsTheInvariant : Prop :=
  ∀ s t : State, Inv s → step s = .next t → Inv t

/-- From a state that meets the invariant no step stops with a fault of the model: every buffer index is in range (R117,
R123) and every byte the UTF-8 check reads has been written (R59). -/
def Obligations.StepNeverStopsWithAFault : Prop :=
  ∀ (s : State) (r : Fault), Inv s → step s ≠ .fault r

/-- A step is refused only for a host access the block gives no meaning (R14). -/
def Obligations.OnlyHostAccessesAreRefused : Prop :=
  ∀ (s : State) (r : Refusal), step s = .refused r →
    ∃ a rest, Takes s (.host a) rest ∧
      ((r = .csrAccess ∧ ∃ width off, (a = .csrRead width off ∨ ∃ w, a = .csrWrite width off w) ∧
          (width ≠ 32 ∨ off % 4 ≠ 0 ∨ 0xFFC < off)) ∨
        (r = .bufAccess ∧ ∃ b width idx, (a = .bufRead b width idx ∨ ∃ v, a = .bufWrite b width idx v) ∧
          (width ≠ 8 ∨ (b = .msgbuf ∧ ∃ c, s.params.msgCap = some c ∧ c ≤ idx) ∨
            (b = .ctrlbuf ∧ s.params.ctrlCap ≤ idx) ∨ (b = .txbuf ∧ s.params.txCap ≤ idx))))

/-- R248, R250: once `CLOSED`, only a reset changes the connection state, the parser, the fault record or the end cause,
and no byte is accepted or sent. -/
def Obligations.ClosedIsLeftOnlyByReset : Prop :=
  ∀ s t : State, Inv s → s.cs = .closed → (∀ rest, ¬ Takes s .reset rest) → step s = .next t →
    t.cs = .closed ∧ t.ph = .stop ∧ t.fault = s.fault ∧ t.err = s.err ∧ t.errInfo = s.errInfo ∧
      t.endCause = s.endCause ∧ t.ra = s.ra ∧ t.enc = s.enc ∧ t.ht = s.ht ∧ t.crPend = s.crPend ∧ t.f = s.f ∧
      t.rxCount = s.rxCount ∧ t.txCount = s.txCount ∧ t.env.txStream = s.env.txStream ∧ t.msgbuf = s.msgbuf ∧
      t.ctrlbuf = s.ctrlbuf

/-- R41, R287: outside `HANDSHAKING` nothing but a reset changes the role or the echo mode; the parameters never change. -/
def Obligations.RoleIsFixedForTheConnection : Prop :=
  ∀ s t : State, step s = .next t →
    t.params = s.params ∧ (s.cs ≠ .handshaking → (∀ rest, ¬ Takes s .reset rest) → t.cfg = s.cfg)

/-- R38: `rx_count` counts the RX bytes the parser accepts and `tx_count` the TX bytes the transport accepts, by 1 a byte
modulo 2^64; the TX stream grows by that byte and by no other step (R61). The event taken leaves the order, and
the others stay. -/
def Obligations.CountersCountAcceptedBytes : Prop :=
  ∀ (s t : State) (e : Event) (rest : List Event), Takes s e rest → e ≠ .reset → step s = .next t →
    t.rxCount = (if ∃ b, e = .rxByte b then s.rxCount + 1 else s.rxCount) ∧
    t.txCount = (if e = .txByte then s.txCount + 1 else s.txCount) ∧
    (if e = .txByte then ∃ b, t.env.txStream = s.env.txStream ++ [b] else t.env.txStream = s.env.txStream) ∧
    ((∃ b, e = .rxByte b) → rxEnabled s = true) ∧ (e = .txByte → s.enc.busy = true) ∧ t.env.events = rest

/-- R31: a delivered message stays, with its bytes, until the host acknowledges it with `MSG_ACK` (or a reset). -/
def Obligations.DeliveredMessageStaysUntilAcknowledged : Prop :=
  ∀ s t : State, Inv s → s.msg.valid = true → (∀ rest, ¬ Takes s .reset rest) →
    (∀ (w : Word32) (rest : List Event), w.extractLsb' 0 4 = 0x3#4 → ¬ Takes s (.host (.csrWrite 32 0x008 w)) rest) →
    step s = .next t →
    t.msg = s.msg ∧ t.msgbuf = s.msgbuf

/-- R184: `ctrlbuf` does not change while a control response is pending or being emitted. -/
def Obligations.CtrlbufIsStableWhileAResponseIsPending : Prop :=
  ∀ s t : State, Inv s → crBusy s = true → (∀ rest, ¬ Takes s .reset rest) → step s = .next t →
    t.ctrlbuf = s.ctrlbuf ∧ t.ctrl = s.ctrl
end

