-- ==== Sys2Proof/Laws/Memory.lean ====
section
/-! SUPPORT. What reading and writing a buffer do: read after write, the canonical form, and which indices are written. -/
namespace Sys2Proof.Machine

@[simp] theorem memory_read_nil (a : Nat) : Memory.read [] a = none := rfl

@[simp] theorem memory_read_cons (k : Nat) (v : Byte) (m : Memory) (a : Nat) :
    Memory.read ((k, v) :: m) a = if k = a then some v else Memory.read m a := rfl

/-- A read after a write to the same index gives the byte written. -/
@[simp] theorem memory_read_write_self (m : Memory) (a : Nat) (b : Byte) : (m.write a b).read a = some b := by
  induction m with
  | nil => simp [Memory.write]
  | cons c m ih =>
    obtain ⟨k, v⟩ := c
    simp only [Memory.write]
    split_ifs with h1 h2
    · simp
    · simp
    · rw [memory_read_cons, if_neg (Ne.symm h2), ih]

/-- A write leaves every other index alone. -/
theorem memory_read_write_other (m : Memory) {a c : Nat} (b : Byte) (h : c ≠ a) :
    (m.write a b).read c = m.read c := by
  induction m with
  | nil => simp [Memory.write, Ne.symm h]
  | cons d m ih =>
    obtain ⟨k, v⟩ := d
    simp only [Memory.write]
    split_ifs with h1 h2
    · simp [Ne.symm h]
    · subst h2; simp [Ne.symm h]
    · simp [ih]

/-- The entries of a memory after a write are the one written and entries it had. -/
theorem memory_mem_write {m : Memory} {a : Nat} {b : Byte} {c : Host.Cell} (h : c ∈ m.write a b) :
    c = (a, b) ∨ c ∈ m := by
  induction m with
  | nil => simpa [Memory.write] using h
  | cons d m ih =>
    obtain ⟨k, v⟩ := d
    simp only [Memory.write] at h
    split_ifs at h with h1 h2
    · simpa using h
    · rcases List.mem_cons.mp h with h | h
      · exact .inl h
      · exact .inr (List.mem_cons_of_mem _ h)
    · rcases List.mem_cons.mp h with h | h
      · exact .inr (h ▸ List.mem_cons_self)
      · exact (ih h).imp_right (List.mem_cons_of_mem _)

/-- The canonical form, by its first index and the rest. -/
theorem memory_wf_cons {k : Nat} {v : Byte} {m : Memory} :
    Memory.wf ((k, v) :: m) = true ↔ (∀ c ∈ m, k < c.1) ∧ m.wf = true := by
  induction m generalizing k v with
  | nil => simp [Memory.wf]
  | cons d m ih =>
    obtain ⟨k', v'⟩ := d
    simp only [Memory.wf, Bool.and_eq_true, decide_eq_true_eq, List.forall_mem_cons]
    constructor
    · rintro ⟨h1, h2⟩
      exact ⟨⟨h1, fun c hc => h1.trans ((ih.mp h2).1 c hc)⟩, h2⟩
    · rintro ⟨⟨h1, _⟩, h2⟩
      exact ⟨h1, h2⟩

/-- A write keeps the canonical form. -/
theorem memory_write_wf {m : Memory} (a : Nat) (b : Byte) (h : m.wf = true) : (m.write a b).wf = true := by
  induction m with
  | nil => rfl
  | cons d m ih =>
    obtain ⟨k, v⟩ := d
    obtain ⟨hk, hm⟩ := memory_wf_cons.mp h
    simp only [Memory.write]
    split_ifs with h1 h2
    · exact memory_wf_cons.mpr ⟨by
        rw [List.forall_mem_cons]
        exact ⟨h1, fun c hc => h1.trans (hk c hc)⟩, h⟩
    · exact memory_wf_cons.mpr ⟨h2 ▸ hk, hm⟩
    · refine memory_wf_cons.mpr ⟨fun c hc => ?_, ih hm⟩
      rcases memory_mem_write hc with hc | hc
      · subst hc; show k < a; omega
      · exact hk c hc

/-- `written` says that each byte of the run is a known one. -/
theorem memory_written_iff {m : Memory} {a n : Nat} :
    m.written a n = true ↔ ∀ j < n, (m.read (a + j)).isSome = true := by
  induction n generalizing a with
  | zero => simp [Memory.written]
  | succ n ih =>
    simp only [Memory.written, Bool.and_eq_true, ih]
    constructor
    · rintro ⟨h0, h⟩ j hj
      cases j with
      | zero => simpa using h0
      | succ j =>
        have := h j (by omega)
        rwa [show a + 1 + j = a + (j + 1) by omega] at this
    · intro h
      refine ⟨by simpa using h 0 (by omega), fun j hj => ?_⟩
      rw [show a + 1 + j = a + (j + 1) by omega]
      exact h (j + 1) (by omega)

/-- A write unwrites nothing. -/
theorem memory_written_write {m : Memory} {a n c : Nat} {b : Byte} (h : m.written a n = true) :
    (m.write c b).written a n = true := by
  rw [memory_written_iff] at h ⊢
  intro j hj
  by_cases hc : a + j = c
  · subst hc; simp
  · rw [memory_read_write_other m b hc]; exact h j hj

/-- Writing the byte after a written run makes the run one longer. -/
theorem memory_written_write_next {m : Memory} {n : Nat} {b : Byte} (h : m.written 0 n = true) :
    (m.write n b).written 0 (n + 1) = true := by
  rw [memory_written_iff] at h ⊢
  intro j hj
  by_cases hc : 0 + j = n
  · rw [hc]; simp
  · rw [memory_read_write_other m b hc]; exact h j (by omega)

/-- A shorter run of a written one is written. -/
theorem memory_written_mono {m : Memory} {a n k : Nat} (h : m.written a n = true) (hk : k ≤ n) :
    m.written a k = true := by
  rw [memory_written_iff] at h ⊢
  exact fun j hj => h j (by omega)

/-- The bytes of a run are there exactly when the run is written. -/
theorem memory_bytes_isSome (m : Memory) (a n : Nat) : (m.bytes a n).isSome = m.written a n := by
  induction n generalizing a with
  | zero => rfl
  | succ n ih =>
    have h := ih (a + 1)
    simp only [Memory.bytes, Memory.written, ← h]
    cases m.read a <;> cases m.bytes (a + 1) n <;> rfl

/-- A run that is written has its bytes. -/
theorem memory_bytes_of_written {m : Memory} {a n : Nat} (h : m.written a n = true) :
    ∃ bs, m.bytes a n = some bs := by
  rw [← memory_bytes_isSome] at h
  exact Option.isSome_iff_exists.mp h

/-- Byte `j` of a run is the byte the buffer holds there. -/
theorem memory_bytes_getElem {m : Memory} {a n : Nat} {bs : List Byte} (h : m.bytes a n = some bs) :
    bs.length = n ∧ ∀ j < n, bs[j]? = m.read (a + j) := by
  induction n generalizing a bs with
  | zero => simp [Memory.bytes] at h; subst h; simp
  | succ n ih =>
    simp only [Memory.bytes] at h
    split at h
    · rename_i b bs' hb hbs
      cases h
      obtain ⟨hl, hg⟩ := ih hbs
      refine ⟨by simp [hl], fun j hj => ?_⟩
      cases j with
      | zero => simp [hb]
      | succ j =>
        have := hg j (by omega)
        rw [show a + 1 + j = a + (j + 1) by omega] at this
        simpa using this
    · cases h

end Sys2Proof.Machine
end

