-- ==== Sys2Proof/Laws/State.lean ====
section
/-! SUPPORT. One lemma per field per named update of the state, each true by rfl, so that no later proof unfolds an update. -/
namespace Sys2Proof.Machine

@[simp] theorem countRx_cs (s : State) : (countRx s).cs = s.cs := rfl
@[simp] theorem countRx_cfg (s : State) : (countRx s).cfg = s.cfg := rfl
@[simp] theorem countRx_f (s : State) : (countRx s).f = s.f := rfl
@[simp] theorem countRx_ph (s : State) : (countRx s).ph = s.ph := rfl
@[simp] theorem countRx_cnt (s : State) : (countRx s).cnt = s.cnt := rfl
@[simp] theorem countRx_ra (s : State) : (countRx s).ra = s.ra := rfl
@[simp] theorem countRx_msgbuf (s : State) : (countRx s).msgbuf = s.msgbuf := rfl
@[simp] theorem countRx_msg (s : State) : (countRx s).msg = s.msg := rfl
@[simp] theorem countRx_ctrlbuf (s : State) : (countRx s).ctrlbuf = s.ctrlbuf := rfl
@[simp] theorem countRx_ctrl (s : State) : (countRx s).ctrl = s.ctrl := rfl
@[simp] theorem countRx_crPend (s : State) : (countRx s).crPend = s.crPend := rfl
@[simp] theorem countRx_closeRx (s : State) : (countRx s).closeRx = s.closeRx := rfl
@[simp] theorem countRx_ht (s : State) : (countRx s).ht = s.ht := rfl
@[simp] theorem countRx_txbuf (s : State) : (countRx s).txbuf = s.txbuf := rfl
@[simp] theorem countRx_enc (s : State) : (countRx s).enc = s.enc := rfl
@[simp] theorem countRx_fault (s : State) : (countRx s).fault = s.fault := rfl
@[simp] theorem countRx_err (s : State) : (countRx s).err = s.err := rfl
@[simp] theorem countRx_errInfo (s : State) : (countRx s).errInfo = s.errInfo := rfl
@[simp] theorem countRx_endCause (s : State) : (countRx s).endCause = s.endCause := rfl
@[simp] theorem countRx_cmdRej (s : State) : (countRx s).cmdRej = s.cmdRej := rfl
@[simp] theorem countRx_irq (s : State) : (countRx s).irq = s.irq := rfl
@[simp] theorem countRx_rxCount (s : State) : (countRx s).rxCount = s.rxCount + 1 := rfl
@[simp] theorem countRx_txCount (s : State) : (countRx s).txCount = s.txCount := rfl
@[simp] theorem countRx_txCtrl (s : State) : (countRx s).txCtrl = s.txCtrl := rfl
@[simp] theorem countRx_txLen (s : State) : (countRx s).txLen = s.txLen := rfl
@[simp] theorem countRx_params (s : State) : (countRx s).params = s.params := rfl
@[simp] theorem countRx_env (s : State) : (countRx s).env = s.env := rfl

@[simp] theorem offerRx_cs (b : Byte) (s : State) : (offerRx b s).cs = s.cs := rfl
@[simp] theorem offerRx_cfg (b : Byte) (s : State) : (offerRx b s).cfg = s.cfg := rfl
@[simp] theorem offerRx_f (b : Byte) (s : State) : (offerRx b s).f = s.f := rfl
@[simp] theorem offerRx_ph (b : Byte) (s : State) : (offerRx b s).ph = s.ph := rfl
@[simp] theorem offerRx_cnt (b : Byte) (s : State) : (offerRx b s).cnt = s.cnt := rfl
@[simp] theorem offerRx_ra (b : Byte) (s : State) : (offerRx b s).ra = s.ra := rfl
@[simp] theorem offerRx_msgbuf (b : Byte) (s : State) : (offerRx b s).msgbuf = s.msgbuf := rfl
@[simp] theorem offerRx_msg (b : Byte) (s : State) : (offerRx b s).msg = s.msg := rfl
@[simp] theorem offerRx_ctrlbuf (b : Byte) (s : State) : (offerRx b s).ctrlbuf = s.ctrlbuf := rfl
@[simp] theorem offerRx_ctrl (b : Byte) (s : State) : (offerRx b s).ctrl = s.ctrl := rfl
@[simp] theorem offerRx_crPend (b : Byte) (s : State) : (offerRx b s).crPend = s.crPend := rfl
@[simp] theorem offerRx_closeRx (b : Byte) (s : State) : (offerRx b s).closeRx = s.closeRx := rfl
@[simp] theorem offerRx_ht (b : Byte) (s : State) : (offerRx b s).ht = s.ht := rfl
@[simp] theorem offerRx_txbuf (b : Byte) (s : State) : (offerRx b s).txbuf = s.txbuf := rfl
@[simp] theorem offerRx_enc (b : Byte) (s : State) : (offerRx b s).enc = s.enc := rfl
@[simp] theorem offerRx_fault (b : Byte) (s : State) : (offerRx b s).fault = s.fault := rfl
@[simp] theorem offerRx_err (b : Byte) (s : State) : (offerRx b s).err = s.err := rfl
@[simp] theorem offerRx_errInfo (b : Byte) (s : State) : (offerRx b s).errInfo = s.errInfo := rfl
@[simp] theorem offerRx_endCause (b : Byte) (s : State) : (offerRx b s).endCause = s.endCause := rfl
@[simp] theorem offerRx_cmdRej (b : Byte) (s : State) : (offerRx b s).cmdRej = s.cmdRej := rfl
@[simp] theorem offerRx_irq (b : Byte) (s : State) : (offerRx b s).irq = s.irq := rfl
@[simp] theorem offerRx_rxCount (b : Byte) (s : State) : (offerRx b s).rxCount = s.rxCount := rfl
@[simp] theorem offerRx_txCount (b : Byte) (s : State) : (offerRx b s).txCount = s.txCount := rfl
@[simp] theorem offerRx_txCtrl (b : Byte) (s : State) : (offerRx b s).txCtrl = s.txCtrl := rfl
@[simp] theorem offerRx_txLen (b : Byte) (s : State) : (offerRx b s).txLen = s.txLen := rfl
@[simp] theorem offerRx_params (b : Byte) (s : State) : (offerRx b s).params = s.params := rfl
@[simp] theorem offerRx_env (b : Byte) (s : State) : (offerRx b s).env = { s.env with rxData := b } := rfl

@[simp] theorem withEvents_cs (es : List Event) (s : State) : (withEvents es s).cs = s.cs := rfl
@[simp] theorem withEvents_cfg (es : List Event) (s : State) : (withEvents es s).cfg = s.cfg := rfl
@[simp] theorem withEvents_f (es : List Event) (s : State) : (withEvents es s).f = s.f := rfl
@[simp] theorem withEvents_ph (es : List Event) (s : State) : (withEvents es s).ph = s.ph := rfl
@[simp] theorem withEvents_cnt (es : List Event) (s : State) : (withEvents es s).cnt = s.cnt := rfl
@[simp] theorem withEvents_ra (es : List Event) (s : State) : (withEvents es s).ra = s.ra := rfl
@[simp] theorem withEvents_msgbuf (es : List Event) (s : State) : (withEvents es s).msgbuf = s.msgbuf := rfl
@[simp] theorem withEvents_msg (es : List Event) (s : State) : (withEvents es s).msg = s.msg := rfl
@[simp] theorem withEvents_ctrlbuf (es : List Event) (s : State) : (withEvents es s).ctrlbuf = s.ctrlbuf := rfl
@[simp] theorem withEvents_ctrl (es : List Event) (s : State) : (withEvents es s).ctrl = s.ctrl := rfl
@[simp] theorem withEvents_crPend (es : List Event) (s : State) : (withEvents es s).crPend = s.crPend := rfl
@[simp] theorem withEvents_closeRx (es : List Event) (s : State) : (withEvents es s).closeRx = s.closeRx := rfl
@[simp] theorem withEvents_ht (es : List Event) (s : State) : (withEvents es s).ht = s.ht := rfl
@[simp] theorem withEvents_txbuf (es : List Event) (s : State) : (withEvents es s).txbuf = s.txbuf := rfl
@[simp] theorem withEvents_enc (es : List Event) (s : State) : (withEvents es s).enc = s.enc := rfl
@[simp] theorem withEvents_fault (es : List Event) (s : State) : (withEvents es s).fault = s.fault := rfl
@[simp] theorem withEvents_err (es : List Event) (s : State) : (withEvents es s).err = s.err := rfl
@[simp] theorem withEvents_errInfo (es : List Event) (s : State) : (withEvents es s).errInfo = s.errInfo := rfl
@[simp] theorem withEvents_endCause (es : List Event) (s : State) : (withEvents es s).endCause = s.endCause := rfl
@[simp] theorem withEvents_cmdRej (es : List Event) (s : State) : (withEvents es s).cmdRej = s.cmdRej := rfl
@[simp] theorem withEvents_irq (es : List Event) (s : State) : (withEvents es s).irq = s.irq := rfl
@[simp] theorem withEvents_rxCount (es : List Event) (s : State) : (withEvents es s).rxCount = s.rxCount := rfl
@[simp] theorem withEvents_txCount (es : List Event) (s : State) : (withEvents es s).txCount = s.txCount := rfl
@[simp] theorem withEvents_txCtrl (es : List Event) (s : State) : (withEvents es s).txCtrl = s.txCtrl := rfl
@[simp] theorem withEvents_txLen (es : List Event) (s : State) : (withEvents es s).txLen = s.txLen := rfl
@[simp] theorem withEvents_params (es : List Event) (s : State) : (withEvents es s).params = s.params := rfl
@[simp] theorem withEvents_env (es : List Event) (s : State) : (withEvents es s).env = { s.env with events := es } := rfl

@[simp] theorem pushEvents_cs (es : List Event) (s : State) : (pushEvents es s).cs = s.cs := rfl
@[simp] theorem pushEvents_cfg (es : List Event) (s : State) : (pushEvents es s).cfg = s.cfg := rfl
@[simp] theorem pushEvents_f (es : List Event) (s : State) : (pushEvents es s).f = s.f := rfl
@[simp] theorem pushEvents_ph (es : List Event) (s : State) : (pushEvents es s).ph = s.ph := rfl
@[simp] theorem pushEvents_cnt (es : List Event) (s : State) : (pushEvents es s).cnt = s.cnt := rfl
@[simp] theorem pushEvents_ra (es : List Event) (s : State) : (pushEvents es s).ra = s.ra := rfl
@[simp] theorem pushEvents_msgbuf (es : List Event) (s : State) : (pushEvents es s).msgbuf = s.msgbuf := rfl
@[simp] theorem pushEvents_msg (es : List Event) (s : State) : (pushEvents es s).msg = s.msg := rfl
@[simp] theorem pushEvents_ctrlbuf (es : List Event) (s : State) : (pushEvents es s).ctrlbuf = s.ctrlbuf := rfl
@[simp] theorem pushEvents_ctrl (es : List Event) (s : State) : (pushEvents es s).ctrl = s.ctrl := rfl
@[simp] theorem pushEvents_crPend (es : List Event) (s : State) : (pushEvents es s).crPend = s.crPend := rfl
@[simp] theorem pushEvents_closeRx (es : List Event) (s : State) : (pushEvents es s).closeRx = s.closeRx := rfl
@[simp] theorem pushEvents_ht (es : List Event) (s : State) : (pushEvents es s).ht = s.ht := rfl
@[simp] theorem pushEvents_txbuf (es : List Event) (s : State) : (pushEvents es s).txbuf = s.txbuf := rfl
@[simp] theorem pushEvents_enc (es : List Event) (s : State) : (pushEvents es s).enc = s.enc := rfl
@[simp] theorem pushEvents_fault (es : List Event) (s : State) : (pushEvents es s).fault = s.fault := rfl
@[simp] theorem pushEvents_err (es : List Event) (s : State) : (pushEvents es s).err = s.err := rfl
@[simp] theorem pushEvents_errInfo (es : List Event) (s : State) : (pushEvents es s).errInfo = s.errInfo := rfl
@[simp] theorem pushEvents_endCause (es : List Event) (s : State) : (pushEvents es s).endCause = s.endCause := rfl
@[simp] theorem pushEvents_cmdRej (es : List Event) (s : State) : (pushEvents es s).cmdRej = s.cmdRej := rfl
@[simp] theorem pushEvents_irq (es : List Event) (s : State) : (pushEvents es s).irq = s.irq := rfl
@[simp] theorem pushEvents_rxCount (es : List Event) (s : State) : (pushEvents es s).rxCount = s.rxCount := rfl
@[simp] theorem pushEvents_txCount (es : List Event) (s : State) : (pushEvents es s).txCount = s.txCount := rfl
@[simp] theorem pushEvents_txCtrl (es : List Event) (s : State) : (pushEvents es s).txCtrl = s.txCtrl := rfl
@[simp] theorem pushEvents_txLen (es : List Event) (s : State) : (pushEvents es s).txLen = s.txLen := rfl
@[simp] theorem pushEvents_params (es : List Event) (s : State) : (pushEvents es s).params = s.params := rfl
@[simp] theorem pushEvents_env (es : List Event) (s : State) : (pushEvents es s).env = { s.env with events := es ++ s.env.events } := rfl

@[simp] theorem withReply_cs (r : Reply) (s : State) : (withReply r s).cs = s.cs := rfl
@[simp] theorem withReply_cfg (r : Reply) (s : State) : (withReply r s).cfg = s.cfg := rfl
@[simp] theorem withReply_f (r : Reply) (s : State) : (withReply r s).f = s.f := rfl
@[simp] theorem withReply_ph (r : Reply) (s : State) : (withReply r s).ph = s.ph := rfl
@[simp] theorem withReply_cnt (r : Reply) (s : State) : (withReply r s).cnt = s.cnt := rfl
@[simp] theorem withReply_ra (r : Reply) (s : State) : (withReply r s).ra = s.ra := rfl
@[simp] theorem withReply_msgbuf (r : Reply) (s : State) : (withReply r s).msgbuf = s.msgbuf := rfl
@[simp] theorem withReply_msg (r : Reply) (s : State) : (withReply r s).msg = s.msg := rfl
@[simp] theorem withReply_ctrlbuf (r : Reply) (s : State) : (withReply r s).ctrlbuf = s.ctrlbuf := rfl
@[simp] theorem withReply_ctrl (r : Reply) (s : State) : (withReply r s).ctrl = s.ctrl := rfl
@[simp] theorem withReply_crPend (r : Reply) (s : State) : (withReply r s).crPend = s.crPend := rfl
@[simp] theorem withReply_closeRx (r : Reply) (s : State) : (withReply r s).closeRx = s.closeRx := rfl
@[simp] theorem withReply_ht (r : Reply) (s : State) : (withReply r s).ht = s.ht := rfl
@[simp] theorem withReply_txbuf (r : Reply) (s : State) : (withReply r s).txbuf = s.txbuf := rfl
@[simp] theorem withReply_enc (r : Reply) (s : State) : (withReply r s).enc = s.enc := rfl
@[simp] theorem withReply_fault (r : Reply) (s : State) : (withReply r s).fault = s.fault := rfl
@[simp] theorem withReply_err (r : Reply) (s : State) : (withReply r s).err = s.err := rfl
@[simp] theorem withReply_errInfo (r : Reply) (s : State) : (withReply r s).errInfo = s.errInfo := rfl
@[simp] theorem withReply_endCause (r : Reply) (s : State) : (withReply r s).endCause = s.endCause := rfl
@[simp] theorem withReply_cmdRej (r : Reply) (s : State) : (withReply r s).cmdRej = s.cmdRej := rfl
@[simp] theorem withReply_irq (r : Reply) (s : State) : (withReply r s).irq = s.irq := rfl
@[simp] theorem withReply_rxCount (r : Reply) (s : State) : (withReply r s).rxCount = s.rxCount := rfl
@[simp] theorem withReply_txCount (r : Reply) (s : State) : (withReply r s).txCount = s.txCount := rfl
@[simp] theorem withReply_txCtrl (r : Reply) (s : State) : (withReply r s).txCtrl = s.txCtrl := rfl
@[simp] theorem withReply_txLen (r : Reply) (s : State) : (withReply r s).txLen = s.txLen := rfl
@[simp] theorem withReply_params (r : Reply) (s : State) : (withReply r s).params = s.params := rfl
@[simp] theorem withReply_env (r : Reply) (s : State) : (withReply r s).env = { s.env with reply := some r } := rfl

@[simp] theorem reject_cs (s : State) : (reject s).cs = s.cs := rfl
@[simp] theorem reject_cfg (s : State) : (reject s).cfg = s.cfg := rfl
@[simp] theorem reject_f (s : State) : (reject s).f = s.f := rfl
@[simp] theorem reject_ph (s : State) : (reject s).ph = s.ph := rfl
@[simp] theorem reject_cnt (s : State) : (reject s).cnt = s.cnt := rfl
@[simp] theorem reject_ra (s : State) : (reject s).ra = s.ra := rfl
@[simp] theorem reject_msgbuf (s : State) : (reject s).msgbuf = s.msgbuf := rfl
@[simp] theorem reject_msg (s : State) : (reject s).msg = s.msg := rfl
@[simp] theorem reject_ctrlbuf (s : State) : (reject s).ctrlbuf = s.ctrlbuf := rfl
@[simp] theorem reject_ctrl (s : State) : (reject s).ctrl = s.ctrl := rfl
@[simp] theorem reject_crPend (s : State) : (reject s).crPend = s.crPend := rfl
@[simp] theorem reject_closeRx (s : State) : (reject s).closeRx = s.closeRx := rfl
@[simp] theorem reject_ht (s : State) : (reject s).ht = s.ht := rfl
@[simp] theorem reject_txbuf (s : State) : (reject s).txbuf = s.txbuf := rfl
@[simp] theorem reject_enc (s : State) : (reject s).enc = s.enc := rfl
@[simp] theorem reject_fault (s : State) : (reject s).fault = s.fault := rfl
@[simp] theorem reject_err (s : State) : (reject s).err = s.err := rfl
@[simp] theorem reject_errInfo (s : State) : (reject s).errInfo = s.errInfo := rfl
@[simp] theorem reject_endCause (s : State) : (reject s).endCause = s.endCause := rfl
@[simp] theorem reject_cmdRej (s : State) : (reject s).cmdRej = true := rfl
@[simp] theorem reject_irq (s : State) : (reject s).irq = s.irq := rfl
@[simp] theorem reject_rxCount (s : State) : (reject s).rxCount = s.rxCount := rfl
@[simp] theorem reject_txCount (s : State) : (reject s).txCount = s.txCount := rfl
@[simp] theorem reject_txCtrl (s : State) : (reject s).txCtrl = s.txCtrl := rfl
@[simp] theorem reject_txLen (s : State) : (reject s).txLen = s.txLen := rfl
@[simp] theorem reject_params (s : State) : (reject s).params = s.params := rfl
@[simp] theorem reject_env (s : State) : (reject s).env = s.env := rfl

@[simp] theorem deliver_cs (s : State) : (deliver s).cs = s.cs := rfl
@[simp] theorem deliver_cfg (s : State) : (deliver s).cfg = s.cfg := rfl
@[simp] theorem deliver_f (s : State) : (deliver s).f = s.f := rfl
@[simp] theorem deliver_ph (s : State) : (deliver s).ph = s.ph := rfl
@[simp] theorem deliver_cnt (s : State) : (deliver s).cnt = s.cnt := rfl
@[simp] theorem deliver_ra (s : State) : (deliver s).ra = { active := false, op := 0, len := 0 } := rfl
@[simp] theorem deliver_msgbuf (s : State) : (deliver s).msgbuf = s.msgbuf := rfl
@[simp] theorem deliver_msg (s : State) : (deliver s).msg = { valid := true, op := s.ra.op, len := s.ra.len } := rfl
@[simp] theorem deliver_ctrlbuf (s : State) : (deliver s).ctrlbuf = s.ctrlbuf := rfl
@[simp] theorem deliver_ctrl (s : State) : (deliver s).ctrl = s.ctrl := rfl
@[simp] theorem deliver_crPend (s : State) : (deliver s).crPend = s.crPend := rfl
@[simp] theorem deliver_closeRx (s : State) : (deliver s).closeRx = s.closeRx := rfl
@[simp] theorem deliver_ht (s : State) : (deliver s).ht = s.ht := rfl
@[simp] theorem deliver_txbuf (s : State) : (deliver s).txbuf = s.txbuf := rfl
@[simp] theorem deliver_enc (s : State) : (deliver s).enc = s.enc := rfl
@[simp] theorem deliver_fault (s : State) : (deliver s).fault = s.fault := rfl
@[simp] theorem deliver_err (s : State) : (deliver s).err = s.err := rfl
@[simp] theorem deliver_errInfo (s : State) : (deliver s).errInfo = s.errInfo := rfl
@[simp] theorem deliver_endCause (s : State) : (deliver s).endCause = s.endCause := rfl
@[simp] theorem deliver_cmdRej (s : State) : (deliver s).cmdRej = s.cmdRej := rfl
@[simp] theorem deliver_irq (s : State) : (deliver s).irq = setPend s.irq irqMsg := rfl
@[simp] theorem deliver_rxCount (s : State) : (deliver s).rxCount = s.rxCount := rfl
@[simp] theorem deliver_txCount (s : State) : (deliver s).txCount = s.txCount := rfl
@[simp] theorem deliver_txCtrl (s : State) : (deliver s).txCtrl = s.txCtrl := rfl
@[simp] theorem deliver_txLen (s : State) : (deliver s).txLen = s.txLen := rfl
@[simp] theorem deliver_params (s : State) : (deliver s).params = s.params := rfl
@[simp] theorem deliver_env (s : State) : (deliver s).env = s.env := rfl

@[simp] theorem raise_cs (e : ErrCode) (p : Phase) (c : Bool) (s : State) : (raise e p c s).cs = .closed := rfl
@[simp] theorem raise_cfg (e : ErrCode) (p : Phase) (c : Bool) (s : State) : (raise e p c s).cfg = s.cfg := rfl
@[simp] theorem raise_f (e : ErrCode) (p : Phase) (c : Bool) (s : State) : (raise e p c s).f = s.f := rfl
@[simp] theorem raise_ph (e : ErrCode) (p : Phase) (c : Bool) (s : State) : (raise e p c s).ph = .stop := rfl
@[simp] theorem raise_cnt (e : ErrCode) (p : Phase) (c : Bool) (s : State) : (raise e p c s).cnt = s.cnt := rfl
@[simp] theorem raise_ra (e : ErrCode) (p : Phase) (c : Bool) (s : State) : (raise e p c s).ra = { active := false, op := 0, len := 0 } := rfl
@[simp] theorem raise_msgbuf (e : ErrCode) (p : Phase) (c : Bool) (s : State) : (raise e p c s).msgbuf = s.msgbuf := rfl
@[simp] theorem raise_msg (e : ErrCode) (p : Phase) (c : Bool) (s : State) : (raise e p c s).msg = s.msg := rfl
@[simp] theorem raise_ctrlbuf (e : ErrCode) (p : Phase) (c : Bool) (s : State) : (raise e p c s).ctrlbuf = s.ctrlbuf := rfl
@[simp] theorem raise_ctrl (e : ErrCode) (p : Phase) (c : Bool) (s : State) : (raise e p c s).ctrl = s.ctrl := rfl
@[simp] theorem raise_crPend (e : ErrCode) (p : Phase) (c : Bool) (s : State) : (raise e p c s).crPend = .none := rfl
@[simp] theorem raise_closeRx (e : ErrCode) (p : Phase) (c : Bool) (s : State) : (raise e p c s).closeRx = s.closeRx := rfl
@[simp] theorem raise_ht (e : ErrCode) (p : Phase) (c : Bool) (s : State) : (raise e p c s).ht = { s.ht with pend := false } := rfl
@[simp] theorem raise_txbuf (e : ErrCode) (p : Phase) (c : Bool) (s : State) : (raise e p c s).txbuf = s.txbuf := rfl
@[simp] theorem raise_enc (e : ErrCode) (p : Phase) (c : Bool) (s : State) : (raise e p c s).enc = { s.enc with busy := false } := rfl
@[simp] theorem raise_fault (e : ErrCode) (p : Phase) (c : Bool) (s : State) : (raise e p c s).fault = true := rfl
@[simp] theorem raise_err (e : ErrCode) (p : Phase) (c : Bool) (s : State) : (raise e p c s).err = e := rfl
@[simp] theorem raise_errInfo (e : ErrCode) (p : Phase) (c : Bool) (s : State) : (raise e p c s).errInfo = capture p c s.f := rfl
@[simp] theorem raise_endCause (e : ErrCode) (p : Phase) (c : Bool) (s : State) : (raise e p c s).endCause = .fault := rfl
@[simp] theorem raise_cmdRej (e : ErrCode) (p : Phase) (c : Bool) (s : State) : (raise e p c s).cmdRej = s.cmdRej := rfl
@[simp] theorem raise_irq (e : ErrCode) (p : Phase) (c : Bool) (s : State) : (raise e p c s).irq = setPend s.irq (irqFault ||| irqEnd) := rfl
@[simp] theorem raise_rxCount (e : ErrCode) (p : Phase) (c : Bool) (s : State) : (raise e p c s).rxCount = s.rxCount := rfl
@[simp] theorem raise_txCount (e : ErrCode) (p : Phase) (c : Bool) (s : State) : (raise e p c s).txCount = s.txCount := rfl
@[simp] theorem raise_txCtrl (e : ErrCode) (p : Phase) (c : Bool) (s : State) : (raise e p c s).txCtrl = s.txCtrl := rfl
@[simp] theorem raise_txLen (e : ErrCode) (p : Phase) (c : Bool) (s : State) : (raise e p c s).txLen = s.txLen := rfl
@[simp] theorem raise_params (e : ErrCode) (p : Phase) (c : Bool) (s : State) : (raise e p c s).params = s.params := rfl
@[simp] theorem raise_env (e : ErrCode) (p : Phase) (c : Bool) (s : State) : (raise e p c s).env = s.env := rfl

@[simp] theorem closeDone_cs (c : EndCause) (s : State) : (closeDone c s).cs = .closed := rfl
@[simp] theorem closeDone_cfg (c : EndCause) (s : State) : (closeDone c s).cfg = s.cfg := rfl
@[simp] theorem closeDone_f (c : EndCause) (s : State) : (closeDone c s).f = s.f := rfl
@[simp] theorem closeDone_ph (c : EndCause) (s : State) : (closeDone c s).ph = .stop := rfl
@[simp] theorem closeDone_cnt (c : EndCause) (s : State) : (closeDone c s).cnt = s.cnt := rfl
@[simp] theorem closeDone_ra (c : EndCause) (s : State) : (closeDone c s).ra = { active := false, op := 0, len := 0 } := rfl
@[simp] theorem closeDone_msgbuf (c : EndCause) (s : State) : (closeDone c s).msgbuf = s.msgbuf := rfl
@[simp] theorem closeDone_msg (c : EndCause) (s : State) : (closeDone c s).msg = s.msg := rfl
@[simp] theorem closeDone_ctrlbuf (c : EndCause) (s : State) : (closeDone c s).ctrlbuf = s.ctrlbuf := rfl
@[simp] theorem closeDone_ctrl (c : EndCause) (s : State) : (closeDone c s).ctrl = s.ctrl := rfl
@[simp] theorem closeDone_crPend (c : EndCause) (s : State) : (closeDone c s).crPend = .none := rfl
@[simp] theorem closeDone_closeRx (c : EndCause) (s : State) : (closeDone c s).closeRx = s.closeRx := rfl
@[simp] theorem closeDone_ht (c : EndCause) (s : State) : (closeDone c s).ht = { s.ht with pend := false } := rfl
@[simp] theorem closeDone_txbuf (c : EndCause) (s : State) : (closeDone c s).txbuf = s.txbuf := rfl
@[simp] theorem closeDone_enc (c : EndCause) (s : State) : (closeDone c s).enc = { s.enc with busy := false } := rfl
@[simp] theorem closeDone_fault (c : EndCause) (s : State) : (closeDone c s).fault = s.fault := rfl
@[simp] theorem closeDone_err (c : EndCause) (s : State) : (closeDone c s).err = s.err := rfl
@[simp] theorem closeDone_errInfo (c : EndCause) (s : State) : (closeDone c s).errInfo = s.errInfo := rfl
@[simp] theorem closeDone_endCause (c : EndCause) (s : State) : (closeDone c s).endCause = c := rfl
@[simp] theorem closeDone_cmdRej (c : EndCause) (s : State) : (closeDone c s).cmdRej = s.cmdRej := rfl
@[simp] theorem closeDone_irq (c : EndCause) (s : State) : (closeDone c s).irq = setPend s.irq irqEnd := rfl
@[simp] theorem closeDone_rxCount (c : EndCause) (s : State) : (closeDone c s).rxCount = s.rxCount := rfl
@[simp] theorem closeDone_txCount (c : EndCause) (s : State) : (closeDone c s).txCount = s.txCount := rfl
@[simp] theorem closeDone_txCtrl (c : EndCause) (s : State) : (closeDone c s).txCtrl = s.txCtrl := rfl
@[simp] theorem closeDone_txLen (c : EndCause) (s : State) : (closeDone c s).txLen = s.txLen := rfl
@[simp] theorem closeDone_params (c : EndCause) (s : State) : (closeDone c s).params = s.params := rfl
@[simp] theorem closeDone_env (c : EndCause) (s : State) : (closeDone c s).env = s.env := rfl

@[simp] theorem txStartWith_cs (m : Bool) (k : Key) (s : State) : (txStartWith m k s).cs = s.cs := rfl
@[simp] theorem txStartWith_cfg (m : Bool) (k : Key) (s : State) : (txStartWith m k s).cfg = s.cfg := rfl
@[simp] theorem txStartWith_f (m : Bool) (k : Key) (s : State) : (txStartWith m k s).f = s.f := rfl
@[simp] theorem txStartWith_ph (m : Bool) (k : Key) (s : State) : (txStartWith m k s).ph = s.ph := rfl
@[simp] theorem txStartWith_cnt (m : Bool) (k : Key) (s : State) : (txStartWith m k s).cnt = s.cnt := rfl
@[simp] theorem txStartWith_ra (m : Bool) (k : Key) (s : State) : (txStartWith m k s).ra = s.ra := rfl
@[simp] theorem txStartWith_msgbuf (m : Bool) (k : Key) (s : State) : (txStartWith m k s).msgbuf = s.msgbuf := rfl
@[simp] theorem txStartWith_msg (m : Bool) (k : Key) (s : State) : (txStartWith m k s).msg = s.msg := rfl
@[simp] theorem txStartWith_ctrlbuf (m : Bool) (k : Key) (s : State) : (txStartWith m k s).ctrlbuf = s.ctrlbuf := rfl
@[simp] theorem txStartWith_ctrl (m : Bool) (k : Key) (s : State) : (txStartWith m k s).ctrl = s.ctrl := rfl
@[simp] theorem txStartWith_crPend (m : Bool) (k : Key) (s : State) : (txStartWith m k s).crPend = .none := rfl
@[simp] theorem txStartWith_closeRx (m : Bool) (k : Key) (s : State) : (txStartWith m k s).closeRx = s.closeRx := rfl
@[simp] theorem txStartWith_ht (m : Bool) (k : Key) (s : State) : (txStartWith m k s).ht = { s.ht with pend := (if s.crPend = .none then false else s.ht.pend) } := rfl
@[simp] theorem txStartWith_txbuf (m : Bool) (k : Key) (s : State) : (txStartWith m k s).txbuf = s.txbuf := rfl
@[simp] theorem txStartWith_enc (m : Bool) (k : Key) (s : State) : (txStartWith m k s).enc = encoderFor (txRequest s) m k := rfl
@[simp] theorem txStartWith_fault (m : Bool) (k : Key) (s : State) : (txStartWith m k s).fault = s.fault := rfl
@[simp] theorem txStartWith_err (m : Bool) (k : Key) (s : State) : (txStartWith m k s).err = s.err := rfl
@[simp] theorem txStartWith_errInfo (m : Bool) (k : Key) (s : State) : (txStartWith m k s).errInfo = s.errInfo := rfl
@[simp] theorem txStartWith_endCause (m : Bool) (k : Key) (s : State) : (txStartWith m k s).endCause = s.endCause := rfl
@[simp] theorem txStartWith_cmdRej (m : Bool) (k : Key) (s : State) : (txStartWith m k s).cmdRej = s.cmdRej := rfl
@[simp] theorem txStartWith_irq (m : Bool) (k : Key) (s : State) : (txStartWith m k s).irq = s.irq := rfl
@[simp] theorem txStartWith_rxCount (m : Bool) (k : Key) (s : State) : (txStartWith m k s).rxCount = s.rxCount := rfl
@[simp] theorem txStartWith_txCount (m : Bool) (k : Key) (s : State) : (txStartWith m k s).txCount = s.txCount := rfl
@[simp] theorem txStartWith_txCtrl (m : Bool) (k : Key) (s : State) : (txStartWith m k s).txCtrl = s.txCtrl := rfl
@[simp] theorem txStartWith_txLen (m : Bool) (k : Key) (s : State) : (txStartWith m k s).txLen = s.txLen := rfl
@[simp] theorem txStartWith_params (m : Bool) (k : Key) (s : State) : (txStartWith m k s).params = s.params := rfl
@[simp] theorem txStartWith_env (m : Bool) (k : Key) (s : State) : (txStartWith m k s).env = s.env := rfl

@[simp] theorem txEmit_cs (o : Byte) (s : State) : (txEmit o s).cs = s.cs := rfl
@[simp] theorem txEmit_cfg (o : Byte) (s : State) : (txEmit o s).cfg = s.cfg := rfl
@[simp] theorem txEmit_f (o : Byte) (s : State) : (txEmit o s).f = s.f := rfl
@[simp] theorem txEmit_ph (o : Byte) (s : State) : (txEmit o s).ph = s.ph := rfl
@[simp] theorem txEmit_cnt (o : Byte) (s : State) : (txEmit o s).cnt = s.cnt := rfl
@[simp] theorem txEmit_ra (o : Byte) (s : State) : (txEmit o s).ra = s.ra := rfl
@[simp] theorem txEmit_msgbuf (o : Byte) (s : State) : (txEmit o s).msgbuf = s.msgbuf := rfl
@[simp] theorem txEmit_msg (o : Byte) (s : State) : (txEmit o s).msg = s.msg := rfl
@[simp] theorem txEmit_ctrlbuf (o : Byte) (s : State) : (txEmit o s).ctrlbuf = s.ctrlbuf := rfl
@[simp] theorem txEmit_ctrl (o : Byte) (s : State) : (txEmit o s).ctrl = s.ctrl := rfl
@[simp] theorem txEmit_crPend (o : Byte) (s : State) : (txEmit o s).crPend = s.crPend := rfl
@[simp] theorem txEmit_closeRx (o : Byte) (s : State) : (txEmit o s).closeRx = s.closeRx := rfl
@[simp] theorem txEmit_ht (o : Byte) (s : State) : (txEmit o s).ht = s.ht := rfl
@[simp] theorem txEmit_txbuf (o : Byte) (s : State) : (txEmit o s).txbuf = s.txbuf := rfl
@[simp] theorem txEmit_fault (o : Byte) (s : State) : (txEmit o s).fault = s.fault := rfl
@[simp] theorem txEmit_err (o : Byte) (s : State) : (txEmit o s).err = s.err := rfl
@[simp] theorem txEmit_errInfo (o : Byte) (s : State) : (txEmit o s).errInfo = s.errInfo := rfl
@[simp] theorem txEmit_endCause (o : Byte) (s : State) : (txEmit o s).endCause = s.endCause := rfl
@[simp] theorem txEmit_cmdRej (o : Byte) (s : State) : (txEmit o s).cmdRej = s.cmdRej := rfl
@[simp] theorem txEmit_rxCount (o : Byte) (s : State) : (txEmit o s).rxCount = s.rxCount := rfl
@[simp] theorem txEmit_txCtrl (o : Byte) (s : State) : (txEmit o s).txCtrl = s.txCtrl := rfl
@[simp] theorem txEmit_txLen (o : Byte) (s : State) : (txEmit o s).txLen = s.txLen := rfl
@[simp] theorem txEmit_params (o : Byte) (s : State) : (txEmit o s).params = s.params := rfl

@[simp] theorem resetBlock_cs (s : State) : (resetBlock s).cs = State.reset.cs := rfl
@[simp] theorem resetBlock_cfg (s : State) : (resetBlock s).cfg = State.reset.cfg := rfl
@[simp] theorem resetBlock_f (s : State) : (resetBlock s).f = State.reset.f := rfl
@[simp] theorem resetBlock_ph (s : State) : (resetBlock s).ph = State.reset.ph := rfl
@[simp] theorem resetBlock_cnt (s : State) : (resetBlock s).cnt = State.reset.cnt := rfl
@[simp] theorem resetBlock_ra (s : State) : (resetBlock s).ra = State.reset.ra := rfl
@[simp] theorem resetBlock_msgbuf (s : State) : (resetBlock s).msgbuf = State.reset.msgbuf := rfl
@[simp] theorem resetBlock_msg (s : State) : (resetBlock s).msg = State.reset.msg := rfl
@[simp] theorem resetBlock_ctrlbuf (s : State) : (resetBlock s).ctrlbuf = State.reset.ctrlbuf := rfl
@[simp] theorem resetBlock_ctrl (s : State) : (resetBlock s).ctrl = State.reset.ctrl := rfl
@[simp] theorem resetBlock_crPend (s : State) : (resetBlock s).crPend = State.reset.crPend := rfl
@[simp] theorem resetBlock_closeRx (s : State) : (resetBlock s).closeRx = State.reset.closeRx := rfl
@[simp] theorem resetBlock_ht (s : State) : (resetBlock s).ht = State.reset.ht := rfl
@[simp] theorem resetBlock_txbuf (s : State) : (resetBlock s).txbuf = State.reset.txbuf := rfl
@[simp] theorem resetBlock_enc (s : State) : (resetBlock s).enc = State.reset.enc := rfl
@[simp] theorem resetBlock_fault (s : State) : (resetBlock s).fault = State.reset.fault := rfl
@[simp] theorem resetBlock_err (s : State) : (resetBlock s).err = State.reset.err := rfl
@[simp] theorem resetBlock_errInfo (s : State) : (resetBlock s).errInfo = State.reset.errInfo := rfl
@[simp] theorem resetBlock_endCause (s : State) : (resetBlock s).endCause = State.reset.endCause := rfl
@[simp] theorem resetBlock_cmdRej (s : State) : (resetBlock s).cmdRej = State.reset.cmdRej := rfl
@[simp] theorem resetBlock_irq (s : State) : (resetBlock s).irq = State.reset.irq := rfl
@[simp] theorem resetBlock_rxCount (s : State) : (resetBlock s).rxCount = State.reset.rxCount := rfl
@[simp] theorem resetBlock_txCount (s : State) : (resetBlock s).txCount = State.reset.txCount := rfl
@[simp] theorem resetBlock_txCtrl (s : State) : (resetBlock s).txCtrl = State.reset.txCtrl := rfl
@[simp] theorem resetBlock_txLen (s : State) : (resetBlock s).txLen = State.reset.txLen := rfl
@[simp] theorem resetBlock_params (s : State) : (resetBlock s).params = s.params := rfl
@[simp] theorem resetBlock_env (s : State) : (resetBlock s).env = s.env := rfl

end Sys2Proof.Machine
end

