-- ==== Sys2Proof/Laws/Invariant.lean ====
section
/-! SUPPORT. What each shared operation of the RX side does to the invariant of Safety.lean: the ends of a connection, `settle`, and the parser byte by byte. -/
namespace Sys2Proof.Machine

/-- The part of the invariant that the end of a connection keeps (R232, R245). -/
structure Kept (s : State) : Prop where
  params : s.params.wf = true
  buffers : BuffersOk s
  delivered : s.msg.valid = true →
    (s.msg.op = 0x1#4 ∨ s.msg.op = 0x2#4) ∧ s.msgbuf.written 0 s.msg.len.toNat = true
  ctrlLen : s.ctrl.len.toNat ≤ s.params.ctrlCap ∧ s.ctrlbuf.written 0 s.ctrl.len.toNat = true

theorem PreInv.kept {s : State} (h : PreInv s) : Kept s :=
  ⟨h.params, h.buffers, h.parser.delivered, h.tx.ctrlLen⟩

/-- The fault action gives a state that meets `PreInv` (R245). -/
theorem raise_pre {s : State} (h : Kept s) {e : ErrCode} (he : e ≠ .none) (p : Phase) (c : Bool) :
    PreInv (raise e p c s) where
  params := h.params
  buffers := ⟨h.buffers.1, h.buffers.2, h.buffers.3, h.buffers.4, h.buffers.5, h.buffers.6⟩
  conn := by constructor <;> simp [he]
  parser := by constructor <;> simp [midFrame, Memory.written]; exact h.delivered
  tx := by constructor <;> simp; exact h.ctrlLen

/-- So does an end without a fault (R232). -/
theorem closeDone_pre {s : State} (h : Kept s) (hf : s.fault = false) (he : s.err = .none) {c : EndCause}
    (h1 : c ≠ .none) (h2 : c ≠ .fault) : PreInv (closeDone c s) where
  params := h.params
  buffers := ⟨h.buffers.1, h.buffers.2, h.buffers.3, h.buffers.4, h.buffers.5, h.buffers.6⟩
  conn := by constructor <;> simp [hf, he, h1, h2]
  parser := by constructor <;> simp [midFrame, Memory.written]; exact h.delivered
  tx := by constructor <;> simp; exact h.ctrlLen

/-- A connection that has not ended has raised no fault (R253). -/
theorem ConnOk.alive {s : State} (h : ConnOk s) (hc : s.cs ≠ .closed) : s.fault = false ∧ s.err = .none := by
  have h1 := h.ended; have h2 := h.faulted; have h3 := h.coded
  have : s.endCause = .none := by
    by_contra hne; exact hc (h1.mpr hne)
  have hf : s.fault = false := by
    by_contra hne
    have := h2.mp (by simpa using hne); simp_all
  exact ⟨hf, by by_contra hne; have := h3.mpr hne; simp_all⟩

/-- `settle` makes the invariant of `PreInv` (R231). -/
theorem settle_inv {s : State} (h : PreInv s) : Inv (settle s) := by
  unfold settle
  split
  · rename_i hs
    have hc : s.cs ≠ .closed := by
      intro hc; simp [echoDone, bothClosesDone, hc] at hs
    obtain ⟨hf, he⟩ := h.conn.alive hc
    exact ⟨closeDone_pre h.kept hf he (by decide) (by decide), by simp [echoDone, bothClosesDone]⟩
  · exact ⟨h, by rename_i hn; simpa using hn⟩

/-- A step's own outcome is good when it keeps `PreInv`: no fault of the model, and a refusal leaves no state. -/
def Good : Out → Prop
  | .next t => PreInv t
  | .fault _ => False
  | .refused _ => True

/-- A frame of opcode `op` has just ended in `s`: the parser is at `HDR0` and all of the payload is there (R119). -/
structure EndReady (op : Opcode) (s : State) : Prop where
  pre : PreInv s
  ph : s.ph = .hdr0
  openCs : s.cs = .opened ∨ s.cs = .closingSent
  alone : s.msg.valid = false ∧ crBusy s = false
  sequence : isDataOp op = true → (op = 0x0#4 ↔ s.ra.active = true)
  cap : capacityCheck op s = none
  msgThere : dest op = .msg → s.msgbuf.written 0 (s.ra.len.toNat + s.f.len.toNat) = true
  ctrlThere : dest op = .ctrl → s.ctrlbuf.written 0 s.f.len.toNat = true

/-- Delivery keeps `PreInv` (R147). -/
theorem deliver_pre {s : State} (h : PreInv s) (hp : s.ph = .hdr0) (ha : s.ra.active = true) : PreInv (deliver s) where
  params := h.params
  buffers := ⟨h.buffers.1, h.buffers.2, h.buffers.3, h.buffers.4, h.buffers.5, h.buffers.6⟩
  conn := by
    obtain ⟨a, b, c, d, e, f, g, i, j⟩ := h.conn
    constructor <;> simp_all
  parser := by
    have h9 := h.parser.msgWritten
    have h10 := h.parser.raActive ha
    constructor <;> simp_all [midFrame, Memory.written]
  tx := by
    obtain ⟨a, b, c, d, e, f⟩ := h.tx
    constructor <;> simp_all

/-- The completion of a message answers a next state and keeps `PreInv` (R145, R147). -/
theorem messageComplete_good {s : State} (h : PreInv s) (hp : s.ph = .hdr0) (ha : s.ra.active = true) (p : Phase) :
    Good (messageComplete p s) := by
  have hw := h.parser.msgWritten
  simp only [hp, reduceCtorEq, false_and, if_false, Nat.add_zero] at hw
  obtain ⟨bs, hbs⟩ := memory_bytes_of_written hw
  unfold messageComplete
  rw [hbs]
  split_ifs
  · simp only
    split_ifs
    · exact deliver_pre h hp ha
    · exact raise_pre h.kept (by decide) _ _
  · exact deliver_pre h hp ha

/-- A message in progress within the limit, with its bytes there, keeps `PreInv`. -/
theorem setReasm_pre {s : State} (h : PreInv s) (hp : s.ph = .hdr0) (ho : s.cs = .opened ∨ s.cs = .closingSent)
    {op : Opcode} {len : Word64} (hop : op = 0x1#4 ∨ op = 0x2#4)
    (hl : len.toNat ≤ msgLimit s.params) (hw : s.msgbuf.written 0 len.toNat = true) :
    PreInv { s with ra := { active := true, op := op, len := len } } where
  params := h.params
  buffers := ⟨h.buffers.1, h.buffers.2, h.buffers.3, h.buffers.4, h.buffers.5, h.buffers.6⟩
  conn := by
    obtain ⟨a, b, c, d, e, f, g, i, j⟩ := h.conn
    constructor <;> first | assumption | (rcases ho with ho | ho <;> simp_all)
  parser := by
    have h9 := h.parser.delivered
    constructor <;> simp_all [midFrame]
  tx := by
    obtain ⟨a, b, c, d, e, f⟩ := h.tx
    constructor <;> assumption

theorem cap_msg {op : Opcode} {s : State} (hc : capacityCheck op s = none) (hd : dest op = .msg) :
    s.ra.len.toNat + s.f.len.toNat ≤ msgLimit s.params := by
  unfold capacityCheck at hc
  rw [hd] at hc
  simp only at hc
  split at hc
  · cases hc
  · omega

theorem cap_ctrl {op : Opcode} {s : State} (hc : capacityCheck op s = none) (hd : dest op = .ctrl) :
    s.f.len.toNat ≤ s.params.ctrlCap := by
  unfold capacityCheck at hc
  rw [hd] at hc
  simp only at hc
  split at hc
  · cases hc
  · omega

theorem msgLimit_lt {p : Params} (h : p.wf = true) : msgLimit p < 2 ^ 64 := by
  unfold Params.wf at h; unfold msgLimit
  cases hm : p.msgCap with
  | none => simp
  | some c => rw [hm] at h; simp at h; simp; omega

/-- The frame-end actions keep `PreInv` (R142 to R144, R160, R162). -/
theorem frameEndCont_good {s : State} (h : EndReady 0x0#4 s) (p : Phase) : Good (frameEndCont p s) := by
  have hcap := cap_msg h.cap rfl
  have hlim := msgLimit_lt h.pre.params
  have hsum : (s.ra.len + s.f.len).toNat = s.ra.len.toNat + s.f.len.toNat := by
    rw [BitVec.toNat_add]; omega
  have ha : s.ra.active = true := (h.sequence rfl).mp rfl
  have hpre : PreInv { s with ra := { s.ra with len := s.ra.len + s.f.len } } := by
    have := setReasm_pre h.pre h.ph h.openCs (h.pre.parser.raActive ha) (len := s.ra.len + s.f.len)
      (by omega) (by rw [hsum]; exact h.msgThere rfl)
    rw [← ha] at this; exact this
  unfold frameEndCont
  simp only
  split_ifs
  · exact messageComplete_good hpre h.ph ha p
  · exact hpre

theorem frameEndText_good {s : State} (h : EndReady 0x1#4 s) (p : Phase) : Good (frameEndText p s) := by
  have hcap := cap_msg h.cap rfl
  have hi : s.ra.active = false := by
    have := (h.sequence rfl); simp at this; exact this
  have hz := (h.pre.parser.raIdle hi).2
  have hw := h.msgThere rfl
  rw [hz] at hw hcap
  have hpre := setReasm_pre h.pre h.ph h.openCs (.inl rfl) (len := s.f.len) (by simpa using hcap) (by simpa using hw)
  unfold frameEndText
  simp only
  split_ifs
  · exact messageComplete_good hpre h.ph rfl p
  · exact hpre

theorem frameEndBinary_good {s : State} (h : EndReady 0x2#4 s) (p : Phase) : Good (frameEndBinary p s) := by
  have hcap := cap_msg h.cap rfl
  have hi : s.ra.active = false := by
    have := (h.sequence rfl); simp at this; exact this
  have hz := (h.pre.parser.raIdle hi).2
  have hw := h.msgThere rfl
  rw [hz] at hw hcap
  have hpre := setReasm_pre h.pre h.ph h.openCs (.inr rfl) (len := s.f.len) (by simpa using hcap) (by simpa using hw)
  unfold frameEndBinary
  simp only
  split_ifs
  · exact messageComplete_good hpre h.ph rfl p
  · exact hpre

theorem crBusy_false {s : State} (h : crBusy s = false) :
    s.crPend = .none ∧ (s.enc.busy = true → s.enc.src = .host) := by
  unfold crBusy at h
  simp at h
  refine ⟨h.1, fun hb => ?_⟩
  have := h.2 hb
  cases hs : s.enc.src <;> simp_all

theorem ctrl_toNat {op : Opcode} {s : State} (hp : s.params.wf = true) (hc : capacityCheck op s = none) (hd : dest op = .ctrl) :
    (s.f.len.setWidth 32 : Word32).toNat = s.f.len.toNat := by
  have := cap_ctrl hc hd
  unfold Params.wf at hp
  simp at hp
  rw [BitVec.toNat_setWidth]
  omega

theorem frameEndPing_good {s : State} (h : EndReady 0x9#4 s) (p : Phase) : Good (frameEndPing p s) := by
  have hcap := cap_ctrl h.cap rfl
  have hn := ctrl_toNat h.pre.params h.cap rfl
  have hw := h.ctrlThere rfl
  obtain ⟨hcr, hsrc⟩ := crBusy_false h.alone.2
  have hpre : ∀ r : CtrlResp, (r = .none ∨ (r = .pong ∧ s.cs = .opened)) →
      PreInv { s with ctrl := { op := 0x9#4, len := s.f.len.setWidth 32 }, crPend := r } := by
    intro r hr
    refine ⟨h.pre.params, ⟨h.pre.buffers.1, h.pre.buffers.2, h.pre.buffers.3, h.pre.buffers.4, h.pre.buffers.5, h.pre.buffers.6⟩, ?_, ?_, ?_⟩
    · obtain ⟨a, b, c, d, e, f, g, i, j⟩ := h.pre.conn
      have := h.openCs
      constructor <;> first | assumption | (rcases hr with hr | ⟨hr, ho⟩ <;> simp_all)
    · obtain ⟨a, b, c, d, e, f, g, i, j, k, l, m, n, o⟩ := h.pre.parser
      have := h.ph
      constructor <;> first | assumption | simp_all [midFrame]
    · obtain ⟨a, b, c, d, e, f⟩ := h.pre.tx
      have hc1 : (s.f.len.setWidth 32 : Word32).toNat ≤ s.params.ctrlCap ∧
          s.ctrlbuf.written 0 (s.f.len.setWidth 32 : Word32).toNat = true := by rw [hn]; exact ⟨hcap, hw⟩
      constructor <;> first | assumption | exact hc1 | skip
      intro hb
      have := e hb
      rw [hsrc hb] at this
      show _ ≤ (match s.enc.src with | .host => _ | .ctrl => _)
      rw [hsrc hb]; exact this
  unfold frameEndPing
  simp only
  split_ifs with ho
  · exact hpre .pong (.inr ⟨rfl, ho⟩)
  · have := hpre .none (.inl rfl)
    rw [← hcr] at this; exact this

theorem frameEndClose_good {s : State} (h : EndReady 0x8#4 s) (p : Phase) : Good (frameEndClose p s) := by
  have hcap := cap_ctrl h.cap rfl
  have hn := ctrl_toNat h.pre.params h.cap rfl
  have hw := h.ctrlThere rfl
  obtain ⟨hcr, hsrc⟩ := crBusy_false h.alone.2
  have hal := h.pre.conn.alive (by rcases h.openCs with h | h <;> simp [h])
  have hec : s.endCause = .none := by
    by_contra hne
    have := h.pre.conn.ended.mpr hne
    rcases h.openCs with h | h <;> simp [h] at this
  have hpre : ∀ (r : CtrlResp) (c : ConnState), ((r = .none ∧ c = .closingSent) ∨ (r = .closeEcho ∧ c = .closingReceived)) →
      PreInv { s with
        ctrl := { op := 0x8#4, len := s.f.len.setWidth 32 }, closeRx := true, ph := .stop,
        ra := { active := false, op := 0, len := 0 }, cs := c, crPend := r } := by
    intro r c hr
    refine ⟨h.pre.params, ⟨h.pre.buffers.1, h.pre.buffers.2, h.pre.buffers.3, h.pre.buffers.4, h.pre.buffers.5, h.pre.buffers.6⟩, ?_, ?_, ?_⟩
    · constructor <;> rcases hr with ⟨hr, ho⟩ | ⟨hr, ho⟩ <;> simp [hr, ho, hec, hal]
    · have hd := h.pre.parser.delivered
      constructor <;> simp_all [midFrame, Memory.written]
    · obtain ⟨a, b, c, d, e, f⟩ := h.pre.tx
      have hc1 : (s.f.len.setWidth 32 : Word32).toNat ≤ s.params.ctrlCap ∧
          s.ctrlbuf.written 0 (s.f.len.setWidth 32 : Word32).toNat = true := by rw [hn]; exact ⟨hcap, hw⟩
      constructor <;> first | assumption | exact hc1 | skip
      intro hb
      have := e hb
      rw [hsrc hb] at this
      show _ ≤ (match s.enc.src with | .host => _ | .ctrl => _)
      rw [hsrc hb]; exact this
  unfold frameEndClose
  simp only
  split_ifs with ho
  · exact hpre .closeEcho .closingReceived (.inr ⟨rfl, rfl⟩)
  · have hcs : s.cs = .closingSent := by rcases h.openCs with h | h <;> simp_all
    have := hpre .none .closingSent (.inl ⟨rfl, rfl⟩)
    rw [← hcr, ← hcs] at this; exact this

/-- While the parser runs, a change of its own registers need only keep the parser's part. -/
theorem rxUpdate_pre {s : State} (h : PreInv s) (hp : s.ph ≠ .stop) {f : FrameHdr} {c : BitVec 3} {r : Word64} {q : Phase}
    (_hq : q ≠ .stop)
    (hpar : ParserOk { s with f := f, cnt := c, rxCount := r, ph := q }) :
    PreInv { s with f := f, cnt := c, rxCount := r, ph := q } where
  params := h.params
  buffers := ⟨h.buffers.1, h.buffers.2, h.buffers.3, h.buffers.4, h.buffers.5, h.buffers.6⟩
  conn := by
    obtain ⟨a, b, d, e, g, i, j, k, l⟩ := h.conn
    have hr := a hp
    constructor <;> first | assumption | skip
    · exact fun _ => hr
    · intro hc; exact absurd (i hc) hp
  parser := hpar
  tx := by
    obtain ⟨a, b, c, d, e, f⟩ := h.tx
    constructor <;> assumption

/-- Back at `HDR0` the parser asks nothing of its working registers. -/
theorem parser_hdr0 {s : State} (h : ParserOk s) {f : FrameHdr} {c : BitVec 3} {r : Word64} :
    ParserOk { s with f := f, cnt := c, rxCount := r, ph := .hdr0 } := by
  obtain ⟨a, b, d, e, g, i, j, k, l, m, n, o, p, q⟩ := h
  have ho : s.msgbuf.written 0 s.ra.len.toNat = true := memory_written_mono o (by omega)
  constructor <;> first | assumption | simp_all [midFrame]

theorem raiseOk {s : State} (h : Kept s) {f : FrameHdr} {c : BitVec 3} {r : Word64} {q : Phase} {e : ErrCode} (he : e ≠ .none)
    (p : Phase) (b : Bool) :
    Good (.next (raise e p b { s with f := f, cnt := c, rxCount := r, ph := q })) :=
  raise_pre (s := { s with f := f, cnt := c, rxCount := r, ph := q })
    ⟨h.params, ⟨h.buffers.1, h.buffers.2, h.buffers.3, h.buffers.4, h.buffers.5, h.buffers.6⟩, h.delivered, h.ctrlLen⟩ he p b

/-- Byte 0 keeps `PreInv` (R113 `HDR0`). -/
theorem byte0Step_good {s : State} (h : PreInv s) (he : rxEnabled s = true) (hp : s.ph = .hdr0) (r : Word64)
    {op : Opcode} {chk : State → Option ErrCode} (fin : Bool) (rsv : BitVec 3)
    (hne : ∀ u, chk u ≠ some .none)
    (hok : ∀ u : State, u.ra = s.ra → chk u = none →
      isReservedOp op = false ∧ (isDataOp op = true → (op = 0x0#4 ↔ s.ra.active = true))) :
    Good (byte0Step fin rsv op chk { s with rxCount := r }) := by
  unfold byte0Step
  simp only
  split
  · rename_i e hc
    exact raiseOk (q := s.ph) h.kept (fun hh => hne _ (hh ▸ hc)) _ _
  · rename_i hc
    obtain ⟨h1, h2⟩ := hok _ (by rfl) hc
    refine rxUpdate_pre h (by simp [hp]) (by decide) ?_
    have hal : s.msg.valid = false ∧ crBusy s = false := by
      unfold rxEnabled at he; simpa [hp] using he
    obtain ⟨a, b, d, e, g, i, j, k, l, m, n, o, p, q⟩ := h.parser
    rw [hp] at o
    constructor <;> first | assumption | simp_all [midFrame, byte0Hdr]
    exact hal.2

/-- The end of a header keeps `PreInv` (R113). -/
theorem headerDone_good {s : State} (h : PreInv s) (hp : s.ph ≠ .stop) (op : Opcode) (hmid : midFrame s = true)
    {fe : FrameEnd} (hfe : ∀ u p, EndReady op u → Good (fe p u)) (p : Phase)
    {f : FrameHdr} {c : BitVec 3} {r : Word64}
    (hfop : f.op = op) (hsop : s.f.op = op) (hidx : f.idx = 0) (hmask : f.mask = requiredMask s)
    (hcap : capacityCheck op { s with f := f } = none) :
    Good (headerDone fe p { s with f := f, cnt := c, rxCount := r }) := by
  have hpre0 : PreInv { s with f := f, cnt := c, rxCount := r, ph := .hdr0 } :=
    rxUpdate_pre h hp (by decide) (parser_hdr0 h.parser)
  have hal := h.parser.alone hmid
  have hop := h.parser.opcode hmid
  have hseq := h.parser.sequence hmid
  have hmw : s.msgbuf.written 0 s.ra.len.toNat = true := memory_written_mono h.parser.msgWritten (by omega)
  unfold headerDone
  split
  · rename_i hz
    have hz' : f.len = 0 := hz
    unfold frameEnd
    refine hfe _ _ ⟨hpre0, rfl, (h.conn.running hp).1, hal, by rw [← hsop]; exact hseq, ?_, ?_, ?_⟩
    · exact hcap
    · intro _; show s.msgbuf.written 0 (s.ra.len.toNat + f.len.toNat) = true
      rw [hz']; simpa using hmw
    · intro _; show s.ctrlbuf.written 0 f.len.toNat = true
      rw [hz']; simp [Memory.written]
  · rename_i hz
    refine rxUpdate_pre h hp (by decide) ?_
    have hz' : ¬ f.len = 0 := hz
    have hpos : 0 < f.len.toNat := by
      by_contra hc; exact hz' (BitVec.eq_of_toNat_eq (by simpa using hc))
    have hcap' : capacityCheck f.op { s with f := f, cnt := c, rxCount := r, ph := .pay } = none := by
      rw [hfop]; exact hcap
    obtain ⟨a, b, d, e, g, i, j, k, l, m, n, o, p', q⟩ := h.parser
    subst hsop
    constructor <;> first | assumption | skip
    · intro _; exact hal
    · intro _; show isReservedOp f.op = false; rw [hfop]; exact hop
    · intro _; show isDataOp f.op = true → (f.op = 0#4 ↔ s.ra.active = true); rw [hfop]; exact hseq
    · intro h; cases h
    · intro h; cases h
    · intro h; cases h
    · intro _; refine ⟨?_, hcap'⟩; show f.idx.toNat < f.len.toNat; rw [hidx]; simpa using hpos
    · intro _; exact hmask
    · show s.msgbuf.written 0 (s.ra.len.toNat + (if _ then f.idx.toNat else 0)) = true
      rw [hidx]; simpa using hmw
    · intro _ _; show s.ctrlbuf.written 0 f.idx.toNat = true; rw [hidx]; simp [Memory.written]

theorem capErr_ne {op : Opcode} {s : State} : capacityCheck op s ≠ some .none := by
  unfold capacityCheck
  split <;> (try split) <;> simp

/-- So does a length just known (R113, R115). -/
theorem lengthKnown_good {s : State} (h : PreInv s) (hp : s.ph ≠ .stop) (op : Opcode) (hmid : midFrame s = true)
    {fe : FrameEnd} (hfe : ∀ u p, EndReady op u → Good (fe p u)) (p : Phase)
    {f : FrameHdr} {c : BitVec 3} {r : Word64}
    (hfop : f.op = op) (hsop : s.f.op = op) (hidx : f.idx = 0) (hmask : f.mask = requiredMask s) :
    Good (lengthKnown op fe p { s with f := f, cnt := c, rxCount := r }) := by
  unfold lengthKnown
  split
  · rename_i e hc
    exact raiseOk (q := s.ph) h.kept (fun hh => capErr_ne (hh ▸ hc)) _ _
  · rename_i hc
    split
    · rename_i hm
      refine rxUpdate_pre h hp (by decide) ?_
      have hal := h.parser.alone hmid
      have hop := h.parser.opcode hmid
      have hseq := h.parser.sequence hmid
      have hmw : s.msgbuf.written 0 s.ra.len.toNat = true := memory_written_mono h.parser.msgWritten (by omega)
      obtain ⟨a, b, d, e, g, i, j, k, l, m, n, o, p', q⟩ := h.parser
      subst hsop
      constructor <;> first | assumption | skip
      · intro _; exact hal
      · intro _; show isReservedOp f.op = false; rw [hfop]; exact hop
      · intro _; show isDataOp f.op = true → (f.op = 0#4 ↔ s.ra.active = true); rw [hfop]; exact hseq
      · intro h; cases h
      · intro h; cases h
      · intro _; exact ⟨by show (0 : BitVec 3).toNat < 4; decide, hm, hidx, by rw [show FrameHdr.op _ = f.op from rfl, hfop]; exact hc⟩
      · intro h; cases h
      · intro _; exact hmask
      · simp
    · exact headerDone_good h hp op hmid hfe p hfop hsop hidx hmask hc

/-- Byte 1 keeps `PreInv` (R113 `HDR1`). -/
theorem byte1Step_good {s : State} (h : PreInv s) (hp : s.ph = .hdr1) (op : Opcode) (hsop : s.f.op = op)
    {fe : FrameEnd} (hfe : ∀ u p, EndReady op u → Good (fe p u)) (mask : Bool) (len7 : BitVec 7) (r : Word64) :
    Good (byte1Step op mask len7 fe { s with rxCount := r }) := by
  have hst : s.ph ≠ .stop := by simp [hp]
  have hmid : midFrame s = true := by simp [midFrame, hp]
  have h1 := h.parser.atByte1 hp
  unfold byte1Step
  simp only
  split
  · exact raiseOk (q := s.ph) h.kept (by decide) _ _
  · rename_i hm
    have hm' : mask = requiredMask s := by
      have : mask = requiredMask { s with f := { s.f with mask := mask, len7 := len7 }, rxCount := r } := by simpa using hm
      exact this
    split
    · exact lengthKnown_good (c := s.cnt) h hst op hmid hfe .hdr1 hsop hsop h1.2 hm'
    · rename_i hl
      refine rxUpdate_pre h hst (by decide) ?_
      have hal := h.parser.alone hmid
      have hop := h.parser.opcode hmid
      have hseq := h.parser.sequence hmid
      have hmw : s.msgbuf.written 0 s.ra.len.toNat = true := memory_written_mono h.parser.msgWritten (by omega)
      have hl2 : len7.toNat < 128 := len7.isLt
      obtain ⟨a, b, d, e, g, i, j, k, l, m, n, o, p', q⟩ := h.parser
      constructor <;> first | assumption | skip
      · intro _; exact hal
      · intro _; exact hop
      · intro _; exact hseq
      · intro h; cases h
      · intro _
        refine ⟨?_, ?_, h1.2⟩
        · show (0 : BitVec 3).toNat < extNeed len7
          unfold extNeed; have : (0 : BitVec 3).toNat = 0 := rfl; split_ifs <;> omega
        · show s.f.len.toNat < 256 ^ (0 : BitVec 3).toNat; rw [h1.1]; decide
      · intro h; cases h
      · intro h; cases h
      · intro _; exact hm'
      · simp

theorem extNeed_le (l : BitVec 7) : extNeed l ≤ 8 := by unfold extNeed; split_ifs <;> omega

theorem pushLen_lt {len : Word64} {b : Byte} {n : Nat} (hn : n < 8) (h : len.toNat < 256 ^ n) :
    (pushLenByte len b).toNat < 256 ^ (n + 1) := by
  unfold pushLenByte
  rw [BitVec.toNat_or, BitVec.toNat_shiftLeft, BitVec.toNat_setWidth]
  have hb := b.isLt
  have e1 : 256 ^ (n + 1) = 2 ^ (8 * (n + 1)) := by rw [pow_mul]; norm_num
  have e2 : 256 ^ n = 2 ^ (8 * n) := by rw [pow_mul]; norm_num
  rw [e1]
  refine Nat.or_lt_two_pow ?_ ?_
  · refine lt_of_le_of_lt (Nat.mod_le _ _) ?_
    rw [Nat.shiftLeft_eq, show 8 * (n + 1) = 8 * n + 8 by ring, pow_add]
    rw [e2] at h
    exact Nat.mul_lt_mul_of_pos_right h (by decide)
  · refine lt_of_le_of_lt (Nat.mod_le _ _) (lt_of_lt_of_le hb ?_)
    exact Nat.pow_le_pow_right (by decide) (by omega)

/-- An extended length byte keeps `PreInv` (R113 `EXT`). -/
theorem extStep_good {s : State} (h : PreInv s) (hp : s.ph = .ext) (op : Opcode) (hsop : s.f.op = op)
    {fe : FrameEnd} (hfe : ∀ u p, EndReady op u → Good (fe p u)) (b : Byte) (r : Word64) :
    Good (extStep op fe b { s with rxCount := r }) := by
  have hst : s.ph ≠ .stop := by simp [hp]
  have hmid : midFrame s = true := by simp [midFrame, hp]
  obtain ⟨h1, h2, h3⟩ := h.parser.atExt hp
  have hmk := h.parser.maskOk (.inl hp)
  have h8 := extNeed_le s.f.len7
  unfold extStep
  simp only
  split
  · exact lengthKnown_good h hst op hmid hfe .ext hsop hsop h3 hmk
  · rename_i hne
    have := rxUpdate_pre (q := .ext) (f := { s.f with len := pushLenByte s.f.len b }) (c := s.cnt + 1) (r := r)
      h hst (by decide) (by
      have hal := h.parser.alone hmid
      have hop := h.parser.opcode hmid
      have hseq := h.parser.sequence hmid
      have hmw : s.msgbuf.written 0 s.ra.len.toNat = true := memory_written_mono h.parser.msgWritten (by omega)
      obtain ⟨a, b', d, e, g, i, j, k, l, m, n, o, p', q⟩ := h.parser
      have hc : (s.cnt + 1).toNat = s.cnt.toNat + 1 := by
        rw [BitVec.toNat_add]
        have : (1 : BitVec 3).toNat = 1 := rfl
        omega
      constructor <;> first | assumption | skip
      · intro _; exact hal
      · intro _; exact hop
      · intro _; exact hseq
      · intro h; cases h
      · intro _
        refine ⟨?_, ?_, h3⟩
        · show (s.cnt + 1).toNat < extNeed s.f.len7; omega
        · show (pushLenByte s.f.len b).toNat < 256 ^ (s.cnt + 1).toNat
          rw [hc]; exact pushLen_lt (by omega) h2
      · intro h; cases h
      · intro h; cases h
      · intro _; exact hmk
      · simp)
    rw [← hp] at this
    exact this

/-- A key byte keeps `PreInv` (R113 `KEY`). -/
theorem keyStep_good {s : State} (h : PreInv s) (hp : s.ph = .key) (op : Opcode) (hsop : s.f.op = op)
    {fe : FrameEnd} (hfe : ∀ u p, EndReady op u → Good (fe p u)) (b : Byte) (r : Word64) :
    Good (keyStep fe b { s with rxCount := r }) := by
  have hst : s.ph ≠ .stop := by simp [hp]
  have hmid : midFrame s = true := by simp [midFrame, hp]
  obtain ⟨h1, h2, h3, h4⟩ := h.parser.atKey hp
  have hmk := h.parser.maskOk (.inr (.inl hp))
  unfold keyStep
  simp only
  split
  · exact headerDone_good h hst op hmid hfe .key hsop hsop h3 hmk (hsop ▸ h4)
  · rename_i hne
    have := rxUpdate_pre (q := .key) (f := { s.f with key := s.f.key.set s.cnt.toNat b }) (c := s.cnt + 1) (r := r)
      h hst (by decide) (by
      have hal := h.parser.alone hmid
      have hop := h.parser.opcode hmid
      have hseq := h.parser.sequence hmid
      have hmw : s.msgbuf.written 0 s.ra.len.toNat = true := memory_written_mono h.parser.msgWritten (by omega)
      obtain ⟨a, b', d, e, g, i, j, k, l, m, n, o, p', q⟩ := h.parser
      have hc : (s.cnt + 1).toNat = s.cnt.toNat + 1 := by
        rw [BitVec.toNat_add]
        have : (1 : BitVec 3).toNat = 1 := rfl
        omega
      constructor <;> first | assumption | skip
      · intro _; exact hal
      · intro _; exact hop
      · intro _; exact hseq
      · intro h; cases h
      · intro h; cases h
      · intro _; refine ⟨?_, h2, h3, h4⟩; show (s.cnt + 1).toNat < 4; omega
      · intro h; cases h
      · intro _; exact hmk
      · simp)
    rw [← hp] at this
    exact this

theorem dest_msg_ok {p : Params} (_hw : p.wf = true) {a : Nat} (h : a < msgLimit p) : bufIndexOk p .msgbuf a = true := by
  unfold bufIndexOk msgLimit at *
  cases hm : p.msgCap <;> simp_all

/-- What follows a stored payload byte keeps `PreInv` (R113 `PAY`). -/
theorem payNext_good {s : State} (h : PreInv s) (hp : s.ph = .pay) (op : Opcode) (hsop : s.f.op = op)
    {fe : FrameEnd} (hfe : ∀ u p, EndReady op u → Good (fe p u)) (r : Word64)
    (hw : s.msgbuf.written 0 (s.ra.len.toNat + (if dest s.f.op = .msg then s.f.idx.toNat + 1 else 0)) = true)
    (hc : dest s.f.op = .ctrl → s.ctrlbuf.written 0 (s.f.idx.toNat + 1) = true) :
    Good (payNext fe { s with rxCount := r }) := by
  have hst : s.ph ≠ .stop := by simp [hp]
  have hmid : midFrame s = true := by simp [midFrame, hp]
  obtain ⟨h1, h2⟩ := h.parser.atPay hp
  have hmk := h.parser.maskOk (.inr (.inr hp))
  have hal := h.parser.alone hmid
  have hop := h.parser.opcode hmid
  have hseq := h.parser.sequence hmid
  have hl := s.f.len.isLt
  have hadd : (s.f.idx + 1).toNat = s.f.idx.toNat + 1 := by
    rw [BitVec.toNat_add]
    have : (1 : BitVec 64).toNat = 1 := rfl
    omega
  unfold payNext
  simp only
  split
  · rename_i hend
    have hpre0 : PreInv { s with f := { s.f with idx := s.f.idx + 1 }, cnt := s.cnt, rxCount := r, ph := .hdr0 } :=
      rxUpdate_pre h hst (by decide) (parser_hdr0 h.parser)
    have hn : s.f.idx.toNat + 1 = s.f.len.toNat := by rw [← hadd, hend]
    refine hfe _ _ ⟨hpre0, rfl, (h.conn.running hst).1, hal, by rw [← hsop]; exact hseq, by rw [← hsop]; exact h2, ?_, ?_⟩
    · intro hd
      show s.msgbuf.written 0 (s.ra.len.toNat + s.f.len.toNat) = true
      rw [hsop, hd] at hw
      rw [← hn]; simpa using hw
    · intro hd
      show s.ctrlbuf.written 0 s.f.len.toNat = true
      rw [← hn]; exact hc (hsop ▸ hd)
  · rename_i hne
    have := rxUpdate_pre (q := .pay) (f := { s.f with idx := s.f.idx + 1 }) (c := s.cnt) (r := r)
      h hst (by decide) (by
      have hmw : s.msgbuf.written 0 s.ra.len.toNat = true := memory_written_mono h.parser.msgWritten (by omega)
      obtain ⟨a, b', d, e, g, i, j, k, l, m, n, o, p', q⟩ := h.parser
      constructor <;> first | assumption | skip
      · intro _; exact hal
      · intro _; exact hop
      · intro _; exact hseq
      · intro h; cases h
      · intro h; cases h
      · intro h; cases h
      · intro _; refine ⟨?_, h2⟩
        show (s.f.idx + 1).toNat < s.f.len.toNat
        have : s.f.idx.toNat + 1 ≠ s.f.len.toNat := fun hh => hne (BitVec.eq_of_toNat_eq (by rw [hadd]; exact hh))
        omega
      · intro _; exact hmk
      · show s.msgbuf.written 0 (s.ra.len.toNat + (if _ ∧ _ then (s.f.idx + 1).toNat else 0)) = true
        rw [hadd]; simpa using hw
      · intro _ hd; show s.ctrlbuf.written 0 (s.f.idx + 1).toNat = true; rw [hadd]; exact hc hd)
    rw [← hp] at this
    exact this

/-- A payload byte is stored inside its buffer, and keeps `PreInv` (R113 `PAY`, R117). -/
theorem payStep_good {s : State} (h : PreInv s) (hp : s.ph = .pay) (op : Opcode) (hsop : s.f.op = op)
    {fe : FrameEnd} (hfe : ∀ u p, EndReady op u → Good (fe p u)) (b : Byte) (r : Word64) :
    Good (payStep op fe b { s with rxCount := r }) := by
  obtain ⟨h1, h2⟩ := h.parser.atPay hp
  have hmw := h.parser.msgWritten
  have hcw := h.parser.ctrlArriving hp
  unfold payStep
  generalize maskByte _ _ _ _ = d
  subst hsop
  simp only
  unfold store
  cases hd : dest s.f.op with
  | msg =>
    have hcap := cap_msg h2 hd
    have hix : bufIndexOk s.params .msgbuf (s.ra.len.toNat + s.f.idx.toNat) = true := dest_msg_ok h.params (by omega)
    simp only [hix, if_true]
    simp only [hp, hd, and_self, if_true] at hmw
    have hpre : PreInv { s with msgbuf := s.msgbuf.write (s.ra.len.toNat + s.f.idx.toNat) d } := by
      refine ⟨h.params, ⟨memory_write_wf _ _ h.buffers.1, h.buffers.2, h.buffers.3, ?_, h.buffers.5, h.buffers.6⟩, ?_, ?_, ?_⟩
      · intro c hc
        rcases memory_mem_write hc with rfl | hc
        · exact hix
        · exact h.buffers.4 c hc
      · obtain ⟨a, b, d, e, g, i, j, k, l⟩ := h.conn
        constructor <;> assumption
      · obtain ⟨a, b', d, e, g, i, j, k, l, m, n, o, p', q⟩ := h.parser
        constructor <;> first | assumption | skip
        · exact memory_written_write o
        · intro hv; exact ⟨(q hv).1, memory_written_write (q hv).2⟩
      · obtain ⟨a, b, c, d, e, f⟩ := h.tx
        constructor <;> assumption
    refine payNext_good hpre hp _ rfl hfe r ?_ ?_
    · simp only [hd, if_true]; rw [← Nat.add_assoc]; exact memory_written_write_next hmw
    · simp [hd]
  | ctrl =>
    have hcap := cap_ctrl h2 hd
    have hix : bufIndexOk s.params .ctrlbuf s.f.idx.toNat = true := by simp [bufIndexOk]; omega
    simp only [hix, if_true]
    have hpre : PreInv { s with ctrlbuf := s.ctrlbuf.write s.f.idx.toNat d } := by
      refine ⟨h.params, ⟨h.buffers.1, memory_write_wf _ _ h.buffers.2, h.buffers.3, h.buffers.4, ?_, h.buffers.6⟩, ?_, ?_, ?_⟩
      · intro c hc
        rcases memory_mem_write hc with rfl | hc
        · exact hix
        · exact h.buffers.5 c hc
      · obtain ⟨a, b, d, e, g, i, j, k, l⟩ := h.conn
        constructor <;> assumption
      · obtain ⟨a, b', d, e, g, i, j, k, l, m, n, o, p', q⟩ := h.parser
        constructor <;> first | assumption | skip
        · intro h1 h2; exact memory_written_write (p' h1 h2)
      · obtain ⟨a, b, c, d, e, f⟩ := h.tx
        constructor <;> first | assumption | skip
        exact ⟨a.1, memory_written_write a.2⟩
    refine payNext_good hpre hp _ rfl hfe r ?_ ?_
    · simp only [hd]; simpa [hp, hd] using hmw
    · intro _; exact memory_written_write_next (hcw hd)
  | discard =>
    refine payNext_good h hp _ rfl hfe r ?_ ?_
    · simpa [hd] using hmw
    · simp [hd]
  | none =>
    refine payNext_good h hp _ rfl hfe r ?_ ?_
    · simpa [hd] using hmw
    · simp [hd]

/-- One RX byte of a frame keeps `PreInv`, whatever the frame-end action, if that keeps it (R113). -/
theorem rxFrameByte_good {s : State} (h : PreInv s) (op : Opcode) (fin : Bool) (rsv : BitVec 3) (mask : Bool) (len7 : BitVec 7)
    (hsop : midFrame s = true → s.f.op = op)
    {chk : State → Option ErrCode} (hne : ∀ u, chk u ≠ some .none)
    (hok : ∀ u : State, u.ra = s.ra → chk u = none →
      isReservedOp op = false ∧ (isDataOp op = true → (op = 0x0#4 ↔ s.ra.active = true)))
    {fe : FrameEnd} (hfe : ∀ u p, EndReady op u → Good (fe p u)) :
    Good (rxFrameByte op fin rsv mask len7 chk fe s) := by
  unfold rxFrameByte
  split
  · rename_i he
    simp only
    split
    · rename_i hp; exact byte0Step_good h he hp _ fin rsv hne hok
    · rename_i hp; exact byte1Step_good h hp op (hsop (by simp [midFrame, hp])) hfe mask len7 _
    · rename_i hp; exact extStep_good h hp op (hsop (by simp [midFrame, hp])) hfe _ _
    · rename_i hp; exact keyStep_good h hp op (hsop (by simp [midFrame, hp])) hfe _ _
    · rename_i hp; exact payStep_good h hp op (hsop (by simp [midFrame, hp])) hfe _ _
    · exact h
  · exact h

/-- A frame instruction whose opcode is the one in progress keeps `PreInv`. -/
theorem exec_frame_good {s : State} (h : PreInv s) {i : Instr} {op : Opcode} (hi : frameOpcode i = some op)
    (hsop : midFrame s = true → s.f.op = op) : Good (exec i s) := by
  have hcont : ∀ u : State, u.ra = s.ra → contCheck u = none → isReservedOp 0x0#4 = false ∧ (isDataOp 0x0#4 = true → (0x0#4 = 0x0#4 ↔ s.ra.active = true)) := by
    intro u hu hc; refine ⟨by decide, fun _ => ?_⟩
    unfold contCheck at hc; rw [hu] at hc; simp at hc; simp [hc]
  have hstart : ∀ op : Opcode, isReservedOp op = false → op ≠ 0 → ∀ u : State, u.ra = s.ra → startCheck u = none → isReservedOp op = false ∧ (isDataOp op = true → (op = 0x0#4 ↔ s.ra.active = true)) := by
    intro op h1 h2 u hu hc; refine ⟨h1, fun _ => ?_⟩
    unfold startCheck at hc; rw [hu] at hc; simp at hc; simp [hc]; exact h2
  have hcontne : ∀ u, contCheck u ≠ some .none := by intro u; unfold contCheck; split_ifs <;> simp
  have hstartne : ∀ u, startCheck u ≠ some .none := by intro u; unfold startCheck; split_ifs <;> simp
  cases i <;> simp only [frameOpcode, Option.some.injEq, reduceCtorEq] at hi <;> subst hi <;> simp only [exec]
  · exact rxFrameByte_good h _ _ _ _ _ hsop hcontne hcont (fun u p hu => frameEndCont_good hu p)
  · exact rxFrameByte_good h _ _ _ _ _ hsop hstartne (hstart _ (by decide) (by decide)) (fun u p hu => frameEndText_good hu p)
  · exact rxFrameByte_good h _ _ _ _ _ hsop hstartne (hstart _ (by decide) (by decide)) (fun u p hu => frameEndBinary_good hu p)
  all_goals first
    | exact rxFrameByte_good h _ _ _ _ _ hsop (by simp [reservedCheck]) (by simp [reservedCheck]) (fun u p hu => raise_pre hu.pre.kept (by decide) _ _)
    | exact rxFrameByte_good h _ _ _ _ _ hsop (by simp [noCheck]) (fun u _ _ => ⟨by decide, fun h => absurd h (by decide)⟩) (fun u p hu => frameEndClose_good hu p)
    | exact rxFrameByte_good h _ _ _ _ _ hsop (by simp [noCheck]) (fun u _ _ => ⟨by decide, fun h => absurd h (by decide)⟩) (fun u p hu => frameEndPing_good hu p)
    | exact rxFrameByte_good h _ _ _ _ _ hsop (by simp [noCheck]) (fun u _ _ => ⟨by decide, fun h => absurd h (by decide)⟩) (fun u p hu => hu.pre)

theorem opcodeOf_byte0Of (fin : Bool) (rsv : BitVec 3) (op : Opcode) : opcodeOf (byte0Of fin rsv op) = op := by
  revert fin rsv op; decide

/-- The header decoder gives a frame of the opcode that byte 0 holds (R91). -/
theorem decodeHeader_opcode (b0 b1 : Byte) : frameOpcode (decodeHeader b0 b1) = some (opcodeOf b0) := by
  have hl := (opcodeOf b0).isLt
  unfold decodeHeader
  simp only
  generalize hn : (opcodeOf b0).toNat = n at hl ⊢
  have ho : opcodeOf b0 = BitVec.ofNat 4 n := by rw [← hn, BitVec.ofNat_toNat, BitVec.setWidth_eq]
  rw [ho]
  clear hn ho
  interval_cases n <;> rfl

/-- Inside a frame, the frame fetched is the one in progress. -/
theorem fetch_opcode {s : State} (h : midFrame s = true) (b : Byte) : frameOpcode (fetchFrame s b) = some s.f.op := by
  unfold fetchFrame
  rw [decodeHeader_opcode]
  unfold headerBytes
  cases hp : s.ph <;> simp [midFrame, hp] at h ⊢ <;> exact opcodeOf_byte0Of _ _ _

/-- `PreInv` says nothing of the environment. -/
theorem env_pre {s : State} (h : PreInv s) (e : Env) : PreInv { s with env := e } := by
  obtain ⟨hp, hb, hc, ha, ht⟩ := h
  refine ⟨hp, ⟨hb.1, hb.2, hb.3, hb.4, hb.5, hb.6⟩, ?_, ?_, ?_⟩
  · obtain ⟨a, b, d, e, g, i, j, k, l⟩ := hc; constructor <;> assumption
  · obtain ⟨a, b', d, e, g, i, j, k, l, m, n, o, p', q⟩ := ha; constructor <;> assumption
  · obtain ⟨a, b, c, d, e, f⟩ := ht; constructor <;> assumption

end Sys2Proof.Machine
end

