-- ==== Sys2Proof/Laws/InvariantHost.lean ====
section
/-! SUPPORT. What the commands, the host port and the TX framer do to the invariant of Safety.lean. -/
namespace Sys2Proof.Machine

/-- The reject action keeps `PreInv` (R212). -/
theorem reject_pre {s : State} (h : PreInv s) : PreInv (reject s) := by
  obtain ⟨hp, hb, hc, ha, ht⟩ := h
  refine ⟨hp, ⟨hb.1, hb.2, hb.3, hb.4, hb.5, hb.6⟩, ?_, ?_, ?_⟩
  · obtain ⟨a, b, d, e, g, i, j, k, l⟩ := hc; constructor <;> assumption
  · obtain ⟨a, b', d, e, g, i, j, k, l, m, n, o, p', q⟩ := ha; constructor <;> assumption
  · obtain ⟨a, b, c, d, e, f⟩ := ht; constructor <;> assumption

/-- A command keeps `PreInv` (R210 to R220). -/
theorem exec_command_good {s : State} (h : PreInv s) {i : Instr} (hi : frameOpcode i = none) : Good (exec i s) := by
  have hr := reject_pre h
  obtain ⟨hp, hb, hc, ha, ht⟩ := id h
  cases i <;> simp only [frameOpcode, reduceCtorEq] at hi <;> simp only [exec]
  · exact h
  · unfold execHsDone; split
    · rename_i hcs
      obtain ⟨a, b, d, e, g, i, j, k, l⟩ := hc
      have hal := h.conn.alive (by simp [hcs])
      refine ⟨hp, ⟨hb.1, hb.2, hb.3, hb.4, hb.5, hb.6⟩, ?_, ?_, ?_⟩
      · have := d
        constructor <;> first | assumption | simp_all
      · have hx : ParserOk { s with f := s.f, cnt := 0, rxCount := s.rxCount, ph := .hdr0 } := parser_hdr0 ha
        obtain ⟨a, b', d, e, g, i, j, k, l, m, n, o, p', q⟩ := hx; constructor <;> assumption
      · obtain ⟨a, b, c, d, e, f⟩ := ht; constructor <;> assumption
    · exact hr
  · unfold execHsFail; split
    · exact raise_pre h.kept (by decide) _ _
    · exact hr
  · unfold execMsgAck; split
    · refine ⟨hp, ⟨hb.1, hb.2, hb.3, hb.4, hb.5, hb.6⟩, ?_, ?_, ?_⟩
      · obtain ⟨a, b, d, e, g, i, j, k, l⟩ := hc; constructor <;> assumption
      · obtain ⟨a, b', d, e, g, i, j, k, l, m, n, o, p', q⟩ := ha
        constructor <;> first | assumption | skip
        · intro hm; exact ⟨rfl, (e hm).2⟩
        · simp
      · obtain ⟨a, b, c, d, e, f⟩ := ht; constructor <;> assumption
    · exact hr
  · unfold execTxData; split
    · rename_i hl
      unfold txDataLegal at hl
      simp at hl
      refine ⟨hp, ⟨hb.1, hb.2, hb.3, hb.4, hb.5, hb.6⟩, ?_, ?_, ?_⟩
      · obtain ⟨a, b, d, e, g, i, j, k, l⟩ := hc; constructor <;> first | assumption | simp_all
      · obtain ⟨a, b', d, e, g, i, j, k, l, m, n, o, p', q⟩ := ha; constructor <;> assumption
      · obtain ⟨a, b, c, d, e, f⟩ := ht; constructor <;> first | assumption | simp_all
    · exact hr
  · unfold execTxClose; split
    · rename_i hl
      unfold txCloseLegal at hl
      simp at hl
      refine ⟨hp, ⟨hb.1, hb.2, hb.3, hb.4, hb.5, hb.6⟩, ?_, ?_, ?_⟩
      · obtain ⟨a, b, d, e, g, i, j, k, l⟩ := hc; constructor <;> first | assumption | simp_all
      · obtain ⟨a, b', d, e, g, i, j, k, l, m, n, o, p', q⟩ := ha; constructor <;> assumption
      · obtain ⟨a, b, c, d, e, f⟩ := ht; constructor <;> first | assumption | simp_all
    · exact hr
  · unfold execAbort; split
    · rename_i hne
      obtain ⟨hf, he⟩ := hc.alive hne
      exact closeDone_pre h.kept hf he (by decide) (by decide)
    · exact hr
  · refine ⟨hp, ⟨hb.1, hb.2, hb.3, hb.4, hb.5, hb.6⟩, ?_, ?_, ?_⟩
    · obtain ⟨a, b, d, e, g, i, j, k, l⟩ := hc; constructor <;> assumption
    · obtain ⟨a, b', d, e, g, i, j, k, l, m, n, o, p', q⟩ := ha; constructor <;> assumption
    · obtain ⟨a, b, c, d, e, f⟩ := ht; constructor <;> assumption
  · exact hr

theorem decodeCommand_opcode (w : Word32) : frameOpcode (decodeCommand w) = none := by
  unfold decodeCommand
  simp only
  split <;> rfl

/-- `PreInv` does not read these fields. -/
theorem plain_pre {s : State} (h : PreInv s) (rej : Bool) (irq : Irq) (tc : TxCtrl) (tl : Word64) (e : Env) :
    PreInv { s with cmdRej := rej, irq := irq, txCtrl := tc, txLen := tl, env := e } := by
  obtain ⟨hp, hb, hc, ha, ht⟩ := h
  refine ⟨hp, ⟨hb.1, hb.2, hb.3, hb.4, hb.5, hb.6⟩, ?_, ?_, ?_⟩
  · obtain ⟨a, b, d, e, g, i, j, k, l⟩ := hc; constructor <;> assumption
  · obtain ⟨a, b', d, e, g, i, j, k, l, m, n, o, p', q⟩ := ha; constructor <;> assumption
  · obtain ⟨a, b, c, d, e, f⟩ := ht; constructor <;> assumption

/-- A register write keeps `PreInv` (R63). -/
theorem csrWrite_good {s : State} (h : PreInv s) (r : Csr) (w : Word32) : Good (csrWrite r w s) := by
  cases r <;> simp only [csrWrite] <;> try exact h
  · show PreInv (writeCfg w s)
    unfold writeCfg; split
    · rename_i hcs
      obtain ⟨hp, hb, hc, ha, ht⟩ := h
      have hst : s.ph = .stop := by
        by_contra hn; rcases (hc.running hn).1 with h | h <;> simp [hcs] at h
      obtain ⟨q1, q2, q3, q4⟩ := hc.quiet (.inl hcs)
      refine ⟨hp, ⟨hb.1, hb.2, hb.3, hb.4, hb.5, hb.6⟩, ?_, ?_, ?_⟩
      · obtain ⟨a, b, d, e, g, i, j, k, l⟩ := hc; constructor <;> assumption
      · obtain ⟨a, b', d, e, g, i, j, k, l, m, n, o, p', q⟩ := ha
        constructor <;> first | assumption | simp_all
      · obtain ⟨a, b, c, d, e, f⟩ := ht; constructor <;> first | assumption | simp_all
    · exact reject_pre h
  · exact exec_command_good h (decodeCommand_opcode w)
  · exact plain_pre h s.cmdRej s.irq _ s.txLen s.env
  · exact plain_pre h s.cmdRej s.irq s.txCtrl _ s.env
  · exact plain_pre h s.cmdRej s.irq s.txCtrl _ s.env
  · exact plain_pre h s.cmdRej _ s.txCtrl s.txLen s.env
  · exact plain_pre h s.cmdRej _ s.txCtrl s.txLen s.env

theorem readOrDraw_pre {s : State} (h : PreInv s) (b : Buf) (i : Nat) : PreInv (readOrDraw b i s).2 := by
  unfold readOrDraw; split
  · exact h
  · exact env_pre h _

/-- A host access keeps `PreInv` (R62 to R65). -/
theorem hostAccess_good {s : State} (h : PreInv s) (a : HostAccess) : Good (hostAccess a s) := by
  cases a with
  | csrRead w o => simp only [hostAccess]; split; exacts [env_pre h _, trivial]
  | csrWrite w o d =>
    simp only [hostAccess]; split
    · unfold csrWriteAt; split
      · exact csrWrite_good h _ _
      · exact h
    · trivial
  | bufRead b w i =>
    simp only [hostAccess]; split
    · refine env_pre (s := (hostBufByte b i s).2) ?_ _
      unfold hostBufByte; split
      · exact readOrDraw_pre h b i
      · exact env_pre h _
    · trivial
  | bufWrite b w i d =>
    simp only [hostAccess]; split
    · rename_i hok
      unfold hostBufWrite
      cases b with
      | msgbuf => exact h
      | ctrlbuf => exact h
      | txbuf =>
        obtain ⟨hp, hb, hc, ha, ht⟩ := h
        have hix : bufIndexOk s.params .txbuf i = true := by unfold bufAccessOk at hok; simp at hok; exact hok.2
        refine ⟨hp, ⟨hb.1, hb.2, memory_write_wf _ _ hb.3, hb.4, hb.5, ?_⟩, ?_, ?_, ?_⟩
        · intro c hc
          rcases memory_mem_write hc with rfl | hc
          · exact hix
          · exact hb.6 c hc
        · obtain ⟨a, b, d, e, g, i, j, k, l⟩ := hc; constructor <;> assumption
        · obtain ⟨a, b', d, e, g, i, j, k, l, m, n, o, p', q⟩ := ha; constructor <;> assumption
        · obtain ⟨a, b, c, d, e, f⟩ := ht; constructor <;> assumption
    · trivial

theorem buildHeader_length (fin : Bool) (op : Opcode) (m : Bool) (k : Key) (n : Word64) :
    2 ≤ (buildHeader fin op m k n).length ∧ (buildHeader fin op m k n).length ≤ 14 := by
  have he : (encLen n).2.length ≤ 8 := by unfold encLen; split_ifs <;> simp
  unfold buildHeader Key.bytes
  cases m <;> simp <;> omega

/-- The start of a frame keeps `PreInv` (R181). -/
theorem txStartWith_pre {s : State} (h : PreInv s) (hg : txStartEnabled s = true) (m : Bool) (k : Key)
    (hm : m = s.cfg.role.bit) : PreInv (txStartWith m k s) := by
  unfold txStartEnabled at hg
  simp only [Bool.and_eq_true, Bool.or_eq_true, decide_eq_true_eq, Bool.not_eq_true'] at hg
  obtain ⟨⟨hb, hcs⟩, hreq⟩ := hg
  obtain ⟨hp, hbu, hc, ha, ht⟩ := h
  have hlen := buildHeader_length (txRequest s).fin (txRequest s).op m k (txRequest s).len
  refine ⟨hp, ⟨hbu.1, hbu.2, hbu.3, hbu.4, hbu.5, hbu.6⟩, ?_, ?_, ?_⟩
  · obtain ⟨a, b, d, e, g, i, j, k, l⟩ := hc
    constructor <;> first | assumption | simp
    · intro hq; rcases hq with hq | hq <;> rcases hcs with h | h | h <;> simp [hq] at h
  · obtain ⟨a, b', d, e, g, i, j, k', l, m', n, o, p', q⟩ := ha
    constructor <;> first | assumption | skip
    intro hmid
    obtain ⟨v1, v2⟩ := e hmid
    obtain ⟨hcr, _⟩ := crBusy_false v2
    refine ⟨v1, ?_⟩
    simp [crBusy, encoderFor, txRequest, hcr]
  · obtain ⟨a, b, c, d, e, f⟩ := ht
    constructor <;> first | assumption | skip
    · simp only [txStartWith_ht, txStartWith_params]
      intro h1; split at h1
      · cases h1
      · exact b h1
    · intro _; exact hlen
    · intro _; simp only [txStartWith_enc, encoderFor]
      have : (0 : Word64).toNat = 0 := rfl
      omega
    · intro _; simp only [txStartWith_enc, encoderFor, txRequest]
      have hc32 : s.ctrl.len.toNat < 2 ^ 32 := s.ctrl.len.isLt
      cases hcr : s.crPend with
      | none =>
        simp only [hcr] at hreq ⊢
        rcases hreq with hreq | hreq
        · exact absurd rfl hreq
        · exact b hreq.1
      | pong => simp; omega
      | closeEcho =>
        simp only
        cases s.cfg.closeEcho <;> simp ; omega
    · intro _; exact hm

/-- The emission of a byte keeps `PreInv` (R185). -/
theorem txEmit_pre {s : State} (h : PreInv s) (hb : s.enc.busy = true) (o : Byte) : PreInv (txEmit o s) := by
  have hp := h.params
  have hw : s.params.txCap < 2 ^ 32 ∧ s.params.ctrlCap < 2 ^ 32 := by
    unfold Params.wf at hp; simp at hp; omega
  obtain ⟨hp, hbu, hc, ha, ht⟩ := h
  obtain ⟨a, b, c, d, e, f⟩ := ht
  have hleft := d hb; have hfit := e hb; have hhdr := c hb
  have hplen : s.enc.plen.toNat < 2 ^ 32 := by
    cases hs : s.enc.src <;> rw [hs] at hfit <;> simp at hfit <;> omega
  have hadd : (s.enc.pos + 1).toNat = s.enc.pos.toNat + 1 := by
    rw [BitVec.toNat_add]
    have : (1 : BitVec 64).toNat = 1 := rfl
    omega
  refine ⟨hp, ⟨hbu.1, hbu.2, hbu.3, hbu.4, hbu.5, hbu.6⟩, ?_, ?_, ?_⟩
  · obtain ⟨a, b, d, e, g, i, j, k, l⟩ := hc
    constructor <;> first | assumption | skip
    intro hq
    obtain ⟨q1, q2, q3, q4⟩ := g hq
    simp [hb] at q3
  · obtain ⟨a, b', d, e, g, i, j, k', l, m', n, o, p', q⟩ := ha
    constructor <;> first | assumption | skip
    intro hmid
    obtain ⟨v1, v2⟩ := e hmid
    obtain ⟨hcr, hsrc⟩ := crBusy_false v2
    refine ⟨v1, ?_⟩
    simp [crBusy, txEmit, hcr, hsrc hb]
  · constructor
    · exact a
    · exact b
    · intro _; exact hhdr
    · intro hbb
      simp only [txEmit, hb, Bool.true_and, Bool.not_eq_true', decide_eq_false_iff_not] at hbb
      show (s.enc.pos + 1).toNat < s.enc.hdr.length + s.enc.plen.toNat
      omega
    · intro _; exact hfit
    · intro _; exact f hb

end Sys2Proof.Machine
end

