-- ==== Sys2Proof/Laws/Ops.lean ====
section
/-! SUPPORT. What each shared operation answers, said once: the RX byte by phase, a byte that ends a frame, `store`, the completion of a message, `settle`, and one step. -/
namespace Sys2Proof.Machine

/-! ## The index ranges of the buffer spaces (R60) -/

/-- An index is in its space exactly when it is below the space's capacity, or the space is an unbounded `MSGBUF` (R60). -/
theorem bufIndexOk_iff {p : Params} {b : Buf} {idx : Nat} :
    bufIndexOk p b idx = true ↔
      (b = .msgbuf ∧ (p.msgCap = none ∨ ∃ c, p.msgCap = some c ∧ idx < c)) ∨
        (b = .ctrlbuf ∧ idx < p.ctrlCap) ∨ (b = .txbuf ∧ idx < p.txCap) := by
  cases b with
  | msgbuf => cases h : p.msgCap <;> simp [bufIndexOk, h]
  | ctrlbuf => simp [bufIndexOk]
  | txbuf => simp [bufIndexOk]

/-- An index is outside its space exactly when it is at or past the space's capacity (R60). -/
theorem bufIndexOk_eq_false_iff {p : Params} {b : Buf} {idx : Nat} :
    bufIndexOk p b idx = false ↔
      (b = .msgbuf ∧ ∃ c, p.msgCap = some c ∧ c ≤ idx) ∨
        (b = .ctrlbuf ∧ p.ctrlCap ≤ idx) ∨ (b = .txbuf ∧ p.txCap ≤ idx) := by
  cases b with
  | msgbuf => cases h : p.msgCap <;> simp [bufIndexOk, h]
  | ctrlbuf => simp [bufIndexOk]
  | txbuf => simp [bufIndexOk]

/-! ## The guard of an RX byte -/

/-- Inside a frame the guard holds (R112). -/
theorem rxEnabled_of_midFrame {s : State} (h : midFrame s = true) : rxEnabled s = true := by
  unfold midFrame at h
  unfold rxEnabled
  simp_all

/-- Between frames the guard holds when no message is held and no control response is in the way (R112). -/
theorem rxEnabled_hdr0_iff {s : State} (h : s.ph = .hdr0) :
    rxEnabled s = true ↔ s.msg.valid = false ∧ crBusy s = false := by
  unfold rxEnabled
  simp [h]

/-- A stopped parser takes no byte (R112). -/
theorem rxEnabled_stop {s : State} (h : s.ph = .stop) : rxEnabled s = false := by
  unfold rxEnabled
  simp [h]

/-! ## The RX byte by phase (R113) -/

section RxByte
variable {op : Opcode} {fin : Bool} {rsv : BitVec 3} {mask : Bool} {len7 : BitVec 7}
  {check0 : State → Option ErrCode} {atEnd : FrameEnd} {s : State}

theorem rxFrameByte_held (h : rxEnabled s = false) :
    rxFrameByte op fin rsv mask len7 check0 atEnd s = .next s := by
  unfold rxFrameByte
  simp [h]

theorem rxFrameByte_hdr0 (he : rxEnabled s = true) (h : s.ph = .hdr0) :
    rxFrameByte op fin rsv mask len7 check0 atEnd s = byte0Step fin rsv op check0 (countRx s) := by
  unfold rxFrameByte
  rw [if_pos he]
  split <;> first | rfl | simp_all

theorem rxFrameByte_hdr1 (h : s.ph = .hdr1) :
    rxFrameByte op fin rsv mask len7 check0 atEnd s = byte1Step op mask len7 atEnd (countRx s) := by
  unfold rxFrameByte
  rw [if_pos (rxEnabled_of_midFrame (by simp [midFrame, h]))]
  split <;> first | rfl | simp_all

theorem rxFrameByte_ext (h : s.ph = .ext) :
    rxFrameByte op fin rsv mask len7 check0 atEnd s = extStep op atEnd s.env.rxData (countRx s) := by
  unfold rxFrameByte
  rw [if_pos (rxEnabled_of_midFrame (by simp [midFrame, h]))]
  split <;> first | rfl | simp_all

theorem rxFrameByte_key (h : s.ph = .key) :
    rxFrameByte op fin rsv mask len7 check0 atEnd s = keyStep atEnd s.env.rxData (countRx s) := by
  unfold rxFrameByte
  rw [if_pos (rxEnabled_of_midFrame (by simp [midFrame, h]))]
  split <;> first | rfl | simp_all

theorem rxFrameByte_pay (h : s.ph = .pay) :
    rxFrameByte op fin rsv mask len7 check0 atEnd s = payStep op atEnd s.env.rxData (countRx s) := by
  unfold rxFrameByte
  rw [if_pos (rxEnabled_of_midFrame (by simp [midFrame, h]))]
  split <;> first | rfl | simp_all

end RxByte

/-! ## Parts of the RX byte -/

/-- Whatever the working registers but the length, the capacity check gives one answer (R114 (d)). -/
theorem capacityCheck_congr {op : Opcode} {s t : State} (hp : t.params = s.params) (hr : t.ra.len = s.ra.len)
    (hl : t.f.len = s.f.len) : capacityCheck op t = capacityCheck op s := by
  unfold capacityCheck
  rw [hp, hr, hl]

theorem store_msg {i : Nat} {b : Byte} {s : State} (h : bufIndexOk s.params .msgbuf (s.ra.len.toNat + i) = true) :
    store .msg i b s = .next { s with msgbuf := s.msgbuf.write (s.ra.len.toNat + i) b } := by
  simp [store, h]

theorem store_ctrl {i : Nat} {b : Byte} {s : State} (h : bufIndexOk s.params .ctrlbuf i = true) :
    store .ctrl i b s = .next { s with ctrlbuf := s.ctrlbuf.write i b } := by
  simp [store, h]

/-- What `store` may answer (R117): a state whose destination buffer alone has changed, at the one index; or a fault. -/
theorem store_cases (d : Dest) (i : Nat) (b : Byte) (s : State) :
    (d = .msg ∧ store d i b s = .next { s with msgbuf := s.msgbuf.write (s.ra.len.toNat + i) b }) ∨
    (d = .ctrl ∧ store d i b s = .next { s with ctrlbuf := s.ctrlbuf.write i b }) ∨
    ((d = .discard ∨ d = .none) ∧ store d i b s = .next s) ∨
    ∃ r, store d i b s = .fault r := by
  cases d
  · unfold store
    by_cases h : bufIndexOk s.params .msgbuf (s.ra.len.toNat + i) = true <;> simp [h]
  · unfold store
    by_cases h : bufIndexOk s.params .ctrlbuf i = true <;> simp [h]
  · simp [store]
  · simp [store]

/-- What `length_known` may answer (R113): the capacity fault, the phase `KEY`, or the end of the header. -/
theorem lengthKnown_cases (op : Opcode) (atEnd : FrameEnd) (p : Phase) (s : State) :
    (∃ e, capacityCheck op s = some e ∧ lengthKnown op atEnd p s = .next (raise e p true s)) ∨
    (capacityCheck op s = none ∧ s.f.mask = true ∧ lengthKnown op atEnd p s = .next { s with ph := .key, cnt := 0 }) ∨
    (capacityCheck op s = none ∧ s.f.mask = false ∧ lengthKnown op atEnd p s = headerDone atEnd p s) := by
  unfold lengthKnown
  cases hc : capacityCheck op s <;> cases hm : s.f.mask <;> simp

theorem lengthKnown_unmasked {op : Opcode} {atEnd : FrameEnd} {p : Phase} {s : State}
    (hc : capacityCheck op s = none) (hm : s.f.mask = false) :
    lengthKnown op atEnd p s = headerDone atEnd p s := by
  simp [lengthKnown, hc, hm]

theorem lengthKnown_masked {op : Opcode} {atEnd : FrameEnd} {p : Phase} {s : State}
    (hc : capacityCheck op s = none) (hm : s.f.mask = true) :
    lengthKnown op atEnd p s = .next { s with ph := .key, cnt := 0 } := by
  simp [lengthKnown, hc, hm]

theorem lengthKnown_over {op : Opcode} {atEnd : FrameEnd} {p : Phase} {s : State} {e : ErrCode}
    (hc : capacityCheck op s = some e) : lengthKnown op atEnd p s = .next (raise e p true s) := by
  simp [lengthKnown, hc]

theorem headerDone_empty {atEnd : FrameEnd} {p : Phase} {s : State} (h : s.f.len = 0) :
    headerDone atEnd p s = atEnd p { s with ph := .hdr0 } := by
  simp [headerDone, h, frameEnd]

theorem headerDone_payload {atEnd : FrameEnd} {p : Phase} {s : State} (h : s.f.len ≠ 0) :
    headerDone atEnd p s = .next { s with ph := .pay } := by
  unfold headerDone
  rw [if_neg h]

/-- Byte 1 with the MASK the role does not require (R114 (c)). -/
theorem byte1Step_wrong_mask {op : Opcode} {mask : Bool} {len7 : BitVec 7} {atEnd : FrameEnd} {s : State}
    (hm : mask ≠ requiredMask s) :
    byte1Step op mask len7 atEnd s =
      .next (raise .pvMaskPolicy .hdr1 true { s with f := { s.f with mask := mask, len7 := len7 } }) := by
  unfold byte1Step
  exact if_pos hm

/-- Byte 1 with a base length that is the length (R113 `HDR1`). -/
theorem byte1Step_short {op : Opcode} {mask : Bool} {len7 : BitVec 7} {atEnd : FrameEnd} {s : State}
    (hm : mask = requiredMask s) (hl : len7.toNat ≤ 125) :
    byte1Step op mask len7 atEnd s = lengthKnown op atEnd .hdr1
      { s with f := { s.f with mask := mask, len7 := len7, len := len7.setWidth 64 } } := by
  unfold byte1Step
  exact (if_neg (not_not.mpr hm)).trans (if_pos hl)

/-- Byte 1 with a base length that announces an extended one (R113 `HDR1`). -/
theorem byte1Step_extended {op : Opcode} {mask : Bool} {len7 : BitVec 7} {atEnd : FrameEnd} {s : State}
    (hm : mask = requiredMask s) (hl : 126 ≤ len7.toNat) :
    byte1Step op mask len7 atEnd s =
      .next { s with f := { s.f with mask := mask, len7 := len7 }, ph := .ext, cnt := 0 } := by
  unfold byte1Step
  exact (if_neg (not_not.mpr hm)).trans (if_neg (by omega))

/-- The extended length byte that is not the last (R113 `EXT`). -/
theorem extStep_more {op : Opcode} {atEnd : FrameEnd} {b : Byte} {s : State}
    (h : s.cnt.toNat + 1 ≠ extNeed s.f.len7) :
    extStep op atEnd b s = .next { s with f := { s.f with len := pushLenByte s.f.len b }, cnt := s.cnt + 1 } := by
  unfold extStep
  exact if_neg h

/-- The last extended length byte makes the length known (R113 `EXT`, R115). -/
theorem extStep_last {op : Opcode} {atEnd : FrameEnd} {b : Byte} {s : State}
    (h : s.cnt.toNat + 1 = extNeed s.f.len7) :
    extStep op atEnd b s = lengthKnown op atEnd .ext
      { s with f := { s.f with len := pushLenByte s.f.len b }, cnt := s.cnt + 1 } := by
  unfold extStep
  exact if_pos h

/-- A key byte that is not the last (R113 `KEY`). -/
theorem keyStep_more {atEnd : FrameEnd} {b : Byte} {s : State} (h : s.cnt.toNat + 1 ≠ 4) :
    keyStep atEnd b s = .next { s with f := { s.f with key := s.f.key.set s.cnt.toNat b }, cnt := s.cnt + 1 } := by
  unfold keyStep
  exact if_neg h

/-- The last key byte ends the header (R113 `KEY`). -/
theorem keyStep_last {atEnd : FrameEnd} {b : Byte} {s : State} (h : s.cnt.toNat + 1 = 4) :
    keyStep atEnd b s = headerDone atEnd .key
      { s with f := { s.f with key := s.f.key.set s.cnt.toNat b }, cnt := s.cnt + 1 } := by
  unfold keyStep
  exact if_pos h

/-- A payload byte that has been stored (R113 `PAY`, R117). -/
theorem payStep_stored {op : Opcode} {atEnd : FrameEnd} {b : Byte} {s t : State}
    (h : store (dest op) s.f.idx.toNat (maskByte s.f.mask s.f.key s.f.idx.toNat b) s = .next t) :
    payStep op atEnd b s = payNext atEnd t := by
  unfold payStep
  rw [h]

/-- A payload byte that is stored and is not the frame's last (R113 `PAY`). -/
theorem payNext_more {atEnd : FrameEnd} {s : State} (h : s.f.idx + 1 ≠ s.f.len) :
    payNext atEnd s = .next { s with f := { s.f with idx := s.f.idx + 1 } } := by
  unfold payNext
  exact if_neg h

/-- The frame's last payload byte ends it (R113 `PAY`). -/
theorem payNext_last {atEnd : FrameEnd} {s : State} (h : s.f.idx + 1 = s.f.len) :
    payNext atEnd s = atEnd .pay { s with f := { s.f with idx := s.f.idx + 1 }, ph := .hdr0 } := by
  unfold payNext
  exact if_pos h

/-- The frame opcode's own action is what a byte that ends the frame runs, in the state of `frameEndState` (R111, R119). -/
theorem rxFrameByte_of_frameEndState {op : Opcode} {fin : Bool} {rsv : BitVec 3} {mask : Bool} {len7 : BitVec 7}
    {check0 : State → Option ErrCode} {atEnd : FrameEnd} {s t : State}
    (h : frameEndState op mask len7 s = some t) :
    rxFrameByte op fin rsv mask len7 check0 atEnd s = atEnd s.ph t := by
  unfold frameEndState at h
  simp only at h
  split at h
  · rename_i hp
    split at h
    · rename_i hc
      obtain ⟨h1, h2, h3, h4⟩ := hc
      cases h
      subst h1 h3
      rw [rxFrameByte_hdr1 hp, hp, byte1Step_short (s := countRx s) h2.symm (by decide),
        lengthKnown_unmasked (by rw [← h4]; exact capacityCheck_congr rfl rfl rfl) rfl, headerDone_empty rfl]
      rfl
    · cases h
  · rename_i hp
    split at h
    · rename_i hc
      obtain ⟨h1, h2, h3, h4⟩ := hc
      cases h
      rw [rxFrameByte_ext hp, hp]
      rw [extStep_last (s := countRx s) h2]
      simp only [countRx_f, countRx_cnt, h3]
      have hc : capacityCheck op { countRx s with f := { s.f with len := 0 }, cnt := s.cnt + 1 } = none := by
        rw [← h4]; exact capacityCheck_congr rfl rfl rfl
      exact (lengthKnown_unmasked hc h1).trans (headerDone_empty rfl)
    · cases h
  · rename_i hp
    split at h
    · rename_i hc
      obtain ⟨h1, h2⟩ := hc
      cases h
      rw [rxFrameByte_key hp, hp]
      simp [keyStep, h1, headerDone, h2, frameEnd]
    · cases h
  · rename_i hp
    split at h
    · rename_i hc
      split at h
      · rename_i u hs
        cases h
        have hu : u.f = s.f := by
          rcases store_cases (dest op) s.f.idx.toNat (maskByte s.f.mask s.f.key s.f.idx.toNat s.env.rxData) (countRx s) with
            ⟨_, hst⟩ | ⟨_, hst⟩ | ⟨_, hst⟩ | ⟨r, hst⟩ <;> rw [hst] at hs <;> cases hs <;> rfl
        rw [rxFrameByte_pay hp, hp]
        simp only [payStep, countRx_f, hs, payNext, hu, hc, if_true, frameEnd]
      · cases h
    · cases h
  · cases h
  · cases h

/-- What a state at a frame's end keeps of the one before the byte (R113, R119): all but `rx_count`, the parser's own
registers and the buffer that a payload byte is stored in. -/
theorem frameEndState_keeps {op : Opcode} {mask : Bool} {len7 : BitVec 7} {s t : State}
    (h : frameEndState op mask len7 s = some t) :
    t = { s with rxCount := s.rxCount + 1, f := t.f, cnt := t.cnt, ph := .hdr0, msgbuf := t.msgbuf,
                 ctrlbuf := t.ctrlbuf } ∧
      t.f.fin = s.f.fin ∧ t.f.rsv = s.f.rsv ∧ t.f.op = s.f.op ∧
      (dest op ≠ .msg → t.msgbuf = s.msgbuf) ∧ (dest op ≠ .ctrl → t.ctrlbuf = s.ctrlbuf) := by
  unfold frameEndState at h
  simp only at h
  split at h
  · split at h <;> cases h
    exact ⟨rfl, rfl, rfl, rfl, fun _ => rfl, fun _ => rfl⟩
  · split at h <;> cases h
    exact ⟨rfl, rfl, rfl, rfl, fun _ => rfl, fun _ => rfl⟩
  · split at h <;> cases h
    exact ⟨rfl, rfl, rfl, rfl, fun _ => rfl, fun _ => rfl⟩
  · split at h
    · split at h
      · rename_i u hs
        cases h
        rcases store_cases (dest op) s.f.idx.toNat (maskByte s.f.mask s.f.key s.f.idx.toNat s.env.rxData) (countRx s) with
          ⟨hd, hst⟩ | ⟨hd, hst⟩ | ⟨hd, hst⟩ | ⟨r, hst⟩ <;> rw [hst] at hs <;> cases hs <;>
          exact ⟨rfl, rfl, rfl, rfl, by simp [hd], by simp [hd]⟩
      · cases h
    · cases h
  · cases h
  · cases h

/-! ## What an RX byte of a frame can do -/

/-- The two RX buffers after a byte of a frame with opcode `op`: as they were, or with the one unmasked payload byte
stored (R113 `PAY`, R117). -/
def ByteStored (op : Opcode) (s : State) (mb cb : Memory) : Prop :=
  let d := maskByte s.f.mask s.f.key s.f.idx.toNat s.env.rxData
  (mb = s.msgbuf ∧ cb = s.ctrlbuf) ∨
  (s.ph = .pay ∧ dest op = .msg ∧ mb = s.msgbuf.write (s.ra.len.toNat + s.f.idx.toNat) d ∧ cb = s.ctrlbuf) ∨
  (s.ph = .pay ∧ dest op = .ctrl ∧ cb = s.ctrlbuf.write s.f.idx.toNat d ∧ mb = s.msgbuf)

/-- Whatever a frame opcode's check and frame-end action are, an RX byte that answers a next state holds, fails a check, moves
the parser on, or ends the frame and runs that action (R111, R113). -/
theorem rxFrameByte_cases {op : Opcode} {fin : Bool} {rsv : BitVec 3} {mask : Bool} {len7 : BitVec 7}
    {check0 : State → Option ErrCode} {atEnd : FrameEnd} {s t : State}
    (h : rxFrameByte op fin rsv mask len7 check0 atEnd s = .next t) :
    (rxEnabled s = false ∧ t = s) ∨
    (∃ e f cnt ph, t = raise e s.ph true { s with rxCount := s.rxCount + 1, f := f, cnt := cnt, ph := ph }) ∨
    (∃ f cnt ph mb cb, ByteStored op s mb cb ∧
      t = { s with rxCount := s.rxCount + 1, f := f, cnt := cnt, ph := ph, msgbuf := mb, ctrlbuf := cb }) ∨
    (∃ f cnt mb cb, ByteStored op s mb cb ∧
      atEnd s.ph { s with
        rxCount := s.rxCount + 1, f := f, cnt := cnt, ph := .hdr0, msgbuf := mb, ctrlbuf := cb } = .next t) := by
  have hdone : ∀ p u, headerDone atEnd p u = .next t →
      t = { u with ph := .pay } ∨ atEnd p { u with ph := .hdr0 } = .next t := by
    intro p u h
    unfold headerDone frameEnd at h
    split at h
    · exact .inr h
    · cases h; exact .inl rfl
  have hlk : ∀ p u, lengthKnown op atEnd p u = .next t →
      (∃ e, t = raise e p true u) ∨ t = { u with ph := .key, cnt := 0 } ∨ t = { u with ph := .pay } ∨
        atEnd p { u with ph := .hdr0 } = .next t := by
    intro p u h
    rcases lengthKnown_cases op atEnd p u with ⟨e, _, h'⟩ | ⟨_, _, h'⟩ | ⟨_, _, h'⟩ <;> rw [h'] at h
    · cases h; exact .inl ⟨e, rfl⟩
    · cases h; exact .inr (.inl rfl)
    · exact .inr (.inr (hdone p u h))
  by_cases hr : rxEnabled s = true
  swap
  · rw [rxFrameByte_held (by simpa using hr)] at h; cases h; exact .inl ⟨by simpa using hr, rfl⟩
  cases hp : s.ph with
  | stop => rw [rxEnabled_stop hp] at hr; cases hr
  | hdr0 =>
    rw [rxFrameByte_hdr0 hr hp] at h
    unfold byte0Step at h
    simp only at h
    split at h <;> cases h
    · exact .inr (.inl ⟨_, _, _, s.ph, rfl⟩)
    · exact .inr (.inr (.inl ⟨_, _, _, _, _, .inl ⟨rfl, rfl⟩, rfl⟩))
  | hdr1 =>
    rw [rxFrameByte_hdr1 hp] at h
    unfold byte1Step at h
    simp only at h
    split at h
    · cases h; exact .inr (.inl ⟨_, _, _, s.ph, rfl⟩)
    · split at h
      · rcases hlk _ _ h with ⟨e, rfl⟩ | rfl | rfl | h
        · exact .inr (.inl ⟨_, _, _, s.ph, rfl⟩)
        · exact .inr (.inr (.inl ⟨_, _, _, _, _, .inl ⟨rfl, rfl⟩, rfl⟩))
        · exact .inr (.inr (.inl ⟨_, _, _, _, _, .inl ⟨rfl, rfl⟩, rfl⟩))
        · exact .inr (.inr (.inr ⟨_, _, _, _, .inl ⟨rfl, rfl⟩, h⟩))
      · cases h; exact .inr (.inr (.inl ⟨_, _, _, _, _, .inl ⟨rfl, rfl⟩, rfl⟩))
  | ext =>
    rw [rxFrameByte_ext hp] at h
    unfold extStep at h
    simp only at h
    split at h
    · rcases hlk _ _ h with ⟨e, rfl⟩ | rfl | rfl | h
      · exact .inr (.inl ⟨_, _, _, s.ph, rfl⟩)
      · exact .inr (.inr (.inl ⟨_, _, _, _, _, .inl ⟨rfl, rfl⟩, rfl⟩))
      · exact .inr (.inr (.inl ⟨_, _, _, _, _, .inl ⟨rfl, rfl⟩, rfl⟩))
      · exact .inr (.inr (.inr ⟨_, _, _, _, .inl ⟨rfl, rfl⟩, h⟩))
    · cases h; exact .inr (.inr (.inl ⟨_, _, s.ph, _, _, .inl ⟨rfl, rfl⟩, rfl⟩))
  | key =>
    rw [rxFrameByte_key hp] at h
    unfold keyStep at h
    simp only at h
    split at h
    · rcases hdone _ _ h with rfl | h
      · exact .inr (.inr (.inl ⟨_, _, _, _, _, .inl ⟨rfl, rfl⟩, rfl⟩))
      · exact .inr (.inr (.inr ⟨_, _, _, _, .inl ⟨rfl, rfl⟩, h⟩))
    · cases h; exact .inr (.inr (.inl ⟨_, _, s.ph, _, _, .inl ⟨rfl, rfl⟩, rfl⟩))
  | pay =>
    rw [rxFrameByte_pay hp] at h
    have hpn : ∀ u, payNext atEnd u = .next t →
        t = { u with f := { u.f with idx := u.f.idx + 1 } } ∨
          atEnd .pay { u with f := { u.f with idx := u.f.idx + 1 }, ph := .hdr0 } = .next t := by
      intro u h
      unfold payNext frameEnd at h
      simp only at h
      split at h
      · exact .inr h
      · cases h; exact .inl rfl
    unfold payStep at h
    simp only [countRx_f] at h
    rcases store_cases (dest op) s.f.idx.toNat (maskByte s.f.mask s.f.key s.f.idx.toNat s.env.rxData) (countRx s) with
      ⟨hd, hst⟩ | ⟨hd, hst⟩ | ⟨hd, hst⟩ | ⟨r, hst⟩ <;>
      rw [hst] at h <;> simp only [reduceCtorEq] at h <;> rcases hpn _ h with rfl | h
    · exact .inr (.inr (.inl ⟨_, _, s.ph, _, _, .inr (.inl ⟨hp, hd, rfl, rfl⟩), rfl⟩))
    · exact .inr (.inr (.inr ⟨_, _, _, _, .inr (.inl ⟨hp, hd, rfl, rfl⟩), h⟩))
    · exact .inr (.inr (.inl ⟨_, _, s.ph, _, _, .inr (.inr ⟨hp, hd, rfl, rfl⟩), rfl⟩))
    · exact .inr (.inr (.inr ⟨_, _, _, _, .inr (.inr ⟨hp, hd, rfl, rfl⟩), h⟩))
    · exact .inr (.inr (.inl ⟨_, _, s.ph, _, _, .inl ⟨rfl, rfl⟩, rfl⟩))
    · exact .inr (.inr (.inr ⟨_, _, _, _, .inl ⟨rfl, rfl⟩, h⟩))

/-! ## The completion of a message (R145) -/

theorem messageComplete_binary {p : Phase} {s : State} (h : s.ra.op ≠ 0x1#4) :
    messageComplete p s = .next (deliver s) := by
  simp [messageComplete, h]

theorem messageComplete_text {p : Phase} {s : State} {bs : List Byte} (h : s.ra.op = 0x1#4)
    (hb : s.msgbuf.bytes 0 s.ra.len.toNat = some bs) :
    messageComplete p s = .next (if utf8Valid bs then deliver s else raise .pvBadUtf8 p true s) := by
  simp only [messageComplete, h, if_true, hb]
  split <;> rfl

/-- What `message_complete` may answer: the delivery, the UTF-8 fault, or a fault of the model. -/
theorem messageComplete_cases (p : Phase) (s : State) :
    messageComplete p s = .next (deliver s) ∨ messageComplete p s = .next (raise .pvBadUtf8 p true s) ∨
      messageComplete p s = .fault .msgbufUnwritten := by
  unfold messageComplete
  split
  · split
    · simp
    · split <;> simp
  · simp

/-! ## `settle` (R231) -/

theorem settle_done {s : State} (h : (echoDone s || bothClosesDone s) = true) : settle s = closeDone .close s := by
  simp [settle, h]

theorem settle_not_done {s : State} (h : (echoDone s || bothClosesDone s) = false) : settle s = s := by
  simp [settle, h]

/-- A state outside the closing handshake is settled. -/
theorem settle_outside {s : State} (h1 : s.cs ≠ .closingReceived) (h2 : s.cs ≠ .closingSent) : settle s = s := by
  apply settle_not_done
  simp [echoDone, bothClosesDone, h1, h2]

/-- `settle` leaves the state or closes the connection. -/
theorem settle_cases (s : State) : settle s = s ∨ settle s = closeDone .close s := by
  unfold settle
  split <;> simp

@[simp] theorem settle_raise (e : ErrCode) (p : Phase) (c : Bool) (s : State) :
    settle (raise e p c s) = raise e p c s := settle_outside (by simp) (by simp)

@[simp] theorem settle_closeDone (c : EndCause) (s : State) : settle (closeDone c s) = closeDone c s :=
  settle_outside (by simp) (by simp)

/-- A settled outcome that is a next state comes from a next state. -/
theorem settleOut_next {o : Out} {t : State} (h : settleOut o = .next t) : ∃ u, o = .next u ∧ t = settle u := by
  cases o with
  | next u => exact ⟨u, rfl, by simpa [settleOut] using h.symm⟩
  | fault r => cases h
  | refused r => cases h

/-! ## One step (R12) -/

/-- An event whose guard holds is the first taken of an order it begins. -/
theorem firstTaken_head {s : State} {e : Event} {es : List Event} (h : eventTaken e s = true) :
    firstTaken s (e :: es) = some (e, es) := by
  simp [firstTaken, h]

/-- Events that all wait are passed over and kept. -/
theorem firstTaken_append {s : State} {e : Event} {pre post : List Event} (hp : ∀ x ∈ pre, eventTaken x s = false)
    (h : eventTaken e s = true) : firstTaken s (pre ++ e :: post) = some (e, pre ++ post) := by
  induction pre with
  | nil => exact firstTaken_head h
  | cons x pre ih =>
    simp [firstTaken, hp x (by simp), ih (fun y hy => hp y (by simp [hy]))]

/-- None is taken exactly when every event waits. -/
theorem firstTaken_eq_none {s : State} {es : List Event} :
    firstTaken s es = none ↔ ∀ e ∈ es, eventTaken e s = false := by
  induction es with
  | nil => simp [firstTaken]
  | cons x es ih =>
    cases hx : eventTaken x s with
    | true => simp [firstTaken, hx]
    | false =>
      cases hf : firstTaken s es with
      | none => rw [hf] at ih; simpa [firstTaken, hx, hf] using ih
      | some p => rw [hf] at ih; simpa [firstTaken, hx, hf] using ih

/-- What is taken has its guard true, and all before it wait and stay. -/
theorem firstTaken_eq_some {s : State} {es rest : List Event} {e : Event} :
    firstTaken s es = some (e, rest) ↔ ∃ pre post, es = pre ++ e :: post ∧ rest = pre ++ post ∧
      (∀ x ∈ pre, eventTaken x s = false) ∧ eventTaken e s = true := by
  constructor
  · induction es generalizing rest with
    | nil => simp [firstTaken]
    | cons x es ih =>
      intro h
      cases hx : eventTaken x s with
      | true =>
        rw [firstTaken_head hx] at h
        cases h
        exact ⟨[], es, rfl, rfl, by simp, hx⟩
      | false =>
        simp only [firstTaken, hx, Bool.false_eq_true, if_false] at h
        cases hf : firstTaken s es with
        | none => rw [hf] at h; cases h
        | some p =>
          rw [hf] at h
          cases h
          obtain ⟨pre, post, h1, h2, h3, h4⟩ := ih hf
          exact ⟨x :: pre, post, by simp [h1], by simp [h2], List.forall_mem_cons.2 ⟨hx, h3⟩, h4⟩
  · rintro ⟨pre, post, rfl, rfl, hp, h⟩
    exact firstTaken_append hp h

/-- The event taken has its guard true. -/
theorem takes_guard {s : State} {e : Event} {rest : List Event} (h : Takes s e rest) : eventTaken e s = true := by
  obtain ⟨_, _, _, _, _, h⟩ := h
  exact h

/-- A step runs the event it takes, taken off the order. -/
theorem step_of_takes {s : State} {e : Event} {rest : List Event} (h : Takes s e rest) :
    step s = runEvent e (withEvents rest s) := by
  unfold step takeEvent
  rw [firstTaken_eq_some.2 h]

/-- The first event is the one taken when its guard holds. -/
theorem takes_of_events {s : State} {e : Event} {rest : List Event} (h : s.env.events = e :: rest)
    (ht : eventTaken e s = true) : Takes s e rest := ⟨[], rest, h, rfl, by simp, ht⟩

/-- A step runs the first event when its guard holds. -/
theorem step_of_events {s : State} {e : Event} {rest : List Event} (h : s.env.events = e :: rest)
    (ht : eventTaken e s = true) : step s = runEvent e (withEvents rest s) := step_of_takes (takes_of_events h ht)

/-- When every event waits, or none is pending, nothing happens. -/
theorem step_of_waiting {s : State} (h : ∀ e ∈ s.env.events, eventTaken e s = false) : step s = .next s := by
  unfold step takeEvent
  rw [firstTaken_eq_none.2 h]

/-- A step takes some event, or every event waits and nothing happens. -/
theorem step_cases (s : State) :
    (∃ e rest, Takes s e rest ∧ step s = runEvent e (withEvents rest s)) ∨
      ((∀ e ∈ s.env.events, eventTaken e s = false) ∧ step s = .next s) := by
  cases h : firstTaken s s.env.events with
  | none => exact .inr ⟨firstTaken_eq_none.1 h, step_of_waiting (firstTaken_eq_none.1 h)⟩
  | some p => exact .inl ⟨p.1, p.2, firstTaken_eq_some.1 h, step_of_takes (firstTaken_eq_some.1 h)⟩

end Sys2Proof.Machine
end

