-- ==== Sys2Proof/Laws/PerInstr.lean ====
section
/-! SUPPORT. One lemma per instruction, about the instruction as syntax: its encoding is the row of spec/opcode_table.json it stands for (30_encoding.md rules R86, R91, R98). -/
namespace Sys2Proof.Laws

/-- The width of an encoding and its opcode bits: bits 11:8 of a header word (R86), bits 3:0 of a `CMD` word (R98). -/
def codeBits : Code → Nat × BitVec 4
  | .frame hw => (16, hw.extractLsb' 8 4)
  | .command w => (32, w.extractLsb' 0 4)

theorem codeBits_frame (op : Opcode) (fin : Bool) (rsv : BitVec 3) (mask : Bool) (len7 : BitVec 7) :
    codeBits (.frame (headerWord op fin rsv mask len7)) = (16, op) := by
  have h : (headerWord op fin rsv mask len7).extractLsb' 8 4 = op := by
    ext j hj
    simp only [headerWord, byte0Of, byte1Of, BitVec.getElem_extractLsb', BitVec.getLsbD_append]
    simp [show ¬ 8 + j < 8 by omega, hj, BitVec.getElem_eq_testBit_toNat, BitVec.getLsbD]
  simp [codeBits, h]

theorem codeBits_command (ign : BitVec 28) (code : BitVec 4) :
    codeBits (.command (commandWord ign code)) = (32, code) := by
  have h : (commandWord ign code).extractLsb' 0 4 = code := by
    ext j hj
    simp only [commandWord, BitVec.getElem_extractLsb', BitVec.getLsbD_append]
    simp [hj, BitVec.getElem_eq_testBit_toNat, BitVec.getLsbD]
  simp [codeBits, h]

/-- The row of the opcode table an instruction stands for: the width of its format and the value of its opcode bits. -/
def rowOf : Instr → Nat × (BitVec 4 → Prop)
  | .cont _ _ _ _ => (16, (· = 0x0#4))
  | .text _ _ _ _ => (16, (· = 0x1#4))
  | .binary _ _ _ _ => (16, (· = 0x2#4))
  | .rsvd3 _ _ _ _ => (16, (· = 0x3#4))
  | .rsvd4 _ _ _ _ => (16, (· = 0x4#4))
  | .rsvd5 _ _ _ _ => (16, (· = 0x5#4))
  | .rsvd6 _ _ _ _ => (16, (· = 0x6#4))
  | .rsvd7 _ _ _ _ => (16, (· = 0x7#4))
  | .close _ _ _ _ => (16, (· = 0x8#4))
  | .ping _ _ _ _ => (16, (· = 0x9#4))
  | .pong _ _ _ _ => (16, (· = 0xA#4))
  | .rsvdB _ _ _ _ => (16, (· = 0xB#4))
  | .rsvdC _ _ _ _ => (16, (· = 0xC#4))
  | .rsvdD _ _ _ _ => (16, (· = 0xD#4))
  | .rsvdE _ _ _ _ => (16, (· = 0xE#4))
  | .rsvdF _ _ _ _ => (16, (· = 0xF#4))
  | .nop _ => (32, (· = 0x0#4))
  | .hsDone _ => (32, (· = 0x1#4))
  | .hsFail _ => (32, (· = 0x2#4))
  | .msgAck _ => (32, (· = 0x3#4))
  | .txData _ => (32, (· = 0x4#4))
  | .txClose _ => (32, (· = 0x5#4))
  | .abort _ => (32, (· = 0x6#4))
  | .clrRej _ => (32, (· = 0x7#4))
  | .cmdRsvd8F _ _ => (32, fun c => 8 ≤ c.toNat)

/-- A well-formed instruction's encoding has the width of its row's format and the row's opcode bits. -/
def RowMatch.Statement (i : Instr) : Prop :=
  i.wf = true → (codeBits (encode i)).1 = (rowOf i).1 ∧ (rowOf i).2 (codeBits (encode i)).2

theorem RowMatch.cont (fin : Bool) (rsv : BitVec 3) (mask : Bool) (len7 : BitVec 7) :
    RowMatch.Statement (.cont fin rsv mask len7) := fun _ => by simp [encode, rowOf, codeBits_frame]

theorem RowMatch.text (fin : Bool) (rsv : BitVec 3) (mask : Bool) (len7 : BitVec 7) :
    RowMatch.Statement (.text fin rsv mask len7) := fun _ => by simp [encode, rowOf, codeBits_frame]

theorem RowMatch.binary (fin : Bool) (rsv : BitVec 3) (mask : Bool) (len7 : BitVec 7) :
    RowMatch.Statement (.binary fin rsv mask len7) := fun _ => by simp [encode, rowOf, codeBits_frame]

theorem RowMatch.rsvd3 (fin : Bool) (rsv : BitVec 3) (mask : Bool) (len7 : BitVec 7) :
    RowMatch.Statement (.rsvd3 fin rsv mask len7) := fun _ => by simp [encode, rowOf, codeBits_frame]

theorem RowMatch.rsvd4 (fin : Bool) (rsv : BitVec 3) (mask : Bool) (len7 : BitVec 7) :
    RowMatch.Statement (.rsvd4 fin rsv mask len7) := fun _ => by simp [encode, rowOf, codeBits_frame]

theorem RowMatch.rsvd5 (fin : Bool) (rsv : BitVec 3) (mask : Bool) (len7 : BitVec 7) :
    RowMatch.Statement (.rsvd5 fin rsv mask len7) := fun _ => by simp [encode, rowOf, codeBits_frame]

theorem RowMatch.rsvd6 (fin : Bool) (rsv : BitVec 3) (mask : Bool) (len7 : BitVec 7) :
    RowMatch.Statement (.rsvd6 fin rsv mask len7) := fun _ => by simp [encode, rowOf, codeBits_frame]

theorem RowMatch.rsvd7 (fin : Bool) (rsv : BitVec 3) (mask : Bool) (len7 : BitVec 7) :
    RowMatch.Statement (.rsvd7 fin rsv mask len7) := fun _ => by simp [encode, rowOf, codeBits_frame]

theorem RowMatch.close (fin : Bool) (rsv : BitVec 3) (mask : Bool) (len7 : BitVec 7) :
    RowMatch.Statement (.close fin rsv mask len7) := fun _ => by simp [encode, rowOf, codeBits_frame]

theorem RowMatch.ping (fin : Bool) (rsv : BitVec 3) (mask : Bool) (len7 : BitVec 7) :
    RowMatch.Statement (.ping fin rsv mask len7) := fun _ => by simp [encode, rowOf, codeBits_frame]

theorem RowMatch.pong (fin : Bool) (rsv : BitVec 3) (mask : Bool) (len7 : BitVec 7) :
    RowMatch.Statement (.pong fin rsv mask len7) := fun _ => by simp [encode, rowOf, codeBits_frame]

theorem RowMatch.rsvdB (fin : Bool) (rsv : BitVec 3) (mask : Bool) (len7 : BitVec 7) :
    RowMatch.Statement (.rsvdB fin rsv mask len7) := fun _ => by simp [encode, rowOf, codeBits_frame]

theorem RowMatch.rsvdC (fin : Bool) (rsv : BitVec 3) (mask : Bool) (len7 : BitVec 7) :
    RowMatch.Statement (.rsvdC fin rsv mask len7) := fun _ => by simp [encode, rowOf, codeBits_frame]

theorem RowMatch.rsvdD (fin : Bool) (rsv : BitVec 3) (mask : Bool) (len7 : BitVec 7) :
    RowMatch.Statement (.rsvdD fin rsv mask len7) := fun _ => by simp [encode, rowOf, codeBits_frame]

theorem RowMatch.rsvdE (fin : Bool) (rsv : BitVec 3) (mask : Bool) (len7 : BitVec 7) :
    RowMatch.Statement (.rsvdE fin rsv mask len7) := fun _ => by simp [encode, rowOf, codeBits_frame]

theorem RowMatch.rsvdF (fin : Bool) (rsv : BitVec 3) (mask : Bool) (len7 : BitVec 7) :
    RowMatch.Statement (.rsvdF fin rsv mask len7) := fun _ => by simp [encode, rowOf, codeBits_frame]

theorem RowMatch.nop (ign : BitVec 28) : RowMatch.Statement (.nop ign) :=
  fun _ => by simp [encode, rowOf, codeBits_command]

theorem RowMatch.hsDone (ign : BitVec 28) : RowMatch.Statement (.hsDone ign) :=
  fun _ => by simp [encode, rowOf, codeBits_command]

theorem RowMatch.hsFail (ign : BitVec 28) : RowMatch.Statement (.hsFail ign) :=
  fun _ => by simp [encode, rowOf, codeBits_command]

theorem RowMatch.msgAck (ign : BitVec 28) : RowMatch.Statement (.msgAck ign) :=
  fun _ => by simp [encode, rowOf, codeBits_command]

theorem RowMatch.txData (ign : BitVec 28) : RowMatch.Statement (.txData ign) :=
  fun _ => by simp [encode, rowOf, codeBits_command]

theorem RowMatch.txClose (ign : BitVec 28) : RowMatch.Statement (.txClose ign) :=
  fun _ => by simp [encode, rowOf, codeBits_command]

theorem RowMatch.abort (ign : BitVec 28) : RowMatch.Statement (.abort ign) :=
  fun _ => by simp [encode, rowOf, codeBits_command]

theorem RowMatch.clrRej (ign : BitVec 28) : RowMatch.Statement (.clrRej ign) :=
  fun _ => by simp [encode, rowOf, codeBits_command]

theorem RowMatch.cmdRsvd8F (ign : BitVec 28) (code : BitVec 4) : RowMatch.Statement (.cmdRsvd8F ign code) :=
  fun h => by simpa [encode, rowOf, codeBits_command, Instr.wf] using h

end Sys2Proof.Laws
end

