-- ==== Sys2Proof/Laws/Step.lean ====
section
/-! SUPPORT. What no instruction touches, what `settle` keeps, and how each event's step relates to its own operation. -/
namespace Sys2Proof.Machine

/-- The fields no instruction writes: configuration, parameters, environment, TX count, `txbuf` and the registers only a
host access writes. -/
structure SameOutside (s t : State) : Prop where
  cfg : t.cfg = s.cfg
  params : t.params = s.params
  env : t.env = s.env
  txCount : t.txCount = s.txCount
  txbuf : t.txbuf = s.txbuf
  txCtrl : t.txCtrl = s.txCtrl
  txLen : t.txLen = s.txLen
  irqEn : t.irq.en = s.irq.en

theorem SameOutside.refl (s : State) : SameOutside s s := ⟨rfl, rfl, rfl, rfl, rfl, rfl, rfl, rfl⟩

theorem SameOutside.trans {s t u : State} (h : SameOutside s t) (k : SameOutside t u) : SameOutside s u :=
  ⟨k.cfg.trans h.cfg, k.params.trans h.params, k.env.trans h.env, k.txCount.trans h.txCount, k.txbuf.trans h.txbuf,
    k.txCtrl.trans h.txCtrl, k.txLen.trans h.txLen, k.irqEn.trans h.irqEn⟩

theorem sameOutside_raise (e : ErrCode) (p : Phase) (c : Bool) (s : State) : SameOutside s (raise e p c s) :=
  ⟨rfl, rfl, rfl, rfl, rfl, rfl, rfl, rfl⟩

theorem sameOutside_closeDone (c : EndCause) (s : State) : SameOutside s (closeDone c s) :=
  ⟨rfl, rfl, rfl, rfl, rfl, rfl, rfl, rfl⟩

theorem sameOutside_settle (s : State) : SameOutside s (settle s) := by
  rcases settle_cases s with h | h <;> rw [h]
  · exact .refl s
  · exact sameOutside_closeDone _ _

theorem sameOutside_messageComplete {p : Phase} {s t : State} (h : messageComplete p s = .next t) :
    SameOutside s t := by
  rcases messageComplete_cases p s with hm | hm | hm <;> rw [hm] at h <;> cases h
  · exact ⟨rfl, rfl, rfl, rfl, rfl, rfl, rfl, rfl⟩
  · exact sameOutside_raise _ _ _ _

theorem sameOutside_rxFrameByte {op : Opcode} {fin : Bool} {rsv : BitVec 3} {mask : Bool} {len7 : BitVec 7}
    {check0 : State → Option ErrCode} {atEnd : FrameEnd} {s t : State}
    (hend : ∀ p u v, atEnd p u = .next v → SameOutside u v)
    (h : rxFrameByte op fin rsv mask len7 check0 atEnd s = .next t) : SameOutside s t := by
  rcases rxFrameByte_cases h with ⟨-, rfl⟩ | ⟨e, f, cnt, ph, rfl⟩ | ⟨f, cnt, ph, mb, cb, -, rfl⟩ | ⟨f, cnt, mb, cb, -, h⟩
  · exact .refl t
  · exact ⟨rfl, rfl, rfl, rfl, rfl, rfl, rfl, rfl⟩
  · exact ⟨rfl, rfl, rfl, rfl, rfl, rfl, rfl, rfl⟩
  · have hk := hend _ _ _ h
    exact ⟨hk.1, hk.2, hk.3, hk.4, hk.5, hk.6, hk.7, hk.8⟩

/-- No instruction writes the fields of `SameOutside`. -/
theorem exec_sameOutside {i : Instr} {s t : State} (h : exec i s = .next t) : SameOutside s t := by
  have hn : ∀ {u v : State}, (Host.Outcome.next u : Out) = .next v → SameOutside s u → SameOutside s v := by
    intro u v he hs
    cases he
    exact hs
  have hr : SameOutside s (reject s) := ⟨rfl, rfl, rfl, rfl, rfl, rfl, rfl, rfl⟩
  cases i
  case cont =>
    refine sameOutside_rxFrameByte (fun p u v hv => ?_) h
    unfold frameEndCont at hv
    simp only at hv
    split at hv
    · have hk := sameOutside_messageComplete hv
      exact ⟨hk.1, hk.2, hk.3, hk.4, hk.5, hk.6, hk.7, hk.8⟩
    · cases hv; exact ⟨rfl, rfl, rfl, rfl, rfl, rfl, rfl, rfl⟩
  case text =>
    refine sameOutside_rxFrameByte (fun p u v hv => ?_) h
    unfold frameEndText at hv
    simp only at hv
    split at hv
    · have hk := sameOutside_messageComplete hv
      exact ⟨hk.1, hk.2, hk.3, hk.4, hk.5, hk.6, hk.7, hk.8⟩
    · cases hv; exact ⟨rfl, rfl, rfl, rfl, rfl, rfl, rfl, rfl⟩
  case binary =>
    refine sameOutside_rxFrameByte (fun p u v hv => ?_) h
    unfold frameEndBinary at hv
    simp only at hv
    split at hv
    · have hk := sameOutside_messageComplete hv
      exact ⟨hk.1, hk.2, hk.3, hk.4, hk.5, hk.6, hk.7, hk.8⟩
    · cases hv; exact ⟨rfl, rfl, rfl, rfl, rfl, rfl, rfl, rfl⟩
  case close =>
    refine sameOutside_rxFrameByte (fun p u v hv => ?_) h
    unfold frameEndClose at hv
    simp only at hv
    split at hv <;> cases hv <;> exact ⟨rfl, rfl, rfl, rfl, rfl, rfl, rfl, rfl⟩
  case ping =>
    refine sameOutside_rxFrameByte (fun p u v hv => ?_) h
    unfold frameEndPing at hv
    simp only at hv
    split at hv <;> cases hv <;> exact ⟨rfl, rfl, rfl, rfl, rfl, rfl, rfl, rfl⟩
  case pong =>
    refine sameOutside_rxFrameByte (fun p u v hv => ?_) h
    cases hv
    exact .refl _
  case nop => exact hn h (.refl s)
  case hsDone =>
    simp only [exec, execHsDone] at h
    split at h <;> cases h <;> exact ⟨rfl, rfl, rfl, rfl, rfl, rfl, rfl, rfl⟩
  case hsFail =>
    simp only [exec, execHsFail] at h
    split at h <;> cases h <;> exact ⟨rfl, rfl, rfl, rfl, rfl, rfl, rfl, rfl⟩
  case msgAck =>
    simp only [exec, execMsgAck] at h
    split at h <;> cases h <;> exact ⟨rfl, rfl, rfl, rfl, rfl, rfl, rfl, rfl⟩
  case txData =>
    simp only [exec, execTxData] at h
    split at h <;> cases h <;> exact ⟨rfl, rfl, rfl, rfl, rfl, rfl, rfl, rfl⟩
  case txClose =>
    simp only [exec, execTxClose] at h
    split at h <;> cases h <;> exact ⟨rfl, rfl, rfl, rfl, rfl, rfl, rfl, rfl⟩
  case abort =>
    simp only [exec, execAbort] at h
    split at h <;> cases h <;> exact ⟨rfl, rfl, rfl, rfl, rfl, rfl, rfl, rfl⟩
  case clrRej => exact hn h ⟨rfl, rfl, rfl, rfl, rfl, rfl, rfl, rfl⟩
  case cmdRsvd8F => exact hn h hr
  all_goals
    refine sameOutside_rxFrameByte (fun p u v hv => ?_) h
    cases hv
    exact sameOutside_raise _ _ _ _

/-! ## `rx_count` (R38, R113) -/

theorem rxCount_rxFrameByte {op : Opcode} {fin : Bool} {rsv : BitVec 3} {mask : Bool} {len7 : BitVec 7}
    {check0 : State → Option ErrCode} {atEnd : FrameEnd} {s t : State} (he : rxEnabled s = true)
    (hend : ∀ p u v, atEnd p u = .next v → v.rxCount = u.rxCount)
    (h : rxFrameByte op fin rsv mask len7 check0 atEnd s = .next t) : t.rxCount = s.rxCount + 1 := by
  rcases rxFrameByte_cases h with ⟨hn, -⟩ | ⟨e, f, cnt, ph, rfl⟩ | ⟨f, cnt, ph, mb, cb, -, rfl⟩ | ⟨f, cnt, mb, cb, -, h⟩
  · rw [he] at hn
    cases hn
  · rfl
  · rfl
  · exact hend _ _ _ h

/-- An accepted RX byte is counted, whatever the frame it belongs to. -/
theorem exec_frame_rxCount {i : Instr} {op : Opcode} {s t : State} (hi : frameOpcode i = some op)
    (he : rxEnabled s = true) (h : exec i s = .next t) : t.rxCount = s.rxCount + 1 := by
  have hm : ∀ {p : Phase} {u v : State}, messageComplete p u = .next v → v.rxCount = u.rxCount := by
    intro p u v hv
    rcases messageComplete_cases p u with hm | hm | hm <;> rw [hm] at hv <;> cases hv <;> rfl
  cases i <;> simp only [frameOpcode, reduceCtorEq] at hi
  case cont =>
    refine rxCount_rxFrameByte he (fun p u v hv => ?_) h
    simp only [frameEndCont] at hv
    split at hv
    · have hk := hm hv
      exact hk
    · cases hv; rfl
  case text =>
    refine rxCount_rxFrameByte he (fun p u v hv => ?_) h
    simp only [frameEndText] at hv
    split at hv
    · have hk := hm hv
      exact hk
    · cases hv; rfl
  case binary =>
    refine rxCount_rxFrameByte he (fun p u v hv => ?_) h
    simp only [frameEndBinary] at hv
    split at hv
    · have hk := hm hv
      exact hk
    · cases hv; rfl
  case close =>
    refine rxCount_rxFrameByte he (fun p u v hv => ?_) h
    simp only [frameEndClose] at hv
    split at hv <;> cases hv <;> rfl
  case ping =>
    refine rxCount_rxFrameByte he (fun p u v hv => ?_) h
    simp only [frameEndPing] at hv
    split at hv <;> cases hv <;> rfl
  all_goals
    refine rxCount_rxFrameByte he (fun p u v hv => ?_) h
    cases hv
    rfl

/-- No command touches the RX side's count. -/
theorem exec_command_rxCount {i : Instr} {s t : State} (hi : frameOpcode i = none) (h : exec i s = .next t) :
    t.rxCount = s.rxCount := by
  cases i <;> simp only [frameOpcode, reduceCtorEq] at hi <;>
    simp only [exec, execNop, execHsDone, execHsFail, execMsgAck, execTxData, execTxClose, execAbort, execClrRej,
      execCmdRsvd8F] at h
  all_goals first
    | (cases h; rfl)
    | (split at h <;> cases h <;> rfl)

/-! ## One event -/

/-- `RxByte`: held, or the frame's own step and then `settle`. -/
theorem rxByteEvent_next {b : Byte} {s t : State} (h : rxByteEvent b s = .next t) :
    (rxEnabled s = false ∧ t = s) ∨
    (rxEnabled s = true ∧ ∃ u, exec (fetchFrame s b) (offerRx b s) = .next u ∧ t = settle u) := by
  unfold rxByteEvent at h
  split at h
  · rename_i he
    exact .inr ⟨he, settleOut_next h⟩
  · rename_i he
    cases h
    exact .inl ⟨by simpa using he, rfl⟩

/-- `TxByte`: held, or one byte out of a state that differs in the draws alone, and then `settle` (R185). -/
theorem txByteEvent_next {s t : State} (h : txByteEvent s = .next t) :
    (s.enc.busy = false ∧ t = s) ∨
    (s.enc.busy = true ∧ ∃ out n, t = settle (txEmit out { s with env := { s.env with draws := n } })) := by
  unfold txByteEvent at h
  split at h
  · rename_i hb
    obtain ⟨u, hu, rfl⟩ := settleOut_next h
    refine .inr ⟨hb, ?_⟩
    unfold txByte txOut at hu
    split at hu
    · rename_i out v ho
      cases hu
      split at ho
      · cases ho
        exact ⟨_, s.env.draws, rfl⟩
      · simp only at ho
        split at ho
        · cases ho
          unfold readOrDraw drawByte
          split
          · exact ⟨_, s.env.draws, rfl⟩
          · exact ⟨_, _, rfl⟩
        · cases ho
    · cases hu
  · rename_i hb
    cases h
    exact .inl ⟨by simpa using hb, rfl⟩

/-- A host access that answers a next state: a command, or a change of the host registers, `txbuf`, the reply and the
draws alone (R62 to R65). -/
theorem hostAccess_next {a : HostAccess} {s t : State} (h : hostAccess a s = .next t) :
    (∃ w, a = .csrWrite 32 0x008 w ∧ exec (decodeCommand w) s = .next t) ∨
    (∃ cfg rej irq tc tl tb r n, (s.cs ≠ .handshaking → cfg = s.cfg) ∧
      t = { s with cfg := cfg, cmdRej := rej, irq := irq, txCtrl := tc, txLen := tl, txbuf := tb,
                   env := { s.env with reply := r, draws := n } }) := by
  cases a with
  | csrRead width off =>
    simp only [hostAccess] at h
    split at h <;> cases h
    exact .inr ⟨_, _, _, _, _, _, _, _, fun _ => rfl, rfl⟩
  | csrWrite width off w =>
    simp only [hostAccess] at h
    split at h
    · rename_i hok
      unfold csrWriteAt at h
      split at h
      · rename_i r hr
        cases r <;> simp only [csrWrite] at h
        case cmd =>
          refine .inl ⟨w, ?_, h⟩
          have hw : width = 32 := by
            unfold csrAccessOk at hok
            simp only [Bool.and_eq_true, decide_eq_true_eq] at hok
            exact hok.1.1
          have ho : off = 0x008 := by
            unfold csrAt at hr
            split at hr <;> first | rfl | simp at hr
          rw [hw, ho]
        case cfg =>
          cases h
          unfold writeCfg
          split
          · rename_i hc
            exact .inr ⟨_, _, _, _, _, _, _, _, fun hn => absurd hc hn, rfl⟩
          · exact .inr ⟨_, _, _, _, _, _, _, _, fun _ => rfl, rfl⟩
        all_goals
          cases h
          exact .inr ⟨_, _, _, _, _, _, _, _, fun _ => rfl, rfl⟩
      · cases h
        exact .inr ⟨_, _, _, _, _, _, _, _, fun _ => rfl, rfl⟩
    · cases h
  | bufRead b width idx =>
    simp only [hostAccess] at h
    split at h <;> cases h
    unfold hostBufByte readOrDraw drawByte
    split
    · split <;> exact .inr ⟨_, _, _, _, _, _, _, _, fun _ => rfl, rfl⟩
    · exact .inr ⟨_, _, _, _, _, _, _, _, fun _ => rfl, rfl⟩
  | bufWrite b width idx v =>
    simp only [hostAccess] at h
    split at h <;> cases h
    cases b <;> exact .inr ⟨_, _, _, _, _, _, _, _, fun _ => rfl, rfl⟩

end Sys2Proof.Machine
end

