-- ==== Sys2Proof/Tests/Slice0.lean ====
section
/-! SUPPORT. Tests on fixed values, their expected results from the spec's examples and tables, and a witness for the hypotheses of each obligation. -/
namespace Sys2Proof.Tests
open Sys2Proof Sys2Proof.Machine

/-! ## Small states -/

/-- A `SERVER` block in `OPEN`, between frames. -/
def srv : State := { State.reset with cs := .opened, ph := .hdr0 }

/-- A `CLIENT` block in `OPEN`, between frames. -/
def cli : State := { srv with cfg := { srv.cfg with role := .client } }

/-- `s` with the byte `b` on `rx_data`. -/
def rx (b : Byte) (s : State) : State := { s with env := { s.env with rxData := b } }

/-- `s` with one pending event. -/
def ev (e : Event) (s : State) : State := { s with env := { s.env with events := [e] } }

/-- `s` in phase `p` of a frame with these fields. -/
def at_ (p : Phase) (op : Opcode) (fin mask : Bool) (len7 : BitVec 7) (len idx : Word64) (s : State) : State :=
  { s with ph := p, f := { s.f with op := op, fin := fin, mask := mask, len7 := len7, len := len, idx := idx } }

/-- `s` with the message "Hel" in progress, a `TEXT` (R142's example). -/
def hel (s : State) : State :=
  { s with ra := { active := true, op := 1, len := 3 }, msgbuf := [(0, 0x48), (1, 0x65), (2, 0x6C)] }

/-- `s` with a message buffer of 125 bytes. -/
def cap125 (s : State) : State := { s with params := { s.params with msgCap := some 125 } }

/-- The outcome is a next state that satisfies `p`. -/
def nextIs (o : Out) (p : State → Bool) : Bool :=
  match o with
  | .next t => p t
  | .fault _ => false
  | .refused _ => false

/-! ## Well-formed terms: a `CMD_RSVD8_F` must carry a reserved code -/

theorem test_wf_refuses_code_7 : (Instr.cmdRsvd8F 0 7).wf = false := by decide
theorem test_wf_refuses_code_0 : (Instr.cmdRsvd8F 0xFFFFFFF 0).wf = false := by decide
theorem test_wf_takes_code_8 : (Instr.cmdRsvd8F 0 8).wf = true := by decide

/-! ## Decoding: words written out from R86, R91 and R98 -/

theorem test_decode_cont : decodeTableWord 16 0x8002 = some (.cont true 0 false 2) := by decide
theorem test_decode_text : decodeTableWord 16 0x8185 = some (.text true 0 true 5) := by decide
theorem test_decode_binary : decodeTableWord 16 0x727E = some (.binary false 7 false 126) := by decide
theorem test_decode_rsvd3 : decodeTableWord 16 0x8300 = some (.rsvd3 true 0 false 0) := by decide
theorem test_decode_rsvd4 : decodeTableWord 16 0x1480 = some (.rsvd4 false 1 true 0) := by decide
theorem test_decode_rsvd5 : decodeTableWord 16 0x2501 = some (.rsvd5 false 2 false 1) := by decide
theorem test_decode_rsvd6 : decodeTableWord 16 0x46FF = some (.rsvd6 false 4 true 127) := by decide
theorem test_decode_rsvd7 : decodeTableWord 16 0xF700 = some (.rsvd7 true 7 false 0) := by decide
theorem test_decode_close : decodeTableWord 16 0x8882 = some (.close true 0 true 2) := by decide
theorem test_decode_ping : decodeTableWord 16 0x8905 = some (.ping true 0 false 5) := by decide
theorem test_decode_pong : decodeTableWord 16 0x8A81 = some (.pong true 0 true 1) := by decide
theorem test_decode_rsvdB : decodeTableWord 16 0x0B00 = some (.rsvdB false 0 false 0) := by decide
theorem test_decode_rsvdC : decodeTableWord 16 0x8C40 = some (.rsvdC true 0 false 64) := by decide
theorem test_decode_rsvdD : decodeTableWord 16 0x9D80 = some (.rsvdD true 1 true 0) := by decide
theorem test_decode_rsvdE : decodeTableWord 16 0x0E7D = some (.rsvdE false 0 false 125) := by decide
theorem test_decode_rsvdF : decodeTableWord 16 0xFFFF = some (.rsvdF true 7 true 127) := by decide
theorem test_decode_nop : decodeTableWord 32 0x00000010 = some (.nop 1) := by decide
theorem test_decode_hsDone : decodeTableWord 32 0x00000001 = some (.hsDone 0) := by decide
theorem test_decode_hsFail : decodeTableWord 32 0x80000002 = some (.hsFail 0x8000000) := by decide
theorem test_decode_msgAck : decodeTableWord 32 0x00000003 = some (.msgAck 0) := by decide
theorem test_decode_txData : decodeTableWord 32 0x00000004 = some (.txData 0) := by decide
theorem test_decode_txClose : decodeTableWord 32 0x00000005 = some (.txClose 0) := by decide
theorem test_decode_abort : decodeTableWord 32 0x00000006 = some (.abort 0) := by decide
theorem test_decode_clrRej : decodeTableWord 32 0xFFFFFFF7 = some (.clrRej 0xFFFFFFF) := by decide
theorem test_decode_cmdRsvd8F : decodeTableWord 32 0x0000000F = some (.cmdRsvd8F 0 15) := by decide
theorem test_decode_one_byte : decodeWord 8 0x81 = .error (.noSuchWidth 8) := by rfl
theorem test_decode_prefix : decodeBytes [0x81#8] = .error .noByte1 := by rfl

/-! ## One step of a frame -/

/-- R142's example: `LAST "lo"` after `FRAG TEXT "Hel"` delivers a Text message of 5 bytes; this is its last byte, `6F`. -/
theorem test_cont_delivers :
    nextIs (exec (.cont true 0 false 2) (rx 0x6F (at_ .pay 0 true false 2 2 1
        { hel cli with msgbuf := [(0, 0x48), (1, 0x65), (2, 0x6C), (3, 0x6C)] })))
      (fun t => decide (t.msg = ⟨true, 1, 5⟩ ∧ t.ra = ⟨false, 0, 0⟩ ∧ t.msgbuf.read 4 = some 0x6F ∧
        t.irq.pend = 1 ∧ t.ph = .hdr0)) = true := by decide

/-- R114 (b): a `CONT` with no message in progress, 95_test_vectors.md: `ERR = 0x11`. -/
theorem test_cont_no_start :
    nextIs (exec (.cont true 0 false 0) srv) (fun t => decide (t.err.code = 0x11#8 ∧ t.rxCount = 1)) = true := by decide

/-- R125: byte 0 `81` of the Hello frame. -/
theorem test_text_byte0 :
    nextIs (exec (.text true 0 false 0) srv)
      (fun t => decide (t.ph = .hdr1 ∧ t.f.fin = true ∧ t.f.op = 1 ∧ t.rxCount = 1)) = true := by decide

/-- R125: payload byte `51`, index 3, unmasked with key byte `3D` is "l" (6C). -/
theorem test_text_unmasks :
    nextIs (exec (.text true 0 true 5) (rx 0x51 { at_ .pay 1 true true 5 5 3 srv with
        f := { fin := true, rsv := 0, op := 1, mask := true, len7 := 5, len := 5, key := ⟨0x37, 0xFA, 0x21, 0x3D⟩, idx := 3 } }))
      (fun t => decide (t.msgbuf = [(3, 0x6C)] ∧ t.f.idx = 4 ∧ t.ph = .pay)) = true := by decide

/-- R144's example: `82 02 00 FF` to a `CLIENT` block delivers Binary `00 FF`; this is its last byte, not valid UTF-8. -/
theorem test_binary_delivers :
    nextIs (exec (.binary true 0 false 2) (rx 0xFF (at_ .pay 2 true false 2 2 1 { cli with msgbuf := [(0, 0)] })))
      (fun t => decide (t.msg = ⟨true, 2, 2⟩ ∧ t.msgbuf = [(0, 0), (1, 0xFF)] ∧ t.fault = false)) = true := by decide

/-- R114 (d): the sum `ra_len + f_len` is not reduced modulo 2^64; `RESOURCE_MSG` is 0x40. -/
theorem test_binary_capacity_sum :
    nextIs (exec (.cont true 0 false 127) (rx 0xFF { at_ .ext 0 true false 127 0x00FFFFFFFFFFFFFF 0 (hel cli) with cnt := 7 }))
      (fun t => decide (t.err.code = 0x40#8 ∧ t.f.len = 0xFFFFFFFFFFFFFFFF)) = true := by decide

/-- R166's example: byte `83`: `ERR = 0x10`, `ERR_INFO = 0x00080083`, `rx_count = 1`. -/
theorem test_rsvd3 :
    nextIs (exec (.rsvd3 true 0 false 0) srv)
      (fun t => decide (csrRead t 0x010 = 0x10#32 ∧ csrRead t 0x014 = 0x00080083#32 ∧ t.rxCount = 1)) = true := by decide

/-- R166, as for `83`, each other reserved opcode with FIN = 1. -/
theorem test_rsvd_others :
    ([(Instr.rsvd4 true 0 false 0, 0x84#8), (.rsvd5 true 0 false 0, 0x85#8), (.rsvd6 true 0 false 0, 0x86#8),
      (.rsvd7 true 0 false 0, 0x87#8), (.rsvdB true 0 false 0, 0x8B#8), (.rsvdC true 0 false 0, 0x8C#8),
      (.rsvdD true 0 false 0, 0x8D#8), (.rsvdE true 0 false 0, 0x8E#8), (.rsvdF true 0 false 0, 0x8F#8)].all
      (fun p => nextIs (exec p.1 (hel srv))
        (fun t => decide (t.err.code = 0x10#8 ∧ t.errInfo = 0x0800#13 ++ p.2 ∧ t.ra.active = false)))) = true := by decide

/-- R160's example: the last byte `E8` of `CLOSE MASK 00 00 00 00 hex(03 E8)` in `OPEN`. -/
theorem test_close_queues_echo :
    nextIs (exec (.close true 0 true 2) (rx 0xE8 (at_ .pay 8 true true 2 2 1 { srv with ctrlbuf := [(0, 3)] })))
      (fun t => decide (t.cs = .closingReceived ∧ t.crPend = .closeEcho ∧ t.closeRx = true ∧ t.ph = .stop ∧
        t.ctrl = ⟨8, 2⟩ ∧ t.ctrlbuf = [(0, 3), (1, 0xE8)])) = true := by decide

/-- R160, R231: a Close in `CLOSING_SENT` whose own Close has left ends the connection in the same step. -/
theorem test_close_ends :
    nextIs (settleOut (exec (.close true 0 false 0)
        { at_ .hdr1 8 true false 0 0 0 cli with cs := .closingSent }))
      (fun t => decide (t.cs = .closed ∧ t.endCause = .close ∧ t.fault = false)) = true := by decide

/-- R162's example: the last byte `6F` of `PING "Hello"` to a `CLIENT` block in `OPEN` queues a Pong. -/
theorem test_ping_queues_pong :
    nextIs (exec (.ping true 0 false 5) (rx 0x6F (at_ .pay 9 true false 5 5 4 (hel cli))))
      (fun t => decide (t.crPend = .pong ∧ t.ctrl = ⟨9, 5⟩ ∧ t.ra = ⟨true, 1, 3⟩ ∧ t.ph = .hdr0)) = true := by decide

/-- R162: no Pong in `CLOSING_SENT`. -/
theorem test_ping_closing_sent :
    nextIs (exec (.ping false 0 false 0) { at_ .hdr1 9 false false 0 0 0 cli with cs := .closingSent })
      (fun t => decide (t.crPend = .none ∧ t.ctrl = ⟨9, 0⟩ ∧ t.ph = .hdr0)) = true := by decide

/-- R164's example: the last byte `79` of `PONG MASK 01 02 03 04 "x"`: nothing but the parser registers and `rx_count`. -/
theorem test_pong_discards :
    nextIs (exec (.pong true 0 true 1) (rx 0x79 (at_ .pay 0xA true true 1 1 0 { srv with rxCount := 6 })))
      (fun t => decide (t.rxCount = 7 ∧ t.ph = .hdr0 ∧ t.ctrl = ⟨0, 0⟩ ∧ t.ctrlbuf = [] ∧ t.msgbuf = [])) = true := by decide

/-- R94, R246: byte `00` (MASK = 0) at a `SERVER` block: `ERR = 0x14`, both header bytes shown. -/
theorem test_pong_wrong_mask :
    nextIs (exec (.pong true 0 false 0) (at_ .hdr1 0xA true false 0 0 0 srv))
      (fun t => decide (t.err.code = 0x14#8 ∧ csrRead t 0x014 = 0x0019008A#32)) = true := by decide

/-! ## One command -/

/-- R211's example: a write of 0x00000010 is `NOP`. -/
theorem test_nop : nextIs (exec (.nop 1) srv) (fun t => decide (t = srv)) = true := by decide

/-- R213's example: after reset `HS_DONE` gives `STATUS = 0x00000001`. -/
theorem test_hsDone : nextIs (exec (.hsDone 0) State.reset) (fun t => decide (csrRead t 0x00C = 1#32)) = true := by decide

/-- R213: a second `HS_DONE` is rejected, `STATUS.CMD_REJ` (bit 7). -/
theorem test_hsDone_twice : nextIs (exec (.hsDone 0) srv) (fun t => decide (csrRead t 0x00C = 0x81#32)) = true := by decide

/-- R214's and R246's examples: `ERR = 0x30`, `END_CAUSE = FAULT`, `ERR_INFO = 0x00050000`. -/
theorem test_hsFail :
    nextIs (exec (.hsFail 0) State.reset) (fun t => decide (csrRead t 0x010 = 0x30#32 ∧ csrRead t 0x014 = 0x00050000#32 ∧
      t.cs = .closed ∧ t.endCause = .fault ∧ t.irq.pend = 12)) = true := by decide

/-- R215: `MSG_ACK` clears `msg_valid` only. -/
theorem test_msgAck :
    nextIs (exec (.msgAck 0) { srv with msg := ⟨true, 1, 5⟩ }) (fun t => decide (t.msg = ⟨false, 1, 5⟩ ∧ t.cmdRej = false)) =
      true := by decide

/-- R216, R189: `TX_CTRL = 0x81`, `tx_len = 5`. -/
theorem test_txData :
    nextIs (exec (.txData 0) { cli with txCtrl := ⟨1, true⟩, txLen := 5 }) (fun t => decide (t.ht = ⟨true, true, 1, 5⟩)) =
      true := by decide

/-- R216: a control opcode is rejected. -/
theorem test_txData_control :
    nextIs (exec (.txData 0) { srv with txCtrl := ⟨9, true⟩ }) (fun t => decide (t.ht.pend = false ∧ t.cmdRej = true)) =
      true := by decide

/-- R217's example: `OPEN`, `tx_len = 0`. -/
theorem test_txClose :
    nextIs (exec (.txClose 0) srv) (fun t => decide (t.cs = .closingSent ∧ t.ht = ⟨true, true, 8, 0⟩)) = true := by decide

/-- R217, R10: a length past `P_TX_CAP` is rejected. -/
theorem test_txClose_too_long :
    nextIs (exec (.txClose 0) { srv with txLen := 4097 }) (fun t => decide (t.cs = .opened ∧ t.cmdRej = true)) = true := by decide

/-- R218's example: `CLOSED`, `END_CAUSE = ABORT`, `TERM = 1`. -/
theorem test_abort :
    nextIs (exec (.abort 0) (hel srv)) (fun t => decide (t.cs = .closed ∧ t.endCause = .abort ∧ t.fault = false ∧
      termOut t = true ∧ t.ra.active = false)) = true := by decide

/-- R219's example. -/
theorem test_clrRej : nextIs (exec (.clrRej 0) { srv with cmdRej := true }) (fun t => decide (t = srv)) = true := by decide

/-- R220: a reserved code takes the reject action. -/
theorem test_cmdRsvd8F :
    nextIs (exec (.cmdRsvd8F 0 8) srv) (fun t => decide (t = { srv with cmdRej := true })) = true := by decide

/-! ## Events and registers -/

/-- R181's example: `enc_hdr = [8A, 05]`. -/
theorem test_txStart_pong :
    nextIs (step (ev (.txStart none) { srv with crPend := .pong, ctrl := ⟨9, 5⟩ }))
      (fun t => decide (t.enc.hdr = [0x8A, 0x05] ∧ t.enc.plen = 5 ∧ t.crPend = .none ∧ t.enc.src = .ctrl)) = true := by decide

/-- R189: the header of a `CLIENT` block's frame, key draw 0x37FA213D. -/
theorem test_txStart_client :
    nextIs (step (ev (.txStart (some 0x37FA213D)) { cli with ht := ⟨true, true, 1, 5⟩ }))
      (fun t => decide (t.enc.hdr = [0x81, 0x85, 0x37, 0xFA, 0x21, 0x3D] ∧ t.ht.pend = false)) = true := by decide

/-- R189: the last of its eleven bytes is `58`, and `TXDONE` is set. -/
theorem test_txByte_last :
    nextIs (step (ev .txByte { cli with
        txbuf := [(4, 0x6F)]
        enc := ⟨true, .host, [0x81, 0x85, 0x37, 0xFA, 0x21, 0x3D], 5, true, ⟨0x37, 0xFA, 0x21, 0x3D⟩, 10⟩ }))
      (fun t => decide (t.env.txStream = [0x58] ∧ t.enc.busy = false ∧ t.irq.pend = 2 ∧ t.txCount = 1)) = true := by decide

/-- R225's and R246's example: `RXEND` after `81 85` at a `SERVER` block (phase `KEY`): `ERR = 0x01`, `0x001B8581`. -/
theorem test_rxEnd_truncated :
    nextIs (step (ev .rxEnd (at_ .key 1 true true 5 5 0 srv)))
      (fun t => decide (csrRead t 0x010 = 1#32 ∧ csrRead t 0x014 = 0x001B8581#32)) = true := by decide

/-- V119: `RXEND` holds while a message is held, and `MSG_ACK` is taken past it. -/
theorem test_rxEnd_holds :
    nextIs (step (ev .rxEnd { srv with msg := ⟨true, 1, 1⟩ })) (fun t => decide (t = ev .rxEnd { srv with msg := ⟨true, 1, 1⟩ })) =
      true ∧
    nextIs (step { srv with
        msg := ⟨true, 1, 1⟩, env := { srv.env with events := [.rxEnd, .host (.csrWrite 32 0x008 3)] } })
      (fun t => decide (t = ev .rxEnd { srv with msg := ⟨false, 1, 1⟩ })) = true := by decide

/-- V119: after `MSG_ACK` the waiting `RXEND` is a clean end, `STATUS = 0x00015204`. -/
theorem test_rxEnd_after_msgAck :
    nextIs (step (ev .rxEnd { srv with msg := ⟨false, 1, 1⟩ })) (fun t => decide (csrRead t 0x00C = 0x00015204#32)) = true := by
  decide

/-- V182: `TxError` holds with no frame in emission. -/
theorem test_txError_holds : nextIs (step (ev .txError srv)) (fun t => decide (t = ev .txError srv)) = true := by decide

/-- R97 at the boundaries of its regimes. -/
theorem test_encLen :
    encLen 125 = (125#7, []) ∧ encLen 126 = (126#7, [0, 126]) ∧ encLen 65535 = (126#7, [0xFF, 0xFF]) ∧
      encLen 65536 = (127#7, [0, 0, 0, 0, 0, 1, 0, 0]) := by decide

/-- R146: a surrogate, an overlong form, a code point above U+10FFFF and a cut sequence are invalid; U+0000 and U+20AC are
valid. -/
theorem test_utf8 :
    utf8Valid [0xED, 0xA0, 0x80] = false ∧ utf8Valid [0xC0, 0x80] = false ∧ utf8Valid [0xF4, 0x90, 0x80, 0x80] = false ∧
      utf8Valid [0xE2, 0x82] = false ∧ utf8Valid [0x00, 0xE2, 0x82, 0xAC] = true := by decide

/-! ## Witnesses: states that meet the hypotheses of each obligation, clause by clause -/

theorem witness_DecodeOfEncodeIsTheInstruction :
    (Instr.cmdRsvd8F 0xFFFFFFF 8).wf = true ∧ (Instr.text true 7 true 127).wf = true := by decide

theorem witness_EncLenIsShortestAndReadsBack :
    (125#64).toNat < 126 ∧ (126 ≤ (126#64).toNat ∧ (126#64).toNat ≤ 65535) ∧
      (126 ≤ (65535#64).toNat ∧ (65535#64).toNat ≤ 65535) ∧ 65535 < (65536#64).toNat := by decide

/-- Byte 0, byte 1 and a key byte. -/
theorem witness_StepRunsTheFrameOfAnRxByte :
    (rxEnabled srv = true ∧ decodeBytes [0x81#8, 0] = .ok (.text true 0 false 0, [])) ∧
    (rxEnabled (at_ .hdr1 1 true false 0 0 0 srv) = true ∧
      decodeBytes [byte0Of true 0 1, 0x85#8] = .ok (.text true 0 true 5, [])) ∧
    (rxEnabled (at_ .key 1 true true 5 5 0 srv) = true ∧
      decodeBytes [byte0Of true 0 1, byte1Of true 5] = .ok (.text true 0 true 5, [])) :=
  ⟨⟨rfl, rfl⟩, ⟨rfl, rfl⟩, ⟨rfl, rfl⟩⟩

theorem witness_StepRunsTheCommandOfACmdWrite :
    (ev (.host (.csrWrite 32 0x008 1)) State.reset).env.events = .host (.csrWrite 32 0x008 1) :: [] ∧
      decode (.command 1) = .hsDone 0 ∧
    (ev (.host (.bufWrite .txbuf 8 0 0x41)) srv).env.events = .host (.bufWrite .txbuf 8 0 0x41) :: [] := by decide

/-- R231: `settle` follows a host access that is no command: a read in a complete closing handshake closes it. -/
theorem test_settle_after_csrRead :
    nextIs (step (ev (.host (.csrRead 32 0x010)) { srv with cs := .closingSent, closeRx := true }))
      (fun t => decide (t.cs = .closed ∧ t.endCause = .close ∧ t.env.reply = some (.word 0))) = true := by decide

theorem witness_PlacedInstructionRunsNext :
    decodeTableWord 32 0x4 = some (.txData 0) ∧ decodeTableWord 16 0x8185 = some (.text true 0 true 5) := by decide

theorem witness_GuardFalseHolds :
    (rxEnabled State.reset = false ∧ frameOpcode (.text true 0 true 5) ≠ none) ∧
    ((ev (.rxByte 0x81) State.reset).env.events = [.rxByte 0x81] ∧ (ev (.rxByte 0x81) State.reset).ph = .stop) ∧
    ((ev .rxEnd { srv with msg := ⟨true, 1, 0⟩ }).ph = .hdr0 ∧ (ev .rxEnd { srv with msg := ⟨true, 1, 0⟩ }).msg.valid = true) ∧
    (ev .rxEnd { srv with crPend := .pong }).crPend ≠ .none ∧
    (({ srv with enc := { srv.enc with busy := true, src := .ctrl } } : State).enc.src = .ctrl) ∧
    ((ev (.txStart none) State.reset).cs = .handshaking) ∧
    ((ev (.txStart none) srv).crPend = .none ∧ (ev (.txStart none) srv).ht.pend = false) ∧
    ((ev (.txStart none) cli).cfg.role = .client) ∧
    ((ev .txByte srv).env.events = [.txByte] ∧ (ev .txByte srv).enc.busy = false) ∧
    ({ srv with env := { srv.env with events := [.txByte, .rxEnd] } } : State).env.events = [.txByte] ++ .rxEnd :: [] ∧
    rxEnabled srv = true := by decide

/-- The hypotheses of `Byte0OfALegalFrame`, `Byte0AgainstTheSequenceFaults` and `ReservedOpcodeFaultsAtByte0`. -/
theorem witness_Byte0 :
    (rxEnabled srv = true ∧ srv.ph = .hdr0 ∧ srv.ra.active = false) ∧
    (rxEnabled (hel srv) = true ∧ (hel srv).ph = .hdr0 ∧ (hel srv).ra.active = true) := by decide

theorem witness_WrongMaskFaultsAtByte1 :
    ((at_ .hdr1 1 true false 0 0 0 srv).ph = .hdr1 ∧ (false = true ↔ srv.cfg.role = .client)) ∧
    ((at_ .hdr1 1 true false 0 0 0 cli).ph = .hdr1 ∧ (true = true ↔ cli.cfg.role = .client)) := by decide

/-- 126 goes to `EXT`; 125 is within capacity for every opcode, masked at a `SERVER` and unmasked at a `CLIENT` block. -/
theorem witness_Byte1OfALegalFrame :
    (true = true ↔ srv.cfg.role = .server) ∧ (false = true ↔ cli.cfg.role = .server) ∧ 126 ≤ (126#7).toNat ∧
    (125#7).toNat ≤ 125 ∧ 125#7 ≠ 0 ∧
    [0x0#4, 0x1, 0x2, 0x8, 0x9, 0xA].all
      (fun op => decide (capacityCheck op (at_ .hdr1 1 true true 125 125 0 srv) = none ∧
        capacityCheck op (at_ .hdr1 1 true false 125 125 0 cli) = none)) = true := by decide

theorem witness_CapacityCheckByDestination :
    srv.params.msgCap = none ∧
      (cap125 srv).params.msgCap = some 125 := by decide

/-- One byte past each capacity: at byte 1 with one byte of a message already there, at the last extended length byte. -/
theorem witness_CapacityFaultsWhenTheLengthIsKnown :
    (capacityCheck 0x0 { at_ .hdr1 0 true true 125 125 0 srv with
        params := { srv.params with msgCap := some 125 }, ra := ⟨true, 2, 1⟩ } = some .resourceMsg ∧
      (true = true ↔ srv.cfg.role = .server) ∧ (125#7).toNat ≤ 125) ∧
    (({ at_ .ext 9 true true 126 0 0 srv with cnt := 1 } : State).cnt.toNat + 1 = extNeed 126 ∧
      capacityCheck 0x9 (at_ .ext 9 true true 126 126 0 srv) = some .resourceCtrl) := by decide

theorem witness_ExtendedLengthIsBigEndian :
    (at_ .ext 1 true true 126 0 0 srv).cnt.toNat + 1 ≠ extNeed 126 ∧
    (({ srv with cnt := 1 } : State).cnt.toNat + 1 = extNeed 126 ∧
      ({ srv with cnt := 7 } : State).cnt.toNat + 1 = extNeed 127) ∧
    [0x0#4, 0x1, 0x2, 0x8, 0x9, 0xA].all
      (fun op => decide (capacityCheck op (at_ .ext 1 true true 126 125 0 srv) = none)) = true ∧
    (at_ .ext 1 true true 126 0 0 srv).f.mask = true ∧ (at_ .ext 1 true false 126 0 0 cli).f.mask = false ∧
    125#64 ≠ 0 := by decide

theorem witness_KeyBytesAreKeptInWireOrder :
    (at_ .key 1 true true 0 0 0 srv).ph = .key ∧ (at_ .key 1 true true 0 0 0 srv).cnt.toNat < 3 ∧
    (({ at_ .key 1 true true 1 1 0 srv with cnt := 3 } : State).cnt.toNat < 4 ∧ (at_ .key 1 true true 1 1 0 srv).f.len ≠ 0) := by
  decide

/-- The first byte of a two-byte payload, in an unbounded message buffer and at the last index of a finite one, and the last
control index that has a place. -/
theorem witness_PayloadByteIsUnmaskedAndStored :
    ((at_ .pay 1 true true 2 2 0 srv).ph = .pay ∧ (at_ .pay 1 true true 2 2 0 srv).f.idx + 1 ≠ (at_ .pay 1 true true 2 2 0 srv).f.len ∧
      srv.params.msgCap = none) ∧
    ((cap125 srv).params.msgCap = some 125 ∧
      (124#64).toNat + (0#64).toNat < 125) ∧
    ((at_ .pay 9 true true 126 126 124 srv).f.idx.toNat < srv.params.ctrlCap) := by decide

/-- The hypotheses of `UnfinishedDataFrameJoinsTheMessage`: an unmasked empty frame that ends at byte 1, each opcode. -/
theorem witness_UnfinishedDataFrameJoinsTheMessage :
    [0x0#4, 0x1, 0x2].all (fun op => decide ((frameEndState op false 0 (at_ .hdr1 op false false 0 0 0 cli)).isSome = true ∧
      (at_ .hdr1 op false false 0 0 0 cli).f.fin = false)) = true := by decide

/-- R142's example and the other clauses of `FinishedMessageIsDelivered`, and two of `BadUtf8IsNotDelivered`. -/
theorem witness_FinishedMessageIsDelivered :
    (∃ t, frameEndState 0x2 false 2 (rx 0xFF (at_ .pay 2 true false 2 2 1 cli)) = some t) ∧
    (∃ t, frameEndState 0x0 false 0 (at_ .hdr1 0 true false 0 0 0 { cli with ra := ⟨true, 2, 0⟩ }) = some t ∧ t.ra.op = 0x2) ∧
    (∃ t bs, frameEndState 0x1 false 1 (rx 0x6F (at_ .pay 1 true false 1 1 0 cli)) = some t ∧
      t.msgbuf.bytes 0 t.f.len.toNat = some bs ∧ utf8Valid bs = true) ∧
    (∃ t bs, frameEndState 0x0 false 1 (rx 0x6F (at_ .pay 0 true false 1 1 0 (hel cli))) = some t ∧ t.ra.op = 0x1 ∧
      t.msgbuf.bytes 0 (t.ra.len + t.f.len).toNat = some bs ∧ utf8Valid bs = true) :=
  ⟨⟨_, rfl⟩, ⟨_, rfl, rfl⟩, ⟨_, _, rfl, rfl, rfl⟩, ⟨_, _, rfl, rfl, rfl, rfl⟩⟩

theorem witness_BadUtf8IsNotDelivered :
    (∃ t bs, frameEndState 0x1 false 1 (rx 0xFF (at_ .pay 1 true false 1 1 0 cli)) = some t ∧
      t.msgbuf.bytes 0 t.f.len.toNat = some bs ∧ utf8Valid bs = false) ∧
    (∃ t bs, frameEndState 0x0 false 1 (rx 0xC0 (at_ .pay 0 true false 1 1 0 (hel cli))) = some t ∧ t.ra.op = 0x1 ∧
      t.msgbuf.bytes 0 (t.ra.len + t.f.len).toNat = some bs ∧ utf8Valid bs = false) :=
  ⟨⟨_, _, rfl, rfl, rfl⟩, ⟨_, _, rfl, rfl, rfl, rfl⟩⟩

/-- The control frames of R160's, R162's and R164's examples, at their last byte. -/
theorem witness_ControlFramesEnd :
    (∃ t, frameEndState 0x8 true 2 (rx 0xE8 (at_ .pay 8 true true 2 2 1 srv)) = some t) ∧ srv.cs = .opened ∧
    (∃ t, frameEndState 0x8 false 0 (at_ .hdr1 8 true false 0 0 0 { cli with cs := .closingSent }) = some t) ∧
    (∃ t, frameEndState 0x9 false 5 (rx 0x6F (at_ .pay 9 true false 5 5 4 cli)) = some t) ∧
    rxEnabled (at_ .pay 9 true false 5 5 4 cli) = true ∧
    (∃ t, frameEndState 0xA true 1 (rx 0x79 (at_ .pay 0xA true true 1 1 0 srv)) = some t) :=
  ⟨⟨_, rfl⟩, rfl, ⟨_, rfl⟩, ⟨_, rfl⟩, rfl, ⟨_, rfl⟩⟩

/-- The frame of each data and control opcode answers a next state: at byte 0, at a payload byte, and at a delivery. -/
theorem witness_FrameStatements :
    (∃ t, exec (.cont true 0 true 1) (rx 0x6F (at_ .pay 0 true true 1 1 0 (hel srv))) = .next t) ∧
    (∃ t, exec (.text true 0 true 2) (at_ .pay 1 true true 2 2 0 srv) = .next t) ∧
    (∃ t, exec (.binary true 0 false 0) srv = .next t) ∧
    (∃ t, exec (.close true 0 true 2) (at_ .pay 8 true true 2 2 0 srv) = .next t) ∧
    (∃ t, exec (.ping true 0 true 2) (at_ .pay 9 true true 2 2 0 srv) = .next t) ∧
    (∃ t, exec (.pong true 0 true 2) (at_ .pay 0xA true true 2 2 0 srv) = .next t) :=
  ⟨⟨_, rfl⟩, ⟨_, rfl⟩, ⟨_, rfl⟩, ⟨_, rfl⟩, ⟨_, rfl⟩, ⟨_, rfl⟩⟩

theorem witness_SettleClosesACompleteHandshake :
    echoDone { srv with cs := .closingReceived } = true ∧
    bothClosesDone { srv with cs := .closingSent, closeRx := true } = true ∧
    (echoDone srv || bothClosesDone srv) = false := by decide

/-- Both sides of each command's legality. -/
theorem witness_Commands :
    (State.reset.cs = .handshaking ∧ srv.cs ≠ .handshaking ∧ srv.cs ≠ .closed ∧ (closeDone .abort srv).cs = .closed) ∧
    (({ srv with msg := ⟨true, 1, 5⟩ } : State).msg.valid = true ∧ srv.msg.valid = false) ∧
    (srv.cs = .opened ∧ srv.ht.pend = false ∧ srv.enc.busy = false ∧ srv.txCtrl.op = 0 ∧ srv.txLen.toNat ≤ srv.params.txCap) ∧
    (({ srv with txLen := 4096 } : State).txLen.toNat ≤ srv.params.txCap ∧
      ¬ ({ srv with txLen := 4097 } : State).txLen.toNat ≤ srv.params.txCap) ∧
    ({ srv with txCtrl := ⟨8, true⟩ } : State).txCtrl.op = 8 := by decide

/-- When the only event waits, none is taken. -/
theorem waits_alone {e : Event} {s : State} (h : eventTaken e s = false) : ∀ x r, ¬ Takes (ev e s) x r :=
  fun x r hT => by
    have h' := firstTaken_eq_some.2 hT
    have hn : firstTaken (ev e s) [e] = none := firstTaken_eq_none.2 (by simpa using (by cases e <;> exact h))
    rw [show (ev e s).env.events = [e] from rfl, hn] at h'
    cases h'

theorem witness_RxEndWaits : rxEnabled (ev .rxEnd State.reset) = false ∧ (∀ x r, ¬ Takes (ev .rxEnd State.reset) x r) ∧
    (ev .txError srv).enc.busy = false ∧ ∀ x r, ¬ Takes (ev .txError srv) x r :=
  ⟨rfl, waits_alone rfl, rfl, waits_alone rfl⟩

theorem witness_RxEndBetweenAndInsideFrames :
    rxEnabled (ev .rxEnd State.reset) = false ∧
    (rxEnabled (ev .rxEnd srv) = true ∧ (ev .rxEnd srv).ph = .hdr0 ∧ (ev .rxEnd srv).env.events = .rxEnd :: []) ∧
    (rxEnabled (ev .rxEnd (at_ .key 1 true true 5 5 0 srv)) = true ∧ (at_ .key 1 true true 5 5 0 srv).ph ≠ .hdr0) := by decide

/-- `s` with a two-byte-header host frame of one payload byte in emission, at position `pos`. -/
def emitting (src : TxSrc) (pos : Word64) (s : State) : State :=
  { s with enc := ⟨true, src, [0x82, 0x01], 1, false, ⟨0, 0, 0, 0⟩, pos⟩ }

theorem witness_TxErrorIsAFault :
    (ev .txError (emitting .host 1 srv)).env.events = .txError :: [] ∧ (emitting .host 1 srv).enc.busy = true ∧
    (ev .txError srv).enc.busy = false := by decide

/-- A Pong, a Close echo and a host frame, at a `SERVER` and at a `CLIENT` block with a key. -/
theorem witness_TxStartBuildsTheFrame :
    ((ev (.txStart none) { srv with crPend := .pong }).env.events = .txStart none :: [] ∧
      txStartTaken none { srv with crPend := .pong } = true) ∧
    txStartTaken none { srv with cs := .closingReceived, crPend := .closeEcho } = true ∧
    txStartTaken (some 0x37FA213D) { cli with ht := ⟨true, true, 1, 5⟩ } = true := by decide

theorem witness_TxByteEmitsTheNextByte :
    ((ev .txByte (emitting .host 1 srv)).env.events = .txByte :: [] ∧ (emitting .host 1 srv).enc.busy = true) ∧
    (emitting .host 1 srv).enc.hdr[1]? = some 0x01 ∧
    (2 ≤ (emitting .host 2 srv).enc.pos.toNat ∧ 0 < srv.params.txCap ∧ Memory.read [(0, 0x41#8)] 0 = some 0x41#8 ∧
      srv.txbuf.read 0 = none) ∧
    ((emitting .ctrl 2 srv).enc.src = .ctrl ∧ 0 < srv.params.ctrlCap) := by decide

theorem witness_ResetPutsEveryFieldAtItsResetValue :
    (ev .reset (hel srv)).env.events = .reset :: [] := by decide

theorem witness_CsrReadsChangeNothing :
    csrAccessOk 32 0xFFC = true ∧ csrAccessOk 32 0x1000 = false ∧ csrAccessOk 32 0x00E = false ∧ csrAccessOk 16 0 = false := by
  decide

theorem witness_RegistersReadTheirFields : srv.params.wf = true ∧ 0x064 < 0x068 := by decide

theorem witness_WritesToTheOtherRegisters :
    0x06C % 4 = 0 ∧ 0x06C ≤ 0xFFC ∧ 0x06C ∉ [0x004, 0x008, 0x038, 0x03C, 0x040, 0x044, 0x048] ∧
    0x000 ∉ [0x004, 0x008, 0x038, 0x03C, 0x040, 0x044, 0x048] := by decide

/-- R60: with `P_MSG_CAP` of 125, index 124 of `MSGBUF` is the last. -/
theorem test_msgbuf_range :
    hostAccess (.bufWrite .msgbuf 8 124 0) (cap125 srv) = .next (cap125 srv) ∧
      hostAccess (.bufWrite .msgbuf 8 125 0) (cap125 srv) = .refused .bufAccess := ⟨rfl, rfl⟩

/-- In range and out of range, at the last index of `CTRLBUF`, of `TXBUF`, of a `MSGBUF` of 125 bytes, and of a delivered
message. -/
theorem witness_BufferAccessesByWindow :
    (124 < srv.params.ctrlCap ∧ ¬ 125 < srv.params.ctrlCap) ∧ (4095 < srv.params.txCap ∧ ¬ 4096 < srv.params.txCap) ∧
    srv.params.msgCap = none ∧
    ((cap125 srv).params.msgCap = some 125 ∧ 124 < 125 ∧ ¬ 125 < 125) ∧
    (({ hel srv with msg := ⟨true, 1, 3⟩ } : State).msgbuf.read 2 = some 0x6C ∧ 2 < (3#64).toNat) ∧
    (({ srv with ctrlbuf := [(0, 0x78)], ctrl := ⟨9, 1⟩ } : State).ctrlbuf.read 0 = some 0x78 ∧ 0 < (1#32).toNat) := by decide

/-! ## Witnesses of the invariant -/

theorem inv_srv (e : Event) : Inv (ev e srv) := by
  refine ⟨⟨rfl, ⟨rfl, rfl, rfl, by simp [ev, srv, State.reset], by simp [ev, srv, State.reset],
    by simp [ev, srv, State.reset]⟩, ?_, ?_, ?_⟩, rfl⟩ <;> constructor <;>
    simp [ev, srv, State.reset, midFrame, Memory.written, extNeed, msgLimit, crBusy]

/-- An empty Binary message is held. -/
theorem inv_holding (e : Event) : Inv (ev e { srv with msg := ⟨true, 2, 0⟩ }) := by
  refine ⟨⟨rfl, ⟨rfl, rfl, rfl, by simp [ev, srv, State.reset], by simp [ev, srv, State.reset],
    by simp [ev, srv, State.reset]⟩, ?_, ?_, ?_⟩, rfl⟩ <;> constructor <;>
    simp [ev, srv, State.reset, midFrame, Memory.written, extNeed, msgLimit, crBusy]

/-- A Pong is pending for an empty Ping. -/
theorem inv_ponging (e : Event) : Inv (ev e { srv with crPend := .pong, ctrl := ⟨9, 0⟩ }) := by
  refine ⟨⟨rfl, ⟨rfl, rfl, rfl, by simp [ev, srv, State.reset], by simp [ev, srv, State.reset],
    by simp [ev, srv, State.reset]⟩, ?_, ?_, ?_⟩, rfl⟩ <;> constructor <;>
    simp [ev, srv, State.reset, midFrame, Memory.written, extNeed, msgLimit, crBusy]

/-- The connection has been aborted. -/
theorem inv_aborted (e : Event) : Inv (ev e (closeDone .abort srv)) := by
  refine ⟨⟨rfl, ⟨rfl, rfl, rfl, by simp [ev, srv, State.reset], by simp [ev, srv, State.reset],
    by simp [ev, srv, State.reset]⟩, ?_, ?_, ?_⟩, rfl⟩ <;> constructor <;>
    simp [ev, srv, State.reset, midFrame, Memory.written, extNeed, msgLimit, crBusy, closeDone]

/-- The hypotheses of `StepKeepsTheInvariant` and `StepNeverStopsWithAFault`, at the first byte of a frame. -/
theorem witness_StepKeepsTheInvariant :
    Inv (ev (.rxByte 0x81) srv) ∧ ∃ t, step (ev (.rxByte 0x81) srv) = .next t ∧ t.ph = .hdr1 :=
  ⟨inv_srv _, _, rfl, rfl⟩

/-- The only event is not of the kind `x`, so `x` is not taken. -/
theorem not_takes {e x : Event} {s : State} (h : e ≠ x) (r : List Event) : ¬ Takes (ev e s) x r := by
  rintro ⟨pre, post, he, -, -, -⟩
  have : x ∈ [e] := by rw [show [e] = pre ++ x :: post from he]; simp
  exact h (List.mem_singleton.1 this).symm

theorem witness_OnlyHostAccessesAreRefused :
    step (ev (.host (.csrRead 32 0x002)) srv) = .refused .csrAccess ∧
    step (ev (.host (.bufRead .ctrlbuf 8 125)) srv) = .refused .bufAccess := ⟨rfl, rfl⟩

theorem witness_ClosedIsLeftOnlyByReset :
    Inv (ev (.rxByte 0x81) (closeDone .abort srv)) ∧ (closeDone .abort srv).cs = .closed ∧
    (∀ rest, ¬ Takes (ev (.rxByte 0x81) (closeDone .abort srv)) .reset rest) ∧
    ∃ t, step (ev (.rxByte 0x81) (closeDone .abort srv)) = .next t :=
  ⟨inv_aborted _, rfl, not_takes (by decide), _, rfl⟩

/-- A command in `CLOSED` is taken, and rejected. -/
theorem witness_ClosedTakesACommand :
    Inv (ev (.host (.csrWrite 32 0x008 1)) (closeDone .abort srv)) ∧
    (∀ rest, ¬ Takes (ev (.host (.csrWrite 32 0x008 1)) (closeDone .abort srv)) .reset rest) ∧
    ∃ t, step (ev (.host (.csrWrite 32 0x008 1)) (closeDone .abort srv)) = .next t ∧ t.cmdRej = true :=
  ⟨inv_aborted _, not_takes (by decide), _, rfl, rfl⟩

/-- A `CFG` write in `OPEN`. -/
theorem witness_RoleIsFixedForTheConnection :
    srv.cs ≠ .handshaking ∧ (∀ rest, ¬ Takes (ev (.host (.csrWrite 32 0x004 1)) srv) .reset rest) ∧
    ∃ t, step (ev (.host (.csrWrite 32 0x004 1)) srv) = .next t ∧ t.cfg.role = .server :=
  ⟨by decide, not_takes (by decide), _, rfl, rfl⟩

/-- A byte taken on each stream. -/
theorem witness_CountersCountAcceptedBytes :
    (Takes (ev (.rxByte 0x81) srv) (.rxByte 0x81) [] ∧ ∃ t, step (ev (.rxByte 0x81) srv) = .next t) ∧
    (Takes (ev .txByte (emitting .host 1 srv)) .txByte [] ∧ ∃ t, step (ev .txByte (emitting .host 1 srv)) = .next t) :=
  ⟨⟨takes_of_events rfl rfl, _, rfl⟩, takes_of_events rfl rfl, _, rfl⟩

/-- A byte offered while a message is held waits. -/
theorem witness_DeliveredMessageStaysUntilAcknowledged :
    Inv (ev (.rxByte 0x81) { srv with msg := ⟨true, 2, 0⟩ }) ∧
    (∀ rest, ¬ Takes (ev (.rxByte 0x81) { srv with msg := ⟨true, 2, 0⟩ }) .reset rest) ∧
    (∀ (w : Word32) (rest : List Event), w.extractLsb' 0 4 = 0x3#4 →
      ¬ Takes (ev (.rxByte 0x81) { srv with msg := ⟨true, 2, 0⟩ }) (.host (.csrWrite 32 0x008 w)) rest) ∧
    ∃ t, step (ev (.rxByte 0x81) { srv with msg := ⟨true, 2, 0⟩ }) = .next t ∧ t.rxCount = 0 :=
  ⟨inv_holding _, not_takes (by decide), fun _ r _ => not_takes (by nofun) r, _, rfl, rfl⟩

theorem witness_CtrlbufIsStableWhileAResponseIsPending :
    Inv (ev (.txStart none) { srv with crPend := .pong, ctrl := ⟨9, 0⟩ }) ∧
    crBusy { srv with crPend := .pong, ctrl := ⟨9, 0⟩ } = true ∧
    (∀ rest, ¬ Takes (ev (.txStart none) { srv with crPend := .pong, ctrl := ⟨9, 0⟩ }) .reset rest) ∧
    ∃ t, step (ev (.txStart none) { srv with crPend := .pong, ctrl := ⟨9, 0⟩ }) = .next t ∧ t.enc.busy = true :=
  ⟨inv_ponging _, rfl, not_takes (by decide), _, rfl, rfl⟩

end Sys2Proof.Tests
end

section
/-! PROOFS. The scope family: which event a step takes and when it waits (R12, R14, R112), what it runs (R20, R42, R113),
and which steps are refused (R14, R62 to R65). -/
namespace Sys2Proof.Machine

/-! ## The kinds of instruction -/

/-- The frame-end actions of the sixteen frame opcodes (R119). -/
def frameEnds : List FrameEnd :=
  [frameEndCont, frameEndText, frameEndBinary, frameEndClose, frameEndPing, frameEndPong, frameEndReserved]

/-- Every frame instruction runs the shared RX byte step, with a check and one of the frame-end actions of its own (R113). -/
theorem exec_eq_rxFrameByte {i : Instr} {op : Opcode} (h : frameOpcode i = some op) :
    ∃ fin rsv mask len7 check0 atEnd, exec i = rxFrameByte op fin rsv mask len7 check0 atEnd ∧ atEnd ∈ frameEnds := by
  cases i <;> simp only [frameOpcode, Option.some.injEq, reduceCtorEq] at h <;> subst h <;>
    exact ⟨_, _, _, _, _, _, rfl, by simp [frameEnds]⟩

/-- A command, legal or not, answers a next state (R210, R212). -/
theorem exec_command_next {i : Instr} (h : frameOpcode i = none) (s : State) : ∃ t, exec i s = .next t := by
  cases i <;> simp only [frameOpcode, reduceCtorEq] at h
  case nop => exact ⟨_, rfl⟩
  case clrRej => exact ⟨_, rfl⟩
  case cmdRsvd8F => exact ⟨_, rfl⟩
  case hsDone => simp only [exec, execHsDone]; split <;> exact ⟨_, rfl⟩
  case hsFail => simp only [exec, execHsFail]; split <;> exact ⟨_, rfl⟩
  case msgAck => simp only [exec, execMsgAck]; split <;> exact ⟨_, rfl⟩
  case txData => simp only [exec, execTxData]; split <;> exact ⟨_, rfl⟩
  case txClose => simp only [exec, execTxClose]; split <;> exact ⟨_, rfl⟩
  case abort => simp only [exec, execAbort]; split <;> exact ⟨_, rfl⟩

/-! ## The order of events and the guards -/

@[simp] theorem eventTaken_withEvents (e : Event) (es : List Event) (s : State) :
    eventTaken e (withEvents es s) = eventTaken e s := by
  cases e <;> rfl

/-- Moving the event a step takes to the front changes nothing (R75). -/
theorem step_takes_first {s : State} {e : Event} {rest : List Event} (h : Takes s e rest) :
    step s = step (withEvents (e :: rest) s) := by
  have hfront : step (withEvents (e :: rest) s) = runEvent e (withEvents rest (withEvents (e :: rest) s)) :=
    step_of_events rfl ((eventTaken_withEvents _ _ _).trans (takes_guard h))
  exact (step_of_takes h).trans hfront.symm

/-- When no RX byte is accepted (R112). -/
theorem rxEnabled_eq_false_iff {s : State} :
    rxEnabled s = false ↔ s.ph = .stop ∨
      (s.ph = .hdr0 ∧ (s.msg.valid = true ∨ s.crPend ≠ .none ∨ (s.enc.busy = true ∧ s.enc.src = .ctrl))) := by
  simp [rxEnabled, crBusy, or_iff_not_imp_left]

/-- When no frame is started (R181). -/
theorem txStartTaken_eq_false_iff {k : Option Word32} {s : State} :
    txStartTaken k s = false ↔ s.enc.busy = true ∨ s.cs = .handshaking ∨ s.cs = .closed ∨
      (s.crPend = .none ∧ (s.ht.pend = false ∨ s.cs = .closingReceived)) ∨ (s.cfg.role = .client ∧ k = none) := by
  cases hb : s.enc.busy with
  | true => simp [txStartTaken, txStartEnabled, hb]
  | false =>
    cases hc : s.cs <;> cases hr : s.cfg.role <;> cases k <;> simp [txStartTaken, txStartEnabled, hb, hc, hr]

/-- The guard of an event is false, written out (R112, R181, R185, R226). -/
def GuardFalse (s : State) (e : Event) : Prop :=
  (((∃ b, e = .rxByte b) ∨ e = .rxEnd) ∧ (s.ph = .stop ∨
    (s.ph = .hdr0 ∧ (s.msg.valid = true ∨ s.crPend ≠ .none ∨ (s.enc.busy = true ∧ s.enc.src = .ctrl))))) ∨
  (∃ k, e = .txStart k ∧ (s.enc.busy = true ∨ s.cs = .handshaking ∨ s.cs = .closed ∨
    (s.crPend = .none ∧ (s.ht.pend = false ∨ s.cs = .closingReceived)) ∨ (s.cfg.role = .client ∧ k = none))) ∨
  ((e = .txByte ∨ e = .txError) ∧ s.enc.busy = false)

/-- The guards of `eventTaken` are the written-out ones; a host access and a reset have none. -/
theorem guardFalse_iff {s : State} {e : Event} : GuardFalse s e ↔ eventTaken e s = false := by
  cases e <;> simp [GuardFalse, eventTaken, rxEnabled_eq_false_iff, txStartTaken_eq_false_iff]

/-- A frame instruction holds while no RX byte is accepted (R14, R112). -/
theorem exec_frame_held {i : Instr} {s : State} (he : rxEnabled s = false) (hi : frameOpcode i ≠ none) :
    exec i s = .next s := by
  obtain ⟨op, hop⟩ := Option.ne_none_iff_exists'.1 hi
  obtain ⟨fin, rsv, mask, len7, check0, atEnd, hexec, -⟩ := exec_eq_rxFrameByte hop
  rw [hexec, rxFrameByte_held he]

/-- Settles O10: the written-out guards are those of `eventTaken`, and the step takes the first event whose guard holds. -/
theorem guardFalseHolds : Obligations.GuardFalseHolds := by
  refine ⟨fun s i he hi => exec_frame_held he hi, fun s => ⟨fun hall => ?_, fun pre post e hev hpre he => ?_⟩⟩
  · exact step_of_waiting fun e hmem => guardFalse_iff.1 (hall e hmem)
  · have htakes : Takes s e (pre ++ post) :=
      ⟨pre, post, hev, rfl, fun x hx => guardFalse_iff.1 (hpre x hx),
        (Bool.not_eq_false _).mp fun hf => he (guardFalse_iff.2 hf)⟩
    exact ⟨htakes, step_takes_first htakes⟩

/-! ## What is never refused -/

/-- An outcome that is no refusal (R14). -/
def NotRefused (o : Out) : Prop := ∀ r, o ≠ .refused r

@[simp] theorem notRefused_next (s : State) : NotRefused (.next s) := nofun

@[simp] theorem notRefused_fault (r : Fault) : NotRefused (.fault r) := nofun

theorem settleOut_refused {o : Out} {r : Refusal} (h : settleOut o = .refused r) : o = .refused r := by
  cases o with
  | next s => cases h
  | fault f => cases h
  | refused q => exact h

theorem NotRefused.settleOut {o : Out} (h : NotRefused o) : NotRefused (settleOut o) :=
  fun r hr => h r (settleOut_refused hr)

theorem messageComplete_notRefused (p : Phase) (s : State) : NotRefused (messageComplete p s) := by
  rcases messageComplete_cases p s with h | h | h <;> simp [h]

theorem frameEnds_notRefused {atEnd : FrameEnd} (h : atEnd ∈ frameEnds) (p : Phase) (s : State) :
    NotRefused (atEnd p s) := by
  simp only [frameEnds, List.mem_cons, List.not_mem_nil, or_false] at h
  rcases h with rfl | rfl | rfl | rfl | rfl | rfl | rfl
  · simp only [frameEndCont]; split <;> simp [messageComplete_notRefused]
  · simp only [frameEndText]; split <;> simp [messageComplete_notRefused]
  · simp only [frameEndBinary]; split <;> simp [messageComplete_notRefused]
  · simp only [frameEndClose]; split <;> simp
  · simp only [frameEndPing]; split <;> simp
  · exact notRefused_next _
  · exact notRefused_next _

section RxByte
variable {op : Opcode} {atEnd : FrameEnd} (hend : ∀ p u, NotRefused (atEnd p u))
include hend

theorem headerDone_notRefused (p : Phase) (s : State) : NotRefused (headerDone atEnd p s) := by
  unfold headerDone frameEnd
  split
  · exact hend _ _
  · exact notRefused_next _

theorem lengthKnown_notRefused (p : Phase) (s : State) : NotRefused (lengthKnown op atEnd p s) := by
  rcases lengthKnown_cases op atEnd p s with ⟨e, -, h⟩ | ⟨-, -, h⟩ | ⟨-, -, h⟩ <;> rw [h]
  · exact notRefused_next _
  · exact notRefused_next _
  · exact headerDone_notRefused hend _ _

theorem byte1Step_notRefused (mask : Bool) (len7 : BitVec 7) (s : State) :
    NotRefused (byte1Step op mask len7 atEnd s) := by
  unfold byte1Step
  dsimp only
  split_ifs
  · exact notRefused_next _
  · exact lengthKnown_notRefused hend _ _
  · exact notRefused_next _

theorem extStep_notRefused (b : Byte) (s : State) : NotRefused (extStep op atEnd b s) := by
  unfold extStep
  dsimp only
  split
  · exact lengthKnown_notRefused hend _ _
  · exact notRefused_next _

theorem keyStep_notRefused (b : Byte) (s : State) : NotRefused (keyStep atEnd b s) := by
  unfold keyStep
  dsimp only
  split
  · exact headerDone_notRefused hend _ _
  · exact notRefused_next _

theorem payNext_notRefused (s : State) : NotRefused (payNext atEnd s) := by
  unfold payNext frameEnd
  dsimp only
  split
  · exact hend _ _
  · exact notRefused_next _

theorem payStep_notRefused (b : Byte) (s : State) : NotRefused (payStep op atEnd b s) := by
  unfold payStep
  rcases store_cases (dest op) s.f.idx.toNat (maskByte s.f.mask s.f.key s.f.idx.toNat b) s with
    ⟨-, h⟩ | ⟨-, h⟩ | ⟨-, h⟩ | ⟨r, h⟩ <;> rw [h]
  · exact payNext_notRefused hend _
  · exact payNext_notRefused hend _
  · exact payNext_notRefused hend _
  · exact notRefused_fault _

/-- A byte of a frame is refused in no phase (R14, R113). -/
theorem rxFrameByte_notRefused (fin : Bool) (rsv : BitVec 3) (mask : Bool) (len7 : BitVec 7)
    (check0 : State → Option ErrCode) (s : State) : NotRefused (rxFrameByte op fin rsv mask len7 check0 atEnd s) := by
  cases he : rxEnabled s with
  | false => rw [rxFrameByte_held he]; exact notRefused_next _
  | true =>
    cases hp : s.ph with
    | hdr0 =>
      rw [rxFrameByte_hdr0 he hp]
      unfold byte0Step
      dsimp only
      split <;> exact notRefused_next _
    | hdr1 => rw [rxFrameByte_hdr1 hp]; exact byte1Step_notRefused hend _ _ _
    | ext => rw [rxFrameByte_ext hp]; exact extStep_notRefused hend _ _
    | key => rw [rxFrameByte_key hp]; exact keyStep_notRefused hend _ _
    | pay => rw [rxFrameByte_pay hp]; exact payStep_notRefused hend _ _
    | stop => simp [rxEnabled_stop hp] at he

end RxByte

/-- No instruction is refused (R14). -/
theorem exec_notRefused (i : Instr) (s : State) : NotRefused (exec i s) := by
  cases hop : frameOpcode i with
  | none =>
    obtain ⟨t, ht⟩ := exec_command_next hop s
    rw [ht]
    exact notRefused_next t
  | some op =>
    obtain ⟨fin, rsv, mask, len7, check0, atEnd, hexec, hmem⟩ := exec_eq_rxFrameByte hop
    rw [hexec]
    exact rxFrameByte_notRefused (frameEnds_notRefused hmem) _ _ _ _ _ _

theorem txByte_notRefused (s : State) : NotRefused (txByte s) := by
  unfold txByte
  split
  · exact notRefused_next _
  · exact notRefused_fault _

theorem csrWriteAt_notRefused (off : Nat) (w : Word32) (s : State) : NotRefused (csrWriteAt off w s) := by
  unfold csrWriteAt
  split
  next r _ =>
    cases r
    case cmd => exact exec_notRefused _ _
    all_goals exact notRefused_next _
  next => exact notRefused_next _

/-! ## What is refused -/

/-- A `CSR` access is undefined when its width, its alignment or its range is (R62, R63). -/
theorem csrAccessOk_eq_false_iff {width off : Nat} :
    csrAccessOk width off = false ↔ width ≠ 32 ∨ off % 4 ≠ 0 ∨ 0xFFC < off := by
  simp only [csrAccessOk, Bool.and_eq_false_iff, decide_eq_false_iff_not, not_le, or_assoc, ne_eq]

/-- A buffer access is undefined when its width is not 8 or its index is outside the space (R64, R65, R70). -/
theorem bufAccessOk_eq_false_iff {p : Params} {b : Buf} {width idx : Nat} :
    bufAccessOk p b width idx = false ↔
      width ≠ 8 ∨ (b = .msgbuf ∧ ∃ c, p.msgCap = some c ∧ c ≤ idx) ∨ (b = .ctrlbuf ∧ p.ctrlCap ≤ idx) ∨
        (b = .txbuf ∧ p.txCap ≤ idx) := by
  simp only [bufAccessOk, Bool.and_eq_false_iff, decide_eq_false_iff_not, bufIndexOk_eq_false_iff, ne_eq]

/-- A host access that is refused is an undefined one (R62 to R65). -/
theorem hostAccess_refused {a : HostAccess} {s : State} {r : Refusal} (h : hostAccess a s = .refused r) :
    (r = .csrAccess ∧ ∃ width off, (a = .csrRead width off ∨ ∃ w, a = .csrWrite width off w) ∧
      csrAccessOk width off = false) ∨
    (r = .bufAccess ∧ ∃ b width idx, (a = .bufRead b width idx ∨ ∃ v, a = .bufWrite b width idx v) ∧
      bufAccessOk s.params b width idx = false) := by
  cases a with
  | csrRead width off =>
    simp only [hostAccess] at h
    split at h
    · cases h
    · rename_i hok
      cases h
      exact .inl ⟨rfl, width, off, .inl rfl, by simpa using hok⟩
  | csrWrite width off w =>
    simp only [hostAccess] at h
    split at h
    · exact absurd h (csrWriteAt_notRefused _ _ _ _)
    · rename_i hok
      cases h
      exact .inl ⟨rfl, width, off, .inr ⟨w, rfl⟩, by simpa using hok⟩
  | bufRead b width idx =>
    simp only [hostAccess] at h
    split at h
    · cases h
    · rename_i hok
      cases h
      exact .inr ⟨rfl, b, width, idx, .inl rfl, by simpa using hok⟩
  | bufWrite b width idx v =>
    simp only [hostAccess] at h
    split at h
    · cases h
    · rename_i hok
      cases h
      exact .inr ⟨rfl, b, width, idx, .inr ⟨v, rfl⟩, by simpa using hok⟩

/-- An event that is refused is a host access (R14). -/
theorem runEvent_refused {e : Event} {s : State} {r : Refusal} (h : runEvent e s = .refused r) :
    ∃ a, e = .host a ∧ hostAccess a s = .refused r := by
  cases e with
  | host a => exact ⟨a, rfl, settleOut_refused h⟩
  | rxByte b =>
    simp only [runEvent, rxByteEvent] at h
    split at h
    · exact absurd h ((exec_notRefused _ _).settleOut r)
    · cases h
  | txByte =>
    simp only [runEvent, txByteEvent] at h
    split at h
    · exact absurd h ((txByte_notRefused _).settleOut r)
    · cases h
  | rxEnd => simp only [runEvent, rxEndEvent] at h; split at h <;> cases h
  | txStart k => simp only [runEvent, txStartEvent] at h; split at h <;> cases h
  | txError => simp only [runEvent, txErrorEvent] at h; split at h <;> cases h
  | reset => cases h

/-- Settles O54: no instruction and no event but a host access is refused, and a refused access is an undefined one. -/
theorem onlyHostAccessesAreRefused : Obligations.OnlyHostAccessesAreRefused := by
  intro s r h
  rcases step_cases s with ⟨e, rest, htakes, hstep⟩ | ⟨-, hstep⟩
  · obtain ⟨a, rfl, ha⟩ := runEvent_refused (hstep.symm.trans h)
    have hcases := hostAccess_refused ha
    simp only [csrAccessOk_eq_false_iff, bufAccessOk_eq_false_iff, withEvents_params] at hcases
    exact ⟨a, rest, htakes, hcases⟩
  · rw [hstep] at h
    cases h

/-! ## What a step runs -/

/-- A step on an accepted RX byte runs the frame it belongs to (R20, R113). -/
theorem step_rxByte {s : State} {b : Byte} {rest : List Event} (hev : s.env.events = .rxByte b :: rest)
    (he : rxEnabled s = true) : step s = settleOut (exec (fetchFrame s b) (offerRx b (withEvents rest s))) :=
  (step_of_events hev he).trans (if_pos he)

/-- The header bytes of the frame an RX byte belongs to, byte by byte (R25, R113). -/
theorem headerBytes_eq (s : State) (b : Byte) :
    headerBytes s b =
      (if s.ph = .hdr0 then b else byte0Of s.f.fin s.f.rsv s.f.op,
       if s.ph = .hdr0 then 0 else if s.ph = .hdr1 then b else byte1Of s.f.mask s.f.len7) := by
  cases hp : s.ph <;> simp [headerBytes, hp]

/-- Settles O7: `fetchFrame` decodes the header bytes received so far. -/
theorem stepRunsTheFrameOfAnRxByte : Obligations.StepRunsTheFrameOfAnRxByte := by
  rintro s b b0 b1 rest i hev he rfl rfl hdec
  have hi : fetchFrame s b = i := by
    rw [fetchFrame, headerBytes_eq]
    cases hdec
    rfl
  rw [step_rxByte hev he, hi]
  rfl

/-- A step on a host access runs it (R62 to R65). -/
theorem step_host {s : State} {a : HostAccess} {rest : List Event} (hev : s.env.events = .host a :: rest) :
    step s = settleOut (hostAccess a (withEvents rest s)) := step_of_events hev rfl

/-- A write to `CMD` is the command its word decodes to (R42). -/
theorem hostAccess_cmd (w : Word32) (s : State) :
    hostAccess (.csrWrite 32 0x008 w) s = exec (decodeCommand w) s := rfl

/-- A step on a write to `CMD` runs the command (R42, R210). -/
theorem step_command {s : State} {w : Word32} {rest : List Event}
    (hev : s.env.events = .host (.csrWrite 32 0x008 w) :: rest) :
    step s = settleOut (exec (decodeCommand w) (withEvents rest s)) := by
  rw [step_host hev, hostAccess_cmd]

/-- Settles O8: a host access is never held, so the step runs it. -/
theorem stepRunsTheCommandOfACmdWrite : Obligations.StepRunsTheCommandOfACmdWrite := by
  refine ⟨fun s a rest hev => step_host hev, fun s w rest i hev hi => ?_⟩
  subst hi
  exact step_command hev

/-! ## A placed instruction -/

/-- The registers `readyForFrame` writes make the parser take a byte 0 (R112). -/
theorem rxEnabled_readyForFrame (s : State) : rxEnabled (readyForFrame s) = true := by
  rw [rxEnabled_hdr0_iff rfl]
  exact ⟨rfl, by cases hsrc : s.enc.src <;> simp [crBusy, readyForFrame, hsrc]⟩

theorem readyForFrame_cs (s : State) : (readyForFrame s).cs = .opened ∨ (readyForFrame s).cs = .closingSent := by
  simp only [readyForFrame]
  split
  · assumption
  · exact .inl rfl

/-- At byte 0 a frame's step reads nothing of byte 1 (R113). -/
theorem exec_decodeHeader_hdr0 {s : State} (hp : s.ph = .hdr0) (he : rxEnabled s = true) (b0 b1 c1 : Byte) :
    exec (decodeHeader b0 b1) s = exec (decodeHeader b0 c1) s := by
  have hrx : ∀ {op fin rsv m l m' l' check0 atEnd},
      rxFrameByte op fin rsv m l check0 atEnd s = rxFrameByte op fin rsv m' l' check0 atEnd s :=
    (rxFrameByte_hdr0 he hp).trans (rxFrameByte_hdr0 he hp).symm
  unfold decodeHeader
  dsimp only
  split <;> exact hrx

/-- Byte 0 of a header word, as a number (R86). -/
theorem headerByte0_eq (w : Nat) : (BitVec.ofNat 16 w).extractLsb' 8 8 = BitVec.ofNat 8 (w / 256) := by
  apply BitVec.eq_of_toNat_eq
  simp [Nat.shiftRight_eq_div_pow]
  omega

/-- Byte 1 of a header word, as a number (R86). -/
theorem headerByte1_eq (w : Nat) : (BitVec.ofNat 16 w).extractLsb' 0 8 = BitVec.ofNat 8 w := by
  apply BitVec.eq_of_toNat_eq
  simp

/-- The two bytes of a header word spell its instruction (R91). -/
theorem decodeTableWord_frame (w : Nat) :
    decodeTableWord 16 w = some (decodeHeader (BitVec.ofNat 8 (w / 256)) (BitVec.ofNat 8 w)) := by
  rw [← headerByte0_eq, ← headerByte1_eq]
  rfl

/-- The state in which a placed frame's first byte is taken: the parser ready, the frame's other bytes to come
(notes/assumptions/5.md). -/
def placedByte0 (w : Nat) (s : State) : State :=
  offerRx (BitVec.ofNat 8 (w / 256))
    (pushEvents
      (.rxByte (BitVec.ofNat 8 w) ::
        (zeroTail (maskOf (BitVec.ofNat 8 w)) (len7Of (BitVec.ofNat 8 w))).map .rxByte)
      (readyForFrame s))

/-- A placed frame's first step is its instruction's, although it decodes byte 0 alone (R20, R113). -/
theorem step_placeFrame (w : Nat) (s : State) :
    step (placeFrame w s) = settleOut
      (exec (decodeHeader (BitVec.ofNat 8 (w / 256)) (BitVec.ofNat 8 w)) (placedByte0 w s)) := by
  have hready : rxEnabled (placedByte0 w s) = true := rxEnabled_readyForFrame s
  rw [exec_decodeHeader_hdr0 rfl hready _ _ 0]
  unfold placeFrame
  dsimp only
  rw [headerByte0_eq, headerByte1_eq]
  exact step_rxByte rfl (rxEnabled_readyForFrame s)

/-- Settles O9: both placings put the instruction's event first, with its guard true. -/
theorem placedInstructionRunsNext : Obligations.PlacedInstructionRunsNext := by
  intro s w i
  constructor
  · intro hi
    cases hi
    exact step_command (s := placeCommand w s) rfl
  · intro hi
    rw [decodeTableWord_frame] at hi
    cases hi
    exact ⟨placedByte0 w s, step_placeFrame w s, rfl, rxEnabled_readyForFrame s, readyForFrame_cs s,
      rfl, rfl, rfl, rfl, rfl⟩

end Sys2Proof.Machine
end

section
/-! PROOFS. The state family: what the register port reads and writes (R39 to R58), the reset state (R59, R270), and what a
step keeps: no fault of the model (R117, R184), the role (R41), the counters (R38) and a delivered message (R31). -/
namespace Sys2Proof.Machine

/-! ## What an event does once its guard holds -/

/-- The event's own operation, under its guard and before `settle` (R113, R181, R185, R225, R226, R270). -/
def eventOut (e : Event) (s : State) : Out :=
  match e with
  | .rxByte b => exec (fetchFrame s b) (offerRx b s)
  | .rxEnd => .next (rxEnd s)
  | .txStart key => .next (txStart key s)
  | .txByte => txByte s
  | .txError => .next (txError s)
  | .host a => hostAccess a s
  | .reset => .next (resetBlock s)

/-- A taken event is its own operation, and then `settle` (R231). -/
theorem runEvent_taken {e : Event} {s : State} (h : eventTaken e s = true) :
    runEvent e s = settleOut (eventOut e s) := by
  cases e with
  | rxByte b => exact if_pos h
  | rxEnd => exact if_pos h
  | txStart key => exact if_pos h
  | txByte => exact if_pos h
  | txError => exact if_pos h
  | host a => rfl
  | reset => rfl

theorem step_eventOut {s : State} {e : Event} {rest : List Event} (h : Takes s e rest) :
    step s = settleOut (eventOut e (withEvents rest s)) := by
  rw [step_of_takes h, runEvent_taken ((eventTaken_withEvents e rest s).trans (takes_guard h))]

/-- A step that answers a next state settles what its event's operation answers, or every event waits (R14, R231). -/
theorem step_next {s t : State} (h : step s = .next t) :
    (∃ e rest u, Takes s e rest ∧ eventOut e (withEvents rest s) = .next u ∧ t = settle u) ∨ t = s := by
  rcases step_cases s with ⟨e, rest, htakes, -⟩ | ⟨-, hstep⟩
  · rw [step_eventOut htakes] at h
    obtain ⟨u, hu, rfl⟩ := settleOut_next h
    exact .inl ⟨e, rest, u, htakes, hu, rfl⟩
  · rw [hstep] at h
    cases h
    exact .inr rfl

/-! ## The invariant, event by event -/

/-- The reset state with any well-formed parameters and any environment meets `PreInv` (R59, R270). -/
theorem resetBlock_pre {s : State} (h : s.params.wf = true) : PreInv (resetBlock s) where
  params := h
  buffers := by constructor <;> simp [State.reset, Memory.wf]
  conn := by constructor <;> simp [State.reset]
  parser := by constructor <;> simp [State.reset, midFrame, Memory.written]
  tx := by constructor <;> simp [State.reset, Memory.written]

/-- Settles O51: `State.reset` is the reset of itself. -/
theorem resetMeetsTheInvariant : Obligations.ResetMeetsTheInvariant :=
  ⟨resetBlock_pre (s := State.reset) (by decide), rfl⟩

/-- The frame an RX byte belongs to has the opcode of the header's byte 0 (R91). -/
theorem fetchFrame_opcode (s : State) (b : Byte) :
    frameOpcode (fetchFrame s b) = some (opcodeOf (headerBytes s b).1) := decodeHeader_opcode _ _

/-- An RX byte runs the frame in progress, so it keeps `PreInv` (R113). -/
theorem rxByte_good {s : State} (h : PreInv s) (b : Byte) : Good (exec (fetchFrame s b) (offerRx b s)) := by
  have hop := fetchFrame_opcode s b
  refine exec_frame_good (env_pre h _) hop fun hmid => ?_
  exact Option.some.inj ((fetch_opcode (s := s) hmid b).symm.trans hop)

/-- The end of the RX stream keeps `PreInv` (R225). -/
theorem rxEnd_pre {s : State} (h : PreInv s) (he : rxEnabled s = true) : PreInv (rxEnd s) := by
  have hrun : s.ph ≠ .stop := fun hp => by simp [rxEnabled_stop hp] at he
  have hopen : s.cs ≠ .closed := by rcases (h.conn.running hrun).1 with hc | hc <;> simp [hc]
  obtain ⟨hfault, herr⟩ := h.conn.alive hopen
  unfold rxEnd
  split
  · exact closeDone_pre h.kept hfault herr (by decide) (by decide)
  · exact raise_pre h.kept (by decide) _ _

/-- The start of a TX frame keeps `PreInv`, whichever role the block has (R181, R183). -/
theorem txStart_pre {s : State} (h : PreInv s) {key : Option Word32} (ht : txStartTaken key s = true) :
    PreInv (txStart key s) := by
  have hen : txStartEnabled s = true := by
    unfold txStartTaken at ht
    exact (Bool.and_eq_true _ _ ▸ ht).1
  cases hr : s.cfg.role with
  | server =>
    have heq : txStart key s = txStartWith false Key.zero s := by simp [txStart, hr]
    rw [heq]
    exact txStartWith_pre h hen _ _ (by simp [hr, Role.bit])
  | client =>
    cases key with
    | none => simpa [txStart, hr] using h
    | some k =>
      have heq : txStart (some k) s = txStartWith true (Key.ofWord k) s := by simp [txStart, hr]
      rw [heq]
      exact txStartWith_pre h hen _ _ (by simp [hr, Role.bit])

/-- A payload position of the frame in emission is an index of the buffer it comes from (R184). -/
theorem bufIndexOk_encBuf {s : State} (h : TxOk s) (hb : s.enc.busy = true)
    (hpos : s.enc.hdr.length ≤ s.enc.pos.toNat) :
    bufIndexOk s.params (encBuf s) (s.enc.pos.toNat - s.enc.hdr.length) = true := by
  have hleft := h.left hb
  have hfits := h.fits hb
  cases hsrc : s.enc.src with
  | host =>
    simp only [hsrc] at hfits
    simp only [encBuf, hsrc, bufIndexOk, decide_eq_true_eq]
    omega
  | ctrl =>
    simp only [hsrc] at hfits
    have hctrl := h.ctrlLen.1
    simp only [encBuf, hsrc, bufIndexOk, decide_eq_true_eq]
    omega

/-- The emission of a byte keeps `PreInv` and reads no byte outside its buffer (R184, R185). -/
theorem txByte_good {s : State} (h : PreInv s) (hb : s.enc.busy = true) : Good (txByte s) := by
  unfold txByte txOut
  cases hhdr : s.enc.hdr[s.enc.pos.toNat]? with
  | some b => exact txEmit_pre h hb b
  | none =>
    simp only [bufIndexOk_encBuf h.tx hb (List.getElem?_eq_none_iff.1 hhdr), if_true]
    refine txEmit_pre (readOrDraw_pre h _ _) ?_ _
    unfold readOrDraw
    split <;> exact hb

/-- Every event's operation keeps `PreInv` and raises no fault of the model (R117, R123, R184). -/
theorem eventOut_good {s : State} (h : PreInv s) {e : Event} (ht : eventTaken e s = true) : Good (eventOut e s) := by
  cases e with
  | rxByte b => exact rxByte_good h b
  | rxEnd => exact rxEnd_pre h ht
  | txStart key => exact txStart_pre h ht
  | txByte => exact txByte_good h ht
  | txError => exact raise_pre h.kept (by decide) _ _
  | host a => exact hostAccess_good h a
  | reset => exact resetBlock_pre h.params

/-- Settles O53: a fault of a step is one of its event's operation, which keeps `PreInv` instead. -/
theorem stepNeverStopsWithAFault : Obligations.StepNeverStopsWithAFault := by
  intro s r hinv hfault
  rcases step_cases s with ⟨e, rest, htakes, -⟩ | ⟨-, hstep⟩
  · have hgood : Good (eventOut e (withEvents rest s)) :=
      eventOut_good (env_pre hinv.pre _) ((eventTaken_withEvents e rest s).trans (takes_guard htakes))
    rw [step_eventOut htakes] at hfault
    cases hout : eventOut e (withEvents rest s) with
    | next u => rw [hout] at hfault; cases hfault
    | fault q => rw [hout] at hgood; exact hgood
    | refused q => rw [hout] at hfault; cases hfault
  · rw [hstep] at hfault
    cases hfault

/-! ## What a step leaves alone -/

theorem settle_rxCount (s : State) : (settle s).rxCount = s.rxCount := by
  rcases settle_cases s with h | h <;> rw [h]
  rfl

/-- The end of a closing handshake leaves a delivered message and its bytes alone (R232). -/
theorem settle_message (s : State) : (settle s).msg = s.msg ∧ (settle s).msgbuf = s.msgbuf := by
  rcases settle_cases s with h | h <;> rw [h] <;> exact ⟨rfl, rfl⟩

/-- A frame starts, or there is no key and nothing happens (R181). -/
theorem txStart_cases (key : Option Word32) (s : State) :
    (∃ masked k, txStart key s = txStartWith masked k s) ∨ txStart key s = s := by
  unfold txStart
  split
  · exact .inl ⟨_, _, rfl⟩
  · exact .inl ⟨_, _, rfl⟩
  · exact .inr rfl

/-- The end of the RX stream ends the connection, with a fault or without (R225). -/
theorem rxEnd_cases (s : State) : rxEnd s = closeDone .eof s ∨ rxEnd s = raise .truncated s.ph false s := by
  unfold rxEnd
  split
  · exact .inl rfl
  · exact .inr rfl

/-- `TxByte` emits one byte, out of a state that differs in the draws alone (R185). -/
theorem txByte_next {s u : State} (h : txByte s = .next u) :
    ∃ out n, u = txEmit out { s with env := { s.env with draws := n } } := by
  unfold txByte at h
  cases hout : txOut s with
  | error r => rw [hout] at h; cases h
  | ok p =>
    rw [hout] at h
    cases h
    unfold txOut at hout
    split at hout
    · cases hout
      exact ⟨_, s.env.draws, rfl⟩
    · simp only at hout
      split at hout <;> cases hout
      unfold readOrDraw drawByte
      split
      · exact ⟨_, s.env.draws, rfl⟩
      · exact ⟨_, _, rfl⟩

/-- No event changes the parameters, and outside `HANDSHAKING` none but a reset changes `CFG` (R41, R287). -/
theorem eventOut_config {e : Event} {s u : State} (h : eventOut e s = .next u) :
    u.params = s.params ∧ (s.cs ≠ .handshaking → e ≠ .reset → u.cfg = s.cfg) := by
  cases e with
  | rxByte b =>
    have hsame := exec_sameOutside h
    exact ⟨hsame.params, fun _ _ => hsame.cfg⟩
  | rxEnd =>
    cases h
    rcases rxEnd_cases s with h | h <;> rw [h] <;> exact ⟨rfl, fun _ _ => rfl⟩
  | txStart key =>
    cases h
    rcases txStart_cases key s with ⟨masked, k, h⟩ | h <;> rw [h] <;> exact ⟨rfl, fun _ _ => rfl⟩
  | txByte =>
    obtain ⟨out, n, rfl⟩ := txByte_next h
    exact ⟨rfl, fun _ _ => rfl⟩
  | txError =>
    cases h
    exact ⟨rfl, fun _ _ => rfl⟩
  | host a =>
    rcases hostAccess_next h with ⟨w, -, hcmd⟩ | ⟨cfg, rej, irq, tc, tl, tb, r, n, hcfg, rfl⟩
    · have hsame := exec_sameOutside hcmd
      exact ⟨hsame.params, fun _ _ => hsame.cfg⟩
    · exact ⟨rfl, fun hcs _ => hcfg hcs⟩
  | reset =>
    cases h
    exact ⟨rfl, fun _ hne => absurd rfl hne⟩

/-- Settles O56: the event taken keeps the parameters and, unless it is a reset, the configuration; so does `settle`. -/
theorem roleIsFixedForTheConnection : Obligations.RoleIsFixedForTheConnection := by
  intro s t h
  rcases step_next h with ⟨e, rest, u, htakes, hout, rfl⟩ | rfl
  · have hsettle := sameOutside_settle u
    obtain ⟨hparams, hcfg⟩ := eventOut_config hout
    refine ⟨hsettle.params.trans hparams, fun hcs hreset => hsettle.cfg.trans (hcfg hcs ?_)⟩
    rintro rfl
    exact hreset rest htakes
  · exact ⟨rfl, fun _ _ => rfl⟩

/-- An RX byte alone is counted in `rx_count`, an emitted byte alone in `tx_count` and on the TX stream, and no event but
the one taken leaves the order (R38, R61). -/
structure Counted (e : Event) (s u : State) : Prop where
  rxCount : u.rxCount = if ∃ b, e = .rxByte b then s.rxCount + 1 else s.rxCount
  txCount : u.txCount = if e = .txByte then s.txCount + 1 else s.txCount
  txStream : if e = .txByte then ∃ b, u.env.txStream = s.env.txStream ++ [b] else u.env.txStream = s.env.txStream
  events : u.env.events = s.env.events

/-- An event that is neither an RX nor a TX byte and writes none of these fields counts nothing. -/
theorem counted_of_unchanged {e : Event} {s u : State} (hrx : ∀ b, e ≠ .rxByte b) (htx : e ≠ .txByte)
    (hrxc : u.rxCount = s.rxCount) (htxc : u.txCount = s.txCount) (hstream : u.env.txStream = s.env.txStream)
    (hevents : u.env.events = s.env.events) : Counted e s u := by
  constructor <;> simp [hrx, htx, hrxc, htxc, hstream, hevents]

/-- The operation of an event taken, other than a reset, counts the bytes it accepts (R38, R113, R185). -/
theorem eventOut_counted {e : Event} {s u : State} (ht : eventTaken e s = true) (hne : e ≠ .reset)
    (h : eventOut e s = .next u) : Counted e s u := by
  cases e with
  | rxByte b =>
    have hsame := exec_sameOutside h
    have hcount : u.rxCount = s.rxCount + 1 := exec_frame_rxCount (s := offerRx b s) (fetchFrame_opcode s b) ht h
    constructor <;> simp [hcount, hsame.txCount, hsame.env]
  | rxEnd =>
    cases h
    rcases rxEnd_cases s with h | h <;> rw [h] <;> exact counted_of_unchanged nofun nofun rfl rfl rfl rfl
  | txStart key =>
    cases h
    rcases txStart_cases key s with ⟨masked, k, h⟩ | h <;> rw [h] <;>
      exact counted_of_unchanged nofun nofun rfl rfl rfl rfl
  | txByte =>
    obtain ⟨out, n, rfl⟩ := txByte_next h
    constructor <;> simp [txEmit]
  | txError =>
    cases h
    exact counted_of_unchanged nofun nofun rfl rfl rfl rfl
  | host a =>
    rcases hostAccess_next h with ⟨w, -, hcmd⟩ | ⟨cfg, rej, irq, tc, tl, tb, r, n, -, rfl⟩
    · have hsame := exec_sameOutside hcmd
      exact counted_of_unchanged nofun nofun (exec_command_rxCount (decodeCommand_opcode w) hcmd) hsame.txCount
        (by rw [hsame.env]) (by rw [hsame.env])
    · exact counted_of_unchanged nofun nofun rfl rfl rfl rfl
  | reset => exact absurd rfl hne

/-- Settles O57: the event taken counts its byte, and `settle` writes none of the counted fields. -/
theorem countersCountAcceptedBytes : Obligations.CountersCountAcceptedBytes := by
  intro s t e rest htakes hne h
  have hguard := takes_guard htakes
  rw [step_eventOut htakes] at h
  obtain ⟨u, hout, rfl⟩ := settleOut_next h
  have hsettle := sameOutside_settle u
  obtain ⟨hrx, htx, hstream, hevents⟩ :=
    eventOut_counted ((eventTaken_withEvents e rest s).trans hguard) hne hout
  rw [settle_rxCount, hsettle.txCount, hsettle.env]
  refine ⟨hrx, htx, hstream, ?_, ?_, hevents⟩
  · rintro ⟨b, rfl⟩
    exact hguard
  · rintro rfl
    exact hguard

/-! ## A delivered message (R31) -/

/-- While a delivered message is held, the parser is between frames or stopped, and takes no byte (R78, R112). -/
theorem rxEnabled_of_held {s : State} (h : ParserOk s) (hv : s.msg.valid = true) : rxEnabled s = false := by
  have hmid : midFrame s = false := by
    by_contra hm
    simp [(h.alone (by simpa using hm)).1] at hv
  cases hp : s.ph <;> simp [midFrame, rxEnabled, hp, hv] at hmid ⊢

/-- No command but `MSG_ACK` touches the delivered message or its bytes (R215). -/
theorem exec_command_message {i : Instr} {s t : State} (hi : frameOpcode i = none) (hack : ∀ ign, i ≠ .msgAck ign)
    (h : exec i s = .next t) : t.msg = s.msg ∧ t.msgbuf = s.msgbuf := by
  cases i <;> simp only [frameOpcode, reduceCtorEq] at hi
  case msgAck ign => exact absurd rfl (hack ign)
  case nop => cases h; exact ⟨rfl, rfl⟩
  case clrRej => cases h; exact ⟨rfl, rfl⟩
  case cmdRsvd8F => cases h; exact ⟨rfl, rfl⟩
  case hsDone => simp only [exec, execHsDone] at h; split at h <;> cases h <;> exact ⟨rfl, rfl⟩
  case hsFail => simp only [exec, execHsFail] at h; split at h <;> cases h <;> exact ⟨rfl, rfl⟩
  case txData => simp only [exec, execTxData] at h; split at h <;> cases h <;> exact ⟨rfl, rfl⟩
  case txClose => simp only [exec, execTxClose] at h; split at h <;> cases h <;> exact ⟨rfl, rfl⟩
  case abort => simp only [exec, execAbort] at h; split at h <;> cases h <;> exact ⟨rfl, rfl⟩

/-- The code of `MSG_ACK` is 3 (R98). -/
theorem decodeCommand_eq_msgAck {w : Word32} {ign : BitVec 28} (h : decodeCommand w = .msgAck ign) :
    w.extractLsb' 0 4 = 0x3#4 := by
  unfold decodeCommand at h
  dsimp only at h
  split at h <;> cases h
  rename_i hcode
  exact BitVec.eq_of_toNat_eq hcode

/-- With the parser held, every operation but a reset and `MSG_ACK` leaves the delivered message alone (R31). -/
theorem eventOut_message {e : Event} {s u : State} (hrx : rxEnabled s = false) (ht : eventTaken e s = true)
    (hreset : e ≠ .reset) (hack : ∀ w : Word32, w.extractLsb' 0 4 = 0x3#4 → e ≠ .host (.csrWrite 32 0x008 w))
    (h : eventOut e s = .next u) : u.msg = s.msg ∧ u.msgbuf = s.msgbuf := by
  cases e with
  | rxByte b => exact absurd (hrx.symm.trans ht) Bool.false_ne_true
  | rxEnd => exact absurd (hrx.symm.trans ht) Bool.false_ne_true
  | txStart key =>
    cases h
    rcases txStart_cases key s with ⟨masked, k, h⟩ | h <;> rw [h] <;> exact ⟨rfl, rfl⟩
  | txByte =>
    obtain ⟨out, n, rfl⟩ := txByte_next h
    exact ⟨rfl, rfl⟩
  | txError =>
    cases h
    exact ⟨rfl, rfl⟩
  | host a =>
    rcases hostAccess_next h with ⟨w, rfl, hcmd⟩ | ⟨cfg, rej, irq, tc, tl, tb, r, n, -, rfl⟩
    · exact exec_command_message (decodeCommand_opcode w)
        (fun ign hdec => hack w (decodeCommand_eq_msgAck hdec) rfl) hcmd
    · exact ⟨rfl, rfl⟩
  | reset => exact absurd rfl hreset

/-- Settles O58: a held message stops the parser, and nothing else but a reset and `MSG_ACK` writes it. -/
theorem deliveredMessageStaysUntilAcknowledged : Obligations.DeliveredMessageStaysUntilAcknowledged := by
  intro s t hinv hv hreset hack h
  rcases step_next h with ⟨e, rest, u, htakes, hout, rfl⟩ | rfl
  · have hrx : rxEnabled s = false := rxEnabled_of_held hinv.pre.parser hv
    obtain ⟨hmsg, hbuf⟩ := settle_message u
    obtain ⟨hmsg', hbuf'⟩ := eventOut_message (s := withEvents rest s) hrx
      ((eventTaken_withEvents e rest s).trans (takes_guard htakes)) (fun he => hreset rest (he ▸ htakes))
      (fun w hw he => hack w rest hw (he ▸ htakes)) hout
    exact ⟨hmsg.trans hmsg', hbuf.trans hbuf'⟩
  · exact ⟨rfl, rfl⟩

/-! ## The register map (R39) -/

/-- The byte offset of a register in the table of R39. -/
def Csr.offset : Csr → Nat
  | .id => 0x000
  | .cfg => 0x004
  | .cmd => 0x008
  | .status => 0x00C
  | .err => 0x010
  | .errInfo => 0x014
  | .msgInfo => 0x018
  | .msgLenLo => 0x01C
  | .msgLenHi => 0x020
  | .reasmInfo => 0x024
  | .reasmLenLo => 0x028
  | .reasmLenHi => 0x02C
  | .ctrlInfo => 0x030
  | .ctrlLen => 0x034
  | .txCtrl => 0x038
  | .txLenLo => 0x03C
  | .txLenHi => 0x040
  | .irqEn => 0x044
  | .irqPend => 0x048
  | .rxCountLo => 0x04C
  | .rxCountHi => 0x050
  | .txCountLo => 0x054
  | .txCountHi => 0x058
  | .capMsg => 0x05C
  | .capCtrl => 0x060
  | .capTx => 0x064

/-- A register stands at its own offset, and at no other. -/
theorem csrAt_eq_some {off : Nat} {r : Csr} (h : csrAt off = some r) : off = r.offset := by
  unfold csrAt at h
  split at h <;> cases h <;> rfl

theorem Csr.offset_le (r : Csr) : r.offset ≤ 0x064 := by cases r <;> decide

/-- Past the last register of the table every offset is reserved and reads 0 (R58). -/
theorem csrRead_reserved {off : Nat} (h : 0x064 < off) (s : State) : csrRead s off = 0 := by
  unfold csrRead
  split
  next r hr => have := r.offset_le; have := csrAt_eq_some hr; omega
  next => rfl

/-- The registers whose writes have an effect (R39). -/
def writableCsrs : List Csr := [.cfg, .cmd, .txCtrl, .txLenLo, .txLenHi, .irqEn, .irqPend]

/-- A register the table marks RO ignores a write (R39). -/
theorem csrWrite_readOnly {r : Csr} (h : r ∉ writableCsrs) (w : Word32) (s : State) : csrWrite r w s = .next s := by
  cases r
  case cfg | cmd | txCtrl | txLenLo | txLenHi | irqEn | irqPend => simp [writableCsrs] at h
  all_goals rfl

/-- A write to an offset that is not a writable register's is ignored (R39, R58). -/
theorem csrWriteAt_ignored {off : Nat} (h : off ∉ writableCsrs.map Csr.offset) (w : Word32) (s : State) :
    csrWriteAt off w s = .next s := by
  unfold csrWriteAt
  split
  next r hr =>
    refine csrWrite_readOnly (fun hmem => h ?_) w s
    exact csrAt_eq_some hr ▸ List.mem_map_of_mem hmem
  next => rfl

/-- A defined write runs the write effect of its offset (R63). -/
theorem hostAccess_csrWrite {off : Nat} (halign : off % 4 = 0) (hrange : off ≤ 0xFFC) (w : Word32) (s : State) :
    hostAccess (.csrWrite 32 off w) s = csrWriteAt off w s := by
  simp [hostAccess, csrAccessOk, halign, hrange]

/-! ## Fields in words -/

/-- The number that two fields side by side spell. -/
theorem toNat_append_eq_add {n m : Nat} (x : BitVec n) (y : BitVec m) :
    (x ++ y).toNat = x.toNat * 2 ^ m + y.toNat := by
  rw [BitVec.toNat_append, ← Nat.shiftLeft_add_eq_or_of_lt y.isLt, Nat.shiftLeft_eq]

/-- A value of at most 32 bits is the same number in a register word. -/
theorem toNat_setWidth_word {n : Nat} (h : n ≤ 32) (x : BitVec n) : (x.setWidth 32).toNat = x.toNat :=
  BitVec.toNat_setWidth_of_le h

/-- The two halves of a 64-bit value spell it (R68). -/
theorem hi32_append_lo32 (v : Word64) : hi32 v ++ lo32 v = v :=
  BitVec.extractLsb'_append_extractLsb' (w := 32) (len := 32)

theorem toNat_hi32 (v : Word64) : (hi32 v).toNat = v.toNat / 2 ^ 32 := by
  have := v.isLt
  simp [hi32, Nat.shiftRight_eq_div_pow]
  omega

theorem toNat_lo32 (v : Word64) : (lo32 v).toNat = v.toNat % 2 ^ 32 := by
  simp [lo32]

/-! ## Register writes (R41, R52 to R55) -/

/-- Settles O47: `CFG` is taken in `HANDSHAKING` and rejected elsewhere. -/
theorem cfgWriteIsLockedOutsideHandshaking : Obligations.CfgWriteIsLockedOutsideHandshaking := by
  intro s w
  have hwrite : hostAccess (.csrWrite 32 0x004 w) s = .next (writeCfg w s) := rfl
  rw [hwrite]
  refine ⟨fun hcs => ⟨_, congrArg _ (if_pos hcs), ?_, ?_⟩, fun hcs => congrArg _ (if_neg hcs)⟩
  · cases w.getLsbD 0 <;> rfl
  · cases w.getLsbD 1 <;> rfl

/-- Settles O48: each named offset runs its own write effect, and any other offset has none. -/
theorem writesToTheOtherRegisters : Obligations.WritesToTheOtherRegisters := by
  intro s w
  refine ⟨rfl, ⟨hi32 s.txLen ++ w, rfl, ?_⟩, ⟨w ++ lo32 s.txLen, rfl, ?_⟩, rfl, ⟨_, rfl, fun j hj => ?_⟩, ?_⟩
  · rw [toNat_append_eq_add, toNat_hi32]
  · rw [toNat_append_eq_add, toNat_lo32]
  · simp [hj]
  · intro off halign hrange hoff
    rw [hostAccess_csrWrite halign hrange]
    exact csrWriteAt_ignored hoff w s

/-! ## The interrupt output (R37, R252) -/

/-- Settles O50: a word is not 0 exactly when one of its bits is set. -/
theorem irqIsPendingAndEnabled : Obligations.IrqIsPendingAndEnabled := by
  intro s
  have hne : ∀ p : BitVec 4, p ≠ 0 ↔ ∃ j < 4, p.getLsbD j = true := by decide
  simp only [irqOut, decide_eq_true_eq, hne, BitVec.getLsbD_and, Bool.and_eq_true]

/-! ## `STATUS` (R43) -/

/-- The one-bit fields of `STATUS`. -/
theorem statusWord_bits (s : State) :
    (statusWord s).getLsbD 3 = s.msg.valid ∧ (statusWord s).getLsbD 4 = txHostBusy s ∧
    (statusWord s).getLsbD 5 = s.ra.active ∧ (statusWord s).getLsbD 6 = s.fault ∧
    (statusWord s).getLsbD 7 = s.cmdRej ∧ (statusWord s).getLsbD 15 = crBusy s ∧
    (statusWord s).getLsbD 16 = termOut s ∧ (statusWord s).getLsbD 17 = s.closeRx := by
  simp only [statusWord, BitVec.getLsbD_setWidth, BitVec.getLsbD_append]
  simp

/-- The wider fields of `STATUS`: each is found by dropping the fields below it, which fill the bits up to its place. -/
theorem statusWord_codes (s : State) :
    (statusWord s).extractLsb' 0 3 = s.cs.code ∧ (statusWord s).extractLsb' 8 4 = s.endCause.code ∧
    (statusWord s).extractLsb' 12 3 = s.ph.code ∧ (statusWord s).extractLsb' 18 14 = 0 := by
  simp (disch := decide) only [statusWord, BitVec.extractLsb'_setWidth_of_le,
    BitVec.extractLsb'_append_eq_of_add_le, BitVec.extractLsb'_append_eq_of_le]
  refine ⟨BitVec.extractLsb'_eq_self, BitVec.extractLsb'_eq_self, BitVec.extractLsb'_eq_self, ?_⟩
  cases s.closeRx <;> rfl

/-- Settles O45: `STATUS` is read-only and its fields are those of `statusWord`. -/
theorem statusFields : Obligations.StatusFields := by
  refine ⟨by decide, by decide, by decide, by decide, fun s => ⟨fun w => rfl, ?_⟩⟩
  obtain ⟨hvalid, htx, hra, hfault, hrej, hcr, hterm, hclose⟩ := statusWord_bits s
  obtain ⟨hcs, hend, hph, hzero⟩ := statusWord_codes s
  exact ⟨hcs, hvalid, htx, hra, hfault, hrej, hend, hph, hcr, hterm, hclose, hzero⟩

/-! ## The other registers -/

/-- `CFG` has the role in bit 0 and the echo mode in bit 1 (R41). -/
theorem csrValue_cfg_toNat (s : State) :
    (csrValue s .cfg).toNat =
      (if s.cfg.role = .client then 1 else 0) + (if s.cfg.closeEcho = .empty then 2 else 0) := by
  cases hr : s.cfg.role <;> cases he : s.cfg.closeEcho <;> simp [csrValue, hr, he, Role.bit, CloseEcho.bit]

/-- `REASM_INFO` has `ra_op` in bits 3:0 and `ra_active` in bit 4 (R48). -/
theorem csrValue_reasmInfo_toNat (s : State) :
    (csrValue s .reasmInfo).toNat = s.ra.op.toNat + 16 * s.ra.active.toNat := by
  rw [csrValue, toNat_setWidth_word (by decide), toNat_append_eq_add, BitVec.toNat_ofBool]
  omega

/-- `TX_CTRL` has `OPCODE` in bits 3:0 and `FIN` in bit 7 (R52). -/
theorem csrValue_txCtrl_toNat (s : State) :
    (csrValue s .txCtrl).toNat = s.txCtrl.op.toNat + 128 * s.txCtrl.fin.toNat := by
  rw [csrValue, toNat_setWidth_word (by decide), toNat_append_eq_add, toNat_append_eq_add, BitVec.toNat_ofBool]
  simp only [BitVec.ofNat_eq_ofNat, BitVec.toNat_ofNat]
  omega

/-- `CAP_MSG` is the capacity, or all ones when it does not fit (R57). -/
theorem capMsgWord_toNat (p : Params) :
    (capMsgWord p).toNat = (match p.msgCap with
      | none => 0xFFFFFFFF | some c => if c < 2 ^ 32 - 1 then c else 0xFFFFFFFF) := by
  unfold capMsgWord
  cases p.msgCap with
  | none => rfl
  | some c =>
    dsimp only
    split
    · rw [BitVec.toNat_ofNat]
      omega
    · rfl

/-- The control and TX capacities fit a register word (R9, R10). -/
theorem params_cap_lt {p : Params} (h : p.wf = true) : p.ctrlCap < 2 ^ 32 ∧ p.txCap < 2 ^ 32 := by
  unfold Params.wf at h
  simp only [Bool.and_eq_true, decide_eq_true_eq] at h
  omega

/-- Settles O46, register by register in the order of R39. -/
theorem registersReadTheirFields : Obligations.RegistersReadTheirFields := by
  refine ⟨by decide, fun s => ⟨rfl, csrValue_cfg_toNat s, rfl, ?_, ?_, ?_, hi32_append_lo32 _,
    csrValue_reasmInfo_toNat s, hi32_append_lo32 _, ?_, rfl, csrValue_txCtrl_toNat s, hi32_append_lo32 _, ?_, ?_,
    hi32_append_lo32 _, hi32_append_lo32 _, capMsgWord_toNat _, fun hwf => ?_,
    fun off hoff => csrRead_reserved hoff s⟩⟩
  · exact toNat_setWidth_word (by decide) s.err.code
  · exact toNat_setWidth_word (by decide) s.errInfo
  · exact toNat_setWidth_word (by decide) s.msg.op
  · exact toNat_setWidth_word (by decide) s.ctrl.op
  · exact toNat_setWidth_word (by decide) s.irq.en
  · exact toNat_setWidth_word (by decide) s.irq.pend
  · obtain ⟨hctrl, htx⟩ := params_cap_lt hwf
    exact ⟨Nat.mod_eq_of_lt hctrl, Nat.mod_eq_of_lt htx⟩

/-! ## The reset state (R59, R271) -/

/-- After a reset every register but `ID`, `STATUS` and the capacities reads 0 (R271). -/
theorem csrValue_resetBlock {r : Csr} (h : r ∉ [Csr.id, .status, .capMsg, .capCtrl, .capTx]) (s : State) :
    csrValue (resetBlock s) r = 0 := by
  cases r
  case id | status | capMsg | capCtrl | capTx => simp at h
  all_goals simp [csrValue, State.reset, lo32, hi32, Role.bit, CloseEcho.bit, ErrCode.code]

/-- After a reset `STATUS` shows `HANDSHAKING` and a stopped parser, and nothing else (R43, R271). -/
theorem statusWord_resetBlock (s : State) : statusWord (resetBlock s) = 0x00005000#32 :=
  calc statusWord (resetBlock s) = statusWord State.reset := rfl
    _ = 0x00005000#32 := by decide

/-- Settles O43: the step answers `resetBlock`, which `settle` leaves alone. -/
theorem resetPutsEveryFieldAtItsResetValue : Obligations.ResetPutsEveryFieldAtItsResetValue := by
  intro s rest hev
  have hstep : step s = .next (resetBlock (withEvents rest s)) := by
    have hsettle : settle (resetBlock (withEvents rest s)) = resetBlock (withEvents rest s) :=
      settle_outside (by simp [State.reset]) (by simp [State.reset])
    exact (step_of_events hev rfl).trans (congrArg Host.Outcome.next hsettle)
  refine ⟨_, hstep, rfl, rfl, rfl, rfl, rfl, rfl, rfl, rfl, rfl, rfl, rfl, rfl, rfl, rfl, rfl, rfl, rfl, rfl, rfl, rfl,
    rfl, rfl, rfl, rfl, fun b a => by cases b <;> rfl, rfl, statusWord_resetBlock _,
    fun off _ hid hst hmsg hctrl htx => ?_,
    by simp [irqOut, State.reset], rfl⟩
  unfold csrRead
  split
  next r hr =>
    refine csrValue_resetBlock (fun hmem => ?_) _
    have hoff := csrAt_eq_some hr
    simp only [List.mem_cons, List.not_mem_nil, or_false] at hmem
    rcases hmem with rfl | rfl | rfl | rfl | rfl
    · exact hid hoff
    · exact hst hoff
    · exact hmsg hoff
    · exact hctrl hoff
    · exact htx hoff
  next => rfl

end Sys2Proof.Machine
end

section
/-! PROOFS. The memory family: the byte order of the extended length and of the key (R66, R67), the frame `TxStart` builds
(R180 to R183), and the host's reads and writes of `CSR` and of the buffers (R60 to R65). -/
namespace Sys2Proof.Machine

/-! ## One byte of a legal frame (R113) -/

/-- The frames of the six legal opcodes with the same other header fields, each with its opcode (R91). -/
def legalFrames (fin : Bool) (rsv : BitVec 3) (mask : Bool) (len7 : BitVec 7) : List (Instr × Opcode) :=
  [(.cont fin rsv mask len7, 0x0#4), (.text fin rsv mask len7, 0x1#4), (.binary fin rsv mask len7, 0x2#4),
    (.close fin rsv mask len7, 0x8#4), (.ping fin rsv mask len7, 0x9#4), (.pong fin rsv mask len7, 0xA#4)]

section LegalFrames
variable {fin : Bool} {rsv : BitVec 3} {mask : Bool} {len7 : BitVec 7}

theorem frameOpcode_of_mem_legalFrames {p : Instr × Opcode} (h : p ∈ legalFrames fin rsv mask len7) :
    frameOpcode p.1 = some p.2 := by
  simp only [legalFrames, List.mem_cons, List.not_mem_nil, or_false] at h
  rcases h with rfl | rfl | rfl | rfl | rfl | rfl <;> rfl

theorem frameOpcode_of_legal {i : Instr} (h : i ∈ (legalFrames fin rsv mask len7).map Prod.fst) :
    ∃ op, frameOpcode i = some op := by
  obtain ⟨p, hp, rfl⟩ := List.mem_map.1 h
  exact ⟨p.2, frameOpcode_of_mem_legalFrames hp⟩

end LegalFrames

/-- A frame instruction in the phase `EXT` takes an extended length byte, whatever its own operands (R113). -/
theorem exec_ext {i : Instr} {op : Opcode} {s : State} (hi : frameOpcode i = some op) (hp : s.ph = .ext) :
    ∃ atEnd, exec i s = extStep op atEnd s.env.rxData (countRx s) := by
  obtain ⟨fin, rsv, mask, len7, check0, atEnd, hexec, -⟩ := exec_eq_rxFrameByte hi
  exact ⟨atEnd, by rw [hexec, rxFrameByte_ext hp]⟩

/-- A frame instruction in the phase `KEY` takes a key byte, whatever its own operands (R113). -/
theorem exec_key {i : Instr} {op : Opcode} {s : State} (hi : frameOpcode i = some op) (hp : s.ph = .key) :
    ∃ atEnd, exec i s = keyStep atEnd s.env.rxData (countRx s) := by
  obtain ⟨fin, rsv, mask, len7, check0, atEnd, hexec, -⟩ := exec_eq_rxFrameByte hi
  exact ⟨atEnd, by rw [hexec, rxFrameByte_key hp]⟩

/-! ## The extended length (R66) -/

/-- One more length byte is one more base-256 digit, in 64 bits. -/
theorem pushLenByte_eq (len : Word64) (b : Byte) :
    pushLenByte len b = BitVec.ofNat 64 (len.toNat * 256 + b.toNat) := by
  have hb := b.isLt
  apply BitVec.eq_of_toNat_eq
  have hor : len.toNat <<< 8 ||| b.toNat = len.toNat * 256 + b.toNat := by
    rw [← Nat.shiftLeft_add_eq_or_of_lt hb, Nat.shiftLeft_eq]
  have hmod : b.toNat % 2 ^ 64 = b.toNat := Nat.mod_eq_of_lt (by omega)
  rw [pushLenByte, BitVec.toNat_or, BitVec.toNat_shiftLeft, BitVec.toNat_setWidth, ← Nat.or_mod_two_pow, hor,
    BitVec.toNat_ofNat]

/-- Settles O18: the byte is counted and pushed into the length, and the last one runs `lengthKnown`. -/
theorem extendedLengthIsBigEndian : Obligations.ExtendedLengthIsBigEndian := by
  intro s fin rsv mask len7 hph f p hmem
  obtain ⟨atEnd, hexec⟩ := exec_ext (frameOpcode_of_mem_legalFrames hmem) hph
  have hf : { s.f with len := pushLenByte s.f.len s.env.rxData } = f := by rw [pushLenByte_eq]
  have hlastByte (hlast : s.cnt.toNat + 1 = extNeed s.f.len7) :
      exec p.1 s = lengthKnown p.2 atEnd .ext { countRx s with f := f, cnt := s.cnt + 1 } := by
    rw [hexec, extStep_last (s := countRx s) hlast, countRx_f, hf]
    rfl
  have hcapacity : capacityCheck p.2 { countRx s with f := f, cnt := s.cnt + 1 } = capacityCheck p.2 { s with f := f } :=
    capacityCheck_congr rfl rfl rfl
  refine ⟨fun hmore => ?_, fun hlast hcap hmask => ?_, fun hlast hcap hmask hne => ?_⟩
  · rw [hexec, extStep_more (s := countRx s) hmore, countRx_f, hf]
    rfl
  · rw [hlastByte hlast, lengthKnown_masked (hcapacity.trans hcap) hmask]
    rfl
  · rw [hlastByte hlast, lengthKnown_unmasked (hcapacity.trans hcap) hmask, headerDone_payload hne]
    rfl

/-! ## The key (R67) -/

/-- Key byte `j` is byte `j` in wire order. -/
theorem key_bytes_set {j : Nat} (h : j < 4) (k : Key) (b : Byte) : (k.set j b).bytes = k.bytes.set j b := by
  interval_cases j <;> rfl

/-- Settles O19: a key byte is stored in its place, and the fourth ends the header. -/
theorem keyBytesAreKeptInWireOrder : Obligations.KeyBytesAreKeptInWireOrder := by
  intro s fin rsv mask len7 hph hcnt i hmem hpay
  obtain ⟨op, hop⟩ := frameOpcode_of_legal (fin := fin) (rsv := rsv) (mask := mask) (len7 := len7) hmem
  obtain ⟨atEnd, hexec⟩ := exec_key hop hph
  refine ⟨s.f.key.set s.cnt.toNat s.env.rxData, key_bytes_set hcnt _ _, ?_⟩
  rw [hexec]
  by_cases hlast : s.cnt.toNat = 3
  · have hne : s.f.len ≠ 0 := hpay.resolve_left (by omega)
    rw [keyStep_last (by rw [countRx_cnt]; omega), headerDone_payload (by exact hne), if_pos hlast]
    rfl
  · rw [keyStep_more (by rw [countRx_cnt]; omega), if_neg hlast, ← hph]
    rfl

/-! ## The start of a TX frame (R180 to R183) -/

/-- Byte 0 with RSV = 0, as a number (R86). -/
theorem byte0Of_eq_ofNat (fin : Bool) (op : Opcode) :
    byte0Of fin 0 op = BitVec.ofNat 8 (fin.toNat * 128 + op.toNat) := by
  revert fin op
  decide

/-- Byte 1, as a number (R86). -/
theorem byte1Of_eq_ofNat (mask : Bool) (len7 : BitVec 7) :
    byte1Of mask len7 = BitVec.ofNat 8 (mask.toNat * 128 + len7.toNat) := by
  apply BitVec.eq_of_toNat_eq
  have := len7.isLt
  have := mask.toNat_lt
  rw [byte1Of, toNat_append_eq_add, BitVec.toNat_ofBool, BitVec.toNat_ofNat]
  omega

theorem buildHeader_head? (fin : Bool) (op : Opcode) (masked : Bool) (key : Key) (n : Word64) :
    (buildHeader fin op masked key n).head? = some (BitVec.ofNat 8 (fin.toNat * 128 + op.toNat)) :=
  congrArg some (byte0Of_eq_ofNat fin op)

theorem buildHeader_tail (fin : Bool) (op : Opcode) (masked : Bool) (key : Key) (n : Word64) :
    (buildHeader fin op masked key n).tail = BitVec.ofNat 8 (masked.toNat * 128 + (encLen n).1.toNat) ::
      (encLen n).2 ++ (if masked then key.bytes else []) := by
  rw [← byte1Of_eq_ofNat]
  rfl

theorem txRequest_pong {s : State} (h : s.crPend = .pong) :
    txRequest s = { src := .ctrl, fin := true, op := 0xA#4, len := s.ctrl.len.setWidth 64 } := by
  simp [txRequest, h]

theorem txRequest_closeEcho {s : State} (h : s.crPend = .closeEcho) :
    txRequest s = { src := .ctrl, fin := true, op := 0x8#4
                    len := if s.cfg.closeEcho = .verbatim then s.ctrl.len.setWidth 64 else 0 } := by
  cases he : s.cfg.closeEcho <;> simp [txRequest, h, he]

theorem txRequest_host {s : State} (h : s.crPend = .none) :
    txRequest s = { src := .host, fin := s.ht.fin, op := s.ht.op, len := s.ht.len } := by
  simp [txRequest, h]

/-- The masking key of a frame: the bytes of the word drawn in the `CLIENT` role, four zeros in the `SERVER` role (R181). -/
def txKey (role : Role) (k : Option Word32) : Key :=
  match role, k with
  | .client, some w => Key.ofWord w
  | _, _ => Key.zero

/-- Under its guard `TxStart` starts a frame, masked in the `CLIENT` role only (R181). -/
theorem txStart_eq {k : Option Word32} {s : State} (hkey : s.cfg.role = .client → k ≠ none) :
    txStart k s = txStartWith (decide (s.cfg.role = .client)) (txKey s.cfg.role k) s := by
  unfold txStart
  cases hr : s.cfg.role with
  | server => rfl
  | client =>
    obtain ⟨w, rfl⟩ := Option.ne_none_iff_exists'.1 (hkey hr)
    rfl

/-- A frame to start, a free framer and, for a `CLIENT`, a key: the guard of `TxStart` holds (R181). -/
theorem txStartTaken_of_request {k : Option Word32} {s : State} (hbusy : s.enc.busy = false)
    (hcs : s.cs = .opened ∨ s.cs = .closingSent ∨ s.cs = .closingReceived)
    (hreq : s.crPend ≠ .none ∨ (s.ht.pend = true ∧ s.cs ≠ .closingReceived))
    (hkey : s.cfg.role = .client → k ≠ none) : txStartTaken k s = true := by
  rw [← Bool.not_eq_false, txStartTaken_eq_false_iff]
  rintro (h | h | h | ⟨hcr, h⟩ | ⟨hr, hk⟩)
  · simp [hbusy] at h
  · simp [h] at hcs
  · simp [h] at hcs
  · obtain ⟨hpend, hrecv⟩ := hreq.resolve_left (not_not.mpr hcr)
    simp [hpend, hrecv] at h
  · exact hkey hr hk

/-- Settles O41: the step answers `txStartWith`, whose encoder registers are those of `encoderFor` for the frame that
`txRequest` chooses. -/
theorem txStartBuildsTheFrame : Obligations.TxStartBuildsTheFrame := by
  intro s k rest hev hbusy hcs hreq hkey
  have hstep : step s = .next (settle (txStartWith (decide (s.cfg.role = .client)) (txKey s.cfg.role k)
      (withEvents rest s))) := by
    rw [step_eventOut (takes_of_events hev (txStartTaken_of_request hbusy hcs hreq hkey))]
    exact congrArg (fun t => Host.Outcome.next (settle t)) (txStart_eq (s := withEvents rest s) hkey)
  refine ⟨_, hstep, rfl, rfl, rfl, rfl, fun hr => ?_, fun w hr hk => ?_, fun h => ?_, fun h => ?_, fun h => ?_,
    buildHeader_tail _ _ _ _ _⟩
  · rw [txStartWith_enc, encoderFor, hr]
    rfl
  · rw [txStartWith_enc, encoderFor, hr, hk]
    rfl
  · rw [txStartWith_enc, txRequest_pong (s := withEvents rest s) h]
    exact ⟨rfl, BitVec.toNat_setWidth_of_le (by decide), buildHeader_head? _ _ _ _ _⟩
  · rw [txStartWith_enc, txRequest_closeEcho (s := withEvents rest s) h]
    refine ⟨rfl, buildHeader_head? _ _ _ _ _, ?_⟩
    rw [encoderFor, apply_ite BitVec.toNat, BitVec.toNat_setWidth_of_le (by decide)]
    rfl
  · rw [txStartWith_enc, txRequest_host (s := withEvents rest s) h]
    exact ⟨rfl, rfl, buildHeader_head? _ _ _ _ _⟩

/-! ## Host accesses to `CSR` (R62, R63) -/

/-- A defined read returns the register's value and changes the reply alone (R62). -/
theorem hostAccess_csrRead {off : Nat} (halign : off % 4 = 0) (hrange : off ≤ 0xFFC) (s : State) :
    hostAccess (.csrRead 32 off) s = .next (withReply (.word (csrRead s off)) s) := by
  simp [hostAccess, csrAccessOk, halign, hrange]

/-- An undefined access is refused, read or write (R62, R63). -/
theorem hostAccess_csr_refused {width off : Nat} (h : csrAccessOk width off = false) (w : Word32) (s : State) :
    hostAccess (.csrRead width off) s = .refused .csrAccess ∧
      hostAccess (.csrWrite width off w) s = .refused .csrAccess := by
  simp [hostAccess, h]

/-- Settles O44: `csrAccessOk` is the three conditions of R62. -/
theorem csrReadsChangeNothing : Obligations.CsrReadsChangeNothing := by
  refine fun s width off w => ⟨?_, fun h => hostAccess_csr_refused (csrAccessOk_eq_false_iff.2 h) w s⟩
  rintro rfl halign hrange
  exact hostAccess_csrRead halign hrange s

/-! ## Host accesses to the buffers (R64, R65) -/

/-- The control buffer takes the payloads of `CLOSE` and `PING` (R28). -/
theorem dest_eq_ctrl_iff {op : Opcode} : dest op = .ctrl ↔ op = 0x8 ∨ op = 0x9 := by
  revert op
  decide

/-- The window of a buffer read, written out (R64). -/
theorem readWindow_iff {s : State} {b : Buf} {idx : Nat} :
    readWindow s b idx = true ↔
      (b = .msgbuf → s.msg.valid = true ∧ idx < s.msg.len.toNat) ∧
      (b = .ctrlbuf → idx < s.ctrl.len.toNat ∧ ¬ (s.ph = .pay ∧ (s.f.op = 0x8 ∨ s.f.op = 0x9))) := by
  cases b <;> simp [readWindow, dest_eq_ctrl_iff, imp_iff_not_or]

/-- An undefined access is refused, read or write (R64, R65, R70). -/
theorem hostAccess_buf_refused {s : State} {b : Buf} {width idx : Nat} (h : bufAccessOk s.params b width idx = false)
    (v : Byte) :
    hostAccess (.bufRead b width idx) s = .refused .bufAccess ∧
      hostAccess (.bufWrite b width idx v) s = .refused .bufAccess := by
  simp [hostAccess, h]

section InSpace
variable {s : State} {b : Buf} {idx : Nat} (hidx : bufIndexOk s.params b idx = true)
include hidx

/-- A defined read answers the byte of `hostBufByte` (R64). -/
theorem hostAccess_bufRead :
    hostAccess (.bufRead b 8 idx) s = .next (withReply (.byte (hostBufByte b idx s).1) (hostBufByte b idx s).2) := by
  simp [hostAccess, bufAccessOk, hidx]

/-- A defined write is `hostBufWrite` (R65). -/
theorem hostAccess_bufWrite (v : Byte) : hostAccess (.bufWrite b 8 idx v) s = .next (hostBufWrite b idx v s) := by
  simp [hostAccess, bufAccessOk, hidx]

end InSpace

/-- A buffer read changes the draws alone (R64). -/
theorem hostBufByte_state (b : Buf) (idx : Nat) (s : State) :
    ∃ n, (hostBufByte b idx s).2 = { s with env := { s.env with draws := n } } := by
  unfold hostBufByte
  split
  · unfold readOrDraw
    split
    · exact ⟨s.env.draws, rfl⟩
    · exact ⟨_, rfl⟩
  · exact ⟨_, rfl⟩

/-- Inside the window a written byte is read as it is, and nothing is drawn (R64). -/
theorem hostBufByte_written {b : Buf} {idx : Nat} {s : State} {d : Byte} (hwin : readWindow s b idx = true)
    (hread : (bufOf s b).read idx = some d) : hostBufByte b idx s = (d, s) := by
  simp [hostBufByte, hwin, readOrDraw, hread]

/-- Settles O49: a defined read is `hostBufByte`, and a defined write is `hostBufWrite`. -/
theorem bufferAccessesByWindow : Obligations.BufferAccessesByWindow := by
  intro s b width idx v inSpace
  have hspace : inSpace ↔ bufIndexOk s.params b idx = true := bufIndexOk_iff.symm
  refine ⟨fun h => hostAccess_buf_refused ?_ v, ?_⟩
  · rw [hspace] at h
    simpa [bufAccessOk, ← imp_iff_not_or] using h
  · rintro rfl hin
    rw [hostAccess_bufRead (hspace.1 hin), hostAccess_bufWrite (hspace.1 hin)]
    refine ⟨?_, fun d hread hmsg hctrl => ?_, fun hb => ?_, ?_⟩
    · obtain ⟨n, hn⟩ := hostBufByte_state b idx s
      exact ⟨(hostBufByte b idx s).1, n, by rw [hn]; rfl⟩
    · rw [hostBufByte_written (readWindow_iff.2 ⟨hmsg, hctrl⟩) hread]
      rfl
    · cases b with
      | txbuf => exact absurd rfl hb
      | msgbuf => rfl
      | ctrlbuf => rfl
    · rintro rfl
      exact ⟨_, rfl, memory_read_write_self _ _ _, fun a ha => memory_read_write_other _ v ha⟩

end Sys2Proof.Machine
end

section
/-! PROOFS. The encoding family: decoding and encoding undo each other (R86, R91, R98, R99), the length form the TX framer
picks and its reading back (R89, R97), and byte 1 with the MASK the role does not require (R94). -/
namespace Sys2Proof.Machine

/-! ## The fields of a header word and of a `CMD` word (R86, R98) -/

@[simp] theorem finOf_byte0Of (fin : Bool) (rsv : BitVec 3) (op : Opcode) : finOf (byte0Of fin rsv op) = fin := by
  revert fin rsv op
  decide

@[simp] theorem rsvOf_byte0Of (fin : Bool) (rsv : BitVec 3) (op : Opcode) : rsvOf (byte0Of fin rsv op) = rsv := by
  revert fin rsv op
  decide

@[simp] theorem maskOf_byte1Of (mask : Bool) (len7 : BitVec 7) : maskOf (byte1Of mask len7) = mask := by
  revert mask len7
  decide

@[simp] theorem len7Of_byte1Of (mask : Bool) (len7 : BitVec 7) : len7Of (byte1Of mask len7) = len7 :=
  BitVec.extractLsb'_append_eq_right

/-- The fields of a byte 0 spell it. -/
theorem byte0Of_fields (b : Byte) : byte0Of (finOf b) (rsvOf b) (opcodeOf b) = b := by
  revert b
  decide

/-- The fields of a byte 1 spell it. -/
theorem byte1Of_fields (b : Byte) : byte1Of (maskOf b) (len7Of b) = b := by
  revert b
  decide

/-- The fields of the two bytes of a header word spell the word. -/
theorem headerWord_fields (b0 b1 : Byte) :
    headerWord (opcodeOf b0) (finOf b0) (rsvOf b0) (maskOf b1) (len7Of b1) = b0 ++ b1 := by
  rw [headerWord, byte0Of_fields, byte1Of_fields]

/-! ## Decode of encode (R91, R98) -/

/-- A header word is decoded from the two bytes it was put together from. -/
theorem decode_headerWord (op : Opcode) (fin : Bool) (rsv : BitVec 3) (mask : Bool) (len7 : BitVec 7) :
    decode (.frame (headerWord op fin rsv mask len7)) = decodeHeader (byte0Of fin rsv op) (byte1Of mask len7) :=
  congrArg₂ decodeHeader BitVec.extractLsb'_append_eq_left BitVec.extractLsb'_append_eq_right

@[simp] theorem extractLsb'_commandWord_ign (ign : BitVec 28) (code : BitVec 4) :
    (commandWord ign code).extractLsb' 4 28 = ign :=
  BitVec.extractLsb'_append_eq_left

@[simp] theorem extractLsb'_commandWord_code (ign : BitVec 28) (code : BitVec 4) :
    (commandWord ign code).extractLsb' 0 4 = code :=
  BitVec.extractLsb'_append_eq_right

/-- A reserved code is read as the reserved command with that code (R220). -/
theorem decodeCommand_reserved {code : BitVec 4} (h : 8 ≤ code.toNat) (ign : BitVec 28) :
    decodeCommand (commandWord ign code) = .cmdRsvd8F ign code := by
  unfold decodeCommand
  simp only [extractLsb'_commandWord_ign, extractLsb'_commandWord_code]
  split
  case h_9 => rfl
  all_goals omega

/-- Settles O2: the decoder finds in the encoding the fields it was put together from, and its opcode or code selects the
constructor again. -/
theorem decodeOfEncodeIsTheInstruction : Obligations.DecodeOfEncodeIsTheInstruction := by
  intro i hwf
  cases i
  case cmdRsvd8F ign code => exact decodeCommand_reserved (of_decide_eq_true hwf) ign
  case nop | hsDone | hsFail | msgAck | txData | txClose | abort | clrRej => simp [encode, decode, decodeCommand]
  all_goals simp [encode, decode_headerWord, decodeHeader, opcodeOf_byte0Of]

/-! ## Encode of decode (R91, R98, R99) -/

/-- Two header bytes spell a well-formed frame, whose encoding is the two bytes: each opcode selects the constructor that
is encoded with it (R91). -/
theorem encode_decodeHeader (b0 b1 : Byte) :
    (decodeHeader b0 b1).wf = true ∧ encode (decodeHeader b0 b1) = .frame (b0 ++ b1) := by
  rw [← headerWord_fields]
  unfold decodeHeader
  generalize opcodeOf b0 = op
  obtain ⟨n, hn⟩ := op
  interval_cases n <;> exact ⟨rfl, rfl⟩

/-- A `CMD` word spells a well-formed command, whose encoding is the word: each code selects the constructor that is
encoded with it (R98). -/
theorem encode_decodeCommand (w : Word32) :
    (decodeCommand w).wf = true ∧ encode (decodeCommand w) = .command w := by
  have hw : commandWord (w.extractLsb' 4 28) (w.extractLsb' 0 4) = w := BitVec.extractLsb'_append_extractLsb'
  nth_rw 3 [← hw]
  unfold decodeCommand
  generalize w.extractLsb' 0 4 = code
  obtain ⟨n, hn⟩ := code
  interval_cases n <;> exact ⟨rfl, rfl⟩

/-- Settles O3: both kinds of encoding are put together again from their parts. -/
theorem encodeOfDecodeIsTheCode : Obligations.EncodeOfDecodeIsTheCode := by
  intro c
  cases c with
  | command w => exact encode_decodeCommand w
  | frame hw =>
    have hbytes : hw.extractLsb' 8 8 ++ hw.extractLsb' 0 8 = hw := BitVec.extractLsb'_append_extractLsb'
    have h := encode_decodeHeader (hw.extractLsb' 8 8) (hw.extractLsb' 0 8)
    rwa [hbytes] at h

/-! ## The length form (R89, R97) -/

/-- Byte `j` of a length is its base-256 digit `j`. -/
theorem byteOf_eq_ofNat (n : Word64) (j : Nat) : byteOf n j = BitVec.ofNat 8 (n.toNat / 256 ^ j) := by
  apply BitVec.eq_of_toNat_eq
  simp [byteOf, Nat.shiftRight_eq_div_pow, Nat.pow_mul]

/-- Pushing the next byte of `n` after the bytes above it. -/
theorem pushLenByte_shiftRight (n : Word64) (k : Nat) :
    pushLenByte (n >>> (8 * (k + 1))) (byteOf n k) = n >>> (8 * k) := by
  ext i hi
  by_cases h : i < 8
  · simp [pushLenByte, byteOf, h]
  · have hidx : 8 * (k + 1) + (i - 8) = 8 * k + i := by omega
    simp [pushLenByte, byteOf, h, hidx]

/-- The lowest `k` bytes, highest first, complete the bytes above them to `n` (R66). -/
theorem foldl_pushLenByte_byteOf (n : Word64) (k : Nat) :
    ((List.range k).reverse.map (byteOf n)).foldl pushLenByte (n >>> (8 * k)) = n := by
  induction k with
  | zero => simp
  | succ k ih =>
    rw [List.range_succ, List.reverse_concat, List.map_cons, List.foldl_cons, pushLenByte_shiftRight, ih]

/-- `k` big-endian bytes are read back as the length they came from, when it fits in them (R66). -/
theorem foldl_pushLenByte_zero {n : Word64} {k : Nat} (h : n >>> (8 * k) = 0) :
    ((List.range k).reverse.map (byteOf n)).foldl pushLenByte 0 = n := by
  rw [← h]
  exact foldl_pushLenByte_byteOf n k

theorem encLen_short {n : Word64} (h : n.toNat < 126) : encLen n = (n.setWidth 7, []) := if_pos h

theorem encLen_two {n : Word64} (h : 126 ≤ n.toNat) (h' : n.toNat ≤ 65535) :
    encLen n = (126#7, (List.range 2).reverse.map (byteOf n)) :=
  (if_neg (not_lt.2 h)).trans (if_pos h')

theorem encLen_eight {n : Word64} (h : 65535 < n.toNat) :
    encLen n = (127#7, (List.range 8).reverse.map (byteOf n)) :=
  (if_neg (by omega)).trans (if_neg (by omega))

theorem toNat_setWidth_seven {n : Word64} (h : n.toNat < 126) : (n.setWidth 7).toNat = n.toNat := by
  rw [BitVec.toNat_setWidth, Nat.mod_eq_of_lt (by omega)]

/-- What `enc_len` picks announces as many extended bytes as it gives, and reads back as the length (R89, R97). -/
theorem encLen_readsBack (n : Word64) :
    (encLen n).2.length = extNeed (encLen n).1 ∧ frameLen (encLen n).1 (encLen n).2 = n := by
  rcases lt_or_ge n.toNat 126 with hshort | hlong
  · have hlen := toNat_setWidth_seven hshort
    rw [encLen_short hshort]
    refine ⟨?_, ?_⟩
    · rw [extNeed, hlen, if_neg (by omega), if_neg (by omega)]
      rfl
    · rw [frameLen, hlen, if_pos (by omega)]
      apply BitVec.eq_of_toNat_eq
      rw [BitVec.toNat_setWidth_of_le (by decide), hlen]
  rcases le_or_gt n.toNat 65535 with hmid | hbig
  · rw [encLen_two hlong hmid]
    refine ⟨rfl, foldl_pushLenByte_zero (BitVec.eq_of_toNat_eq ?_)⟩
    rw [BitVec.toNat_ushiftRight]
    exact Nat.shiftRight_eq_zero _ _ (by omega)
  · rw [encLen_eight hbig]
    exact ⟨rfl, foldl_pushLenByte_zero (BitVec.ushiftRight_eq_zero (by decide))⟩

/-- Settles O4: the three regimes, and the reading back of `encLen_readsBack`. -/
theorem encLenIsShortestAndReadsBack : Obligations.EncLenIsShortestAndReadsBack := by
  intro n
  refine ⟨fun h => ?_, fun h h' => ?_, fun h => ?_, encLen_readsBack n⟩
  · rw [encLen_short h]
    exact ⟨toNat_setWidth_seven h, rfl⟩
  · rw [encLen_two h h']
    exact ⟨rfl, by simp [List.range_succ, byteOf_eq_ofNat]⟩
  · have hrev : (List.range 8).reverse = (List.range 8).map (7 - ·) := rfl
    rw [encLen_eight h, hrev, List.map_map]
    exact ⟨rfl, List.map_congr_left fun j _ => byteOf_eq_ofNat n (7 - j)⟩

/-! ## The MASK of a received frame (R94) -/

/-- Byte 1 of a legal frame is the byte of its own MASK and LEN7 (R113). -/
theorem exec_hdr1 {fin : Bool} {rsv : BitVec 3} {mask : Bool} {len7 : BitVec 7} {p : Instr × Opcode} {s : State}
    (h : p ∈ legalFrames fin rsv mask len7) (hp : s.ph = .hdr1) :
    ∃ atEnd, exec p.1 s = byte1Step p.2 mask len7 atEnd (countRx s) := by
  simp only [legalFrames, List.mem_cons, List.not_mem_nil, or_false] at h
  rcases h with rfl | rfl | rfl | rfl | rfl | rfl <;> exact ⟨_, rxFrameByte_hdr1 hp⟩

/-- A `SERVER` requires MASK and a `CLIENT` refuses it (R7, R94). -/
theorem ne_requiredMask_iff {mask : Bool} {s : State} :
    mask ≠ requiredMask s ↔ (mask = true ↔ s.cfg.role = .client) := by
  unfold requiredMask
  cases s.cfg.role <;> simp

theorem toNat_byte0Of (fin : Bool) (rsv : BitVec 3) (op : Opcode) :
    (byte0Of fin rsv op).toNat = fin.toNat * 128 + rsv.toNat * 16 + op.toNat := by
  rw [byte0Of, toNat_append_eq_add, toNat_append_eq_add, BitVec.toNat_ofBool]
  omega

theorem toNat_byte1Of (mask : Bool) (len7 : BitVec 7) :
    (byte1Of mask len7).toNat = mask.toNat * 128 + len7.toNat := by
  rw [byte1Of, toNat_append_eq_add, BitVec.toNat_ofBool]
  rfl

/-- The capture of a step that takes byte 1: both bytes valid, phase `HDR1` (R246). -/
theorem toNat_capture_byte1 (f : FrameHdr) :
    (capture .hdr1 true f).toNat = 2 ^ 20 + 2 ^ 19 + 2 ^ 16 + (f.mask.toNat * 128 + f.len7.toNat) * 256 +
      (f.fin.toNat * 128 + f.rsv.toNat * 16 + f.op.toNat) := by
  have hcap : capture .hdr1 true f = 0b11001#5 ++ byte1Of f.mask f.len7 ++ byte0Of f.fin f.rsv f.op := rfl
  have hvalid : (0b11001#5).toNat = 25 := rfl
  rw [hcap, toNat_append_eq_add, toNat_append_eq_add, toNat_byte1Of, toNat_byte0Of, hvalid]
  omega

/-- Settles O14: the byte fails check (c), and its capture shows both header bytes. -/
theorem wrongMaskFaultsAtByte1 : Obligations.WrongMaskFaultsAtByte1 := by
  intro s fin rsv mask len7 hph hmask i hi
  obtain ⟨p, hp, rfl⟩ : ∃ p ∈ legalFrames fin rsv mask len7, p.1 = i := List.mem_map.1 hi
  obtain ⟨atEnd, hexec⟩ := exec_hdr1 hp hph
  refine ⟨_, hexec.trans (byte1Step_wrong_mask (ne_requiredMask_iff.2 hmask)), rfl, rfl, rfl, rfl, rfl, ?_⟩
  exact toNat_capture_byte1 _

/-! ## Known words -/

/-- Settles O1: the decoder is run on each word. -/
theorem knownWordsDecode : Obligations.KnownWordsDecode := by
  unfold Obligations.KnownWordsDecode
  decide

end Sys2Proof.Machine
end

section
/-! PROOFS. The frame family: the invariant of the machine, masking (R121), a byte of a frame phase by phase (R113 to
R117), the end of an unfinished data frame (R142 to R144), and what an RX byte and a pending response leave alone. -/
namespace Sys2Proof.Machine

/-! ## The invariant -/

/-- Settles O52: the operation of the event taken keeps `PreInv`, and `settle` completes it to `Inv`. -/
theorem stepKeepsTheInvariant : Obligations.StepKeepsTheInvariant := by
  intro s t hinv h
  rcases step_next h with ⟨e, rest, u, htakes, hout, rfl⟩ | rfl
  · have hgood : Good (eventOut e (withEvents rest s)) :=
      eventOut_good (env_pre hinv.pre _) ((eventTaken_withEvents e rest s).trans (takes_guard htakes))
    rw [hout] at hgood
    exact settle_inv hgood
  · exact hinv

/-! ## Masking (R121) -/

/-- Masking twice at the same payload index gives the bytes back. -/
theorem maskFrom_maskFrom (k : Key) (p : List Byte) (i : Nat) : maskFrom k i (maskFrom k i p) = p := by
  induction p generalizing i with
  | nil => rfl
  | cons b p ih => rw [maskFrom, maskFrom, ih, BitVec.xor_assoc, BitVec.xor_self, BitVec.xor_zero]

/-- Byte `j` of a masked sequence is the masking engine's, at that byte's payload index. -/
theorem maskFrom_getElem? (k : Key) (p : List Byte) (i j : Nat) :
    (maskFrom k i p)[j]? = p[j]?.map (maskByte true k (i + j)) := by
  induction p generalizing i j with
  | nil => rfl
  | cons b p ih =>
    cases j with
    | zero => rfl
    | succ j =>
      rw [maskFrom, List.getElem?_cons_succ, List.getElem?_cons_succ, ih, Nat.add_right_comm, Nat.add_assoc]

/-- The key byte of a payload index is the one at that index modulo 4 in wire order (R67). -/
theorem key_bytes_getElem? (k : Key) (i : Nat) : k.bytes[i % 4]? = some (k.get i) := by
  have hlt : i % 4 < 4 := Nat.mod_lt _ (by decide)
  unfold Key.get
  generalize i % 4 = j at hlt
  interval_cases j <;> rfl

/-- Settles O5: the masked sequence byte by byte, and the key byte of each index. -/
theorem maskingTwiceGivesThePayloadBack : Obligations.MaskingTwiceGivesThePayloadBack := by
  refine fun k p => ⟨maskFrom_maskFrom k p 0, fun i => ?_, fun i b => ?_, fun i b => rfl⟩
  · rw [maskFrom_getElem?, Nat.zero_add]
  · rw [key_bytes_getElem?]
    rfl

/-! ## Byte 0 (R113, R114) -/

section Byte0
variable {op : Opcode} {fin : Bool} {rsv : BitVec 3} {check0 : State → Option ErrCode} {s : State}

/-- A byte 0 that passes its check is stored and the parser goes to `HDR1`. -/
theorem byte0Step_passes (hc : check0 { s with f := byte0Hdr fin rsv op, cnt := 0 } = none) :
    byte0Step fin rsv op check0 s = .next { s with f := byte0Hdr fin rsv op, cnt := 0, ph := .hdr1 } := by
  simp only [byte0Step, hc]

/-- A byte 0 that fails its check is stored and is a connection fault. -/
theorem byte0Step_fails {e : ErrCode} (hc : check0 { s with f := byte0Hdr fin rsv op, cnt := 0 } = some e) :
    byte0Step fin rsv op check0 s =
      .next (raise e .hdr0 true { s with f := byte0Hdr fin rsv op, cnt := 0 }) := by
  simp only [byte0Step, hc]

end Byte0

theorem contCheck_during {s : State} (h : s.ra.active = true) : contCheck s = none := if_pos h

theorem contCheck_idle {s : State} (h : s.ra.active = false) : contCheck s = some .pvContNoStart := by
  simp [contCheck, h]

theorem startCheck_during {s : State} (h : s.ra.active = true) : startCheck s = some .pvStartInMsg := if_pos h

theorem startCheck_idle {s : State} (h : s.ra.active = false) : startCheck s = none := by
  simp [startCheck, h]

/-- Settles O11: each opcode's check at byte 0 passes. -/
theorem byte0OfALegalFrame : Obligations.Byte0OfALegalFrame := by
  intro s fin rsv mask len7 he hp t
  refine ⟨fun ha => ?_, fun ha => ?_, fun ha => ?_, ?_, ?_, ?_⟩
  · exact (rxFrameByte_hdr0 he hp).trans (byte0Step_passes (contCheck_during ha))
  · exact (rxFrameByte_hdr0 he hp).trans (byte0Step_passes (startCheck_idle ha))
  · exact (rxFrameByte_hdr0 he hp).trans (byte0Step_passes (startCheck_idle ha))
  · exact (rxFrameByte_hdr0 he hp).trans (byte0Step_passes rfl)
  · exact (rxFrameByte_hdr0 he hp).trans (byte0Step_passes rfl)
  · exact (rxFrameByte_hdr0 he hp).trans (byte0Step_passes rfl)

/-- Settles O12: check (b) fails. -/
theorem byte0AgainstTheSequenceFaults : Obligations.Byte0AgainstTheSequenceFaults := by
  intro s fin rsv mask len7 he hp u
  refine ⟨fun ha => ?_, fun ha => ?_, fun ha => ?_⟩
  · exact (rxFrameByte_hdr0 he hp).trans (byte0Step_fails (contCheck_idle ha))
  · exact (rxFrameByte_hdr0 he hp).trans (byte0Step_fails (startCheck_during ha))
  · exact (rxFrameByte_hdr0 he hp).trans (byte0Step_fails (startCheck_during ha))

/-! ## The capacity check (R114 (d)) -/

theorem dest_eq_msg_iff {op : Opcode} : dest op = .msg ↔ op = 0x0 ∨ op = 0x1 ∨ op = 0x2 := by
  revert op
  decide

theorem capacityCheck_msg {op : Opcode} (hd : dest op = .msg) (s : State) :
    capacityCheck op s = if msgLimit s.params < s.ra.len.toNat + s.f.len.toNat then some .resourceMsg else none := by
  simp [capacityCheck, hd]

theorem capacityCheck_ctrl {op : Opcode} (hd : dest op = .ctrl) (s : State) :
    capacityCheck op s = if s.params.ctrlCap < s.f.len.toNat then some .resourceCtrl else none := by
  simp [capacityCheck, hd]

theorem msgLimit_eq {p : Params} {limit : Nat}
    (h : p.msgCap = some limit ∨ (p.msgCap = none ∧ limit = 2 ^ 64 - 1)) : msgLimit p = limit := by
  rcases h with h | ⟨h, rfl⟩ <;> simp [msgLimit, h]

/-- Settles O16: the destination chooses the limit. -/
theorem capacityCheckByDestination : Obligations.CapacityCheckByDestination := by
  intro s op limit hlimit
  refine ⟨fun hop => ?_, fun hop => ?_, ?_⟩
  · rw [capacityCheck_msg (dest_eq_msg_iff.2 hop), msgLimit_eq hlimit]
    simp
  · rw [capacityCheck_ctrl (dest_eq_ctrl_iff.2 hop)]
    simp
  · rintro rfl
    rfl

/-! ## Byte 1 and the length (R113, R115) -/

/-- A `SERVER` requires MASK and a `CLIENT` requires none (R7, R94). -/
theorem eq_requiredMask_iff {mask : Bool} {s : State} :
    mask = requiredMask s ↔ (mask = true ↔ s.cfg.role = .server) := by
  unfold requiredMask
  cases s.cfg.role <;> simp

section Byte1
variable {fin : Bool} {rsv : BitVec 3} {mask : Bool} {len7 : BitVec 7} {p : Instr × Opcode} {s : State}
  (hmem : p ∈ legalFrames fin rsv mask len7) (hp : s.ph = .hdr1) (hm : mask = true ↔ s.cfg.role = .server)
include hmem hp hm

/-- Byte 1 of a legal frame with the required MASK makes a base length up to 125 the length. -/
theorem exec_byte1_short (hl : len7.toNat ≤ 125) :
    ∃ atEnd, exec p.1 s = lengthKnown p.2 atEnd .hdr1
      { countRx s with f := { s.f with mask := mask, len7 := len7, len := len7.setWidth 64 } } := by
  obtain ⟨atEnd, hexec⟩ := exec_hdr1 hmem hp
  exact ⟨atEnd, hexec.trans (byte1Step_short (eq_requiredMask_iff.2 hm) hl)⟩

/-- Byte 1 of a legal frame with the required MASK and a base length of 126 or 127 leads to the extended length. -/
theorem exec_byte1_extended (hl : 126 ≤ len7.toNat) :
    exec p.1 s = .next { countRx s with f := { s.f with mask := mask, len7 := len7 }, ph := .ext, cnt := 0 } := by
  obtain ⟨atEnd, hexec⟩ := exec_hdr1 hmem hp
  exact hexec.trans (byte1Step_extended (eq_requiredMask_iff.2 hm) hl)

end Byte1

theorem setWidth_len7_ne_zero {len7 : BitVec 7} (h : len7 ≠ 0) : len7.setWidth 64 ≠ 0 := by
  bv_omega

/-- Settles O15: a short length is known at once, and within capacity leads to the key or the payload. -/
theorem byte1OfALegalFrame : Obligations.Byte1OfALegalFrame := by
  intro s fin rsv mask len7 hph hm f1 f2 p hmem
  have hcapacity (hc : capacityCheck p.2 { s with f := f2 } = none) :
      capacityCheck p.2 { countRx s with f := f2 } = none := (capacityCheck_congr rfl rfl rfl).trans hc
  refine ⟨fun hl => exec_byte1_extended hmem hph hm hl, fun hl hc hmask => ?_, fun hl hc hmask hne => ?_⟩
  · obtain ⟨atEnd, hexec⟩ := exec_byte1_short hmem hph hm hl
    exact hexec.trans (lengthKnown_masked (hcapacity hc) hmask)
  · obtain ⟨atEnd, hexec⟩ := exec_byte1_short hmem hph hm hl
    rw [hexec, lengthKnown_unmasked (hcapacity hc) hmask]
    exact headerDone_payload (setWidth_len7_ne_zero hne)

/-- Settles O17: the length is known at byte 1 or at the last extended length byte, and the check fails there. -/
theorem capacityFaultsWhenTheLengthIsKnown : Obligations.CapacityFaultsWhenTheLengthIsKnown := by
  intro s fin rsv mask len7 e p hmem
  refine ⟨fun hph hm hl => ?_, fun hph hlast => ?_⟩
  · intro u hc
    obtain ⟨atEnd, hexec⟩ := exec_byte1_short hmem hph hm hl
    exact hexec.trans (lengthKnown_over hc)
  · intro u hc
    obtain ⟨atEnd, hexec⟩ := exec_ext (frameOpcode_of_mem_legalFrames hmem) hph
    rw [hexec, extStep_last (s := countRx s) hlast]
    exact lengthKnown_over hc

/-! ## The data and the control frames -/

/-- The control opcodes with their frame-end actions (R160, R162, R164). -/
def controlFrameEnds : List (Opcode × FrameEnd) :=
  [(0x8#4, frameEndClose), (0x9#4, frameEndPing), (0xA#4, frameEndPong)]

section Frames
variable {fin : Bool} {rsv : BitVec 3} {mask : Bool} {len7 : BitVec 7} {i : Instr}

/-- A data frame's payload goes to the message buffer, and one of three actions ends it (R28, R142 to R144). -/
theorem exec_data (h : i ∈ [Instr.cont fin rsv mask len7, .text fin rsv mask len7, .binary fin rsv mask len7]) :
    ∃ op check0 atEnd, exec i = rxFrameByte op fin rsv mask len7 check0 atEnd ∧ dest op = .msg ∧
      atEnd ∈ [frameEndCont, frameEndText, frameEndBinary] := by
  simp only [List.mem_cons, List.not_mem_nil, or_false] at h
  rcases h with rfl | rfl | rfl <;> exact ⟨_, _, _, rfl, rfl, by simp⟩

/-- A control frame runs the RX byte step without a check at byte 0, and its own action ends it. -/
theorem exec_control (h : i ∈ [Instr.close fin rsv mask len7, .ping fin rsv mask len7, .pong fin rsv mask len7]) :
    ∃ op atEnd, exec i = rxFrameByte op fin rsv mask len7 noCheck atEnd ∧ (op, atEnd) ∈ controlFrameEnds ∧
      (op = 0x8 ↔ i = .close fin rsv mask len7) ∧ (op = 0xA ↔ i = .pong fin rsv mask len7) := by
  simp only [List.mem_cons, List.not_mem_nil, or_false] at h
  rcases h with rfl | rfl | rfl <;> exact ⟨_, _, rfl, by simp [controlFrameEnds], by simp, by simp⟩

end Frames

/-! ## The payload (R113, R116, R117) -/

/-- A payload byte that has been stored and is not the frame's last moves the index on. -/
theorem rxFrameByte_pay_more {op : Opcode} {fin : Bool} {rsv : BitVec 3} {mask : Bool} {len7 : BitVec 7}
    {check0 : State → Option ErrCode} {atEnd : FrameEnd} {s t : State} {d : Dest} (hp : s.ph = .pay)
    (hmore : s.f.idx + 1 ≠ s.f.len) (hd : dest op = d)
    (hstore : store d s.f.idx.toNat (maskByte s.f.mask s.f.key s.f.idx.toNat s.env.rxData) (countRx s) = .next t)
    (hf : t.f = s.f) :
    rxFrameByte op fin rsv mask len7 check0 atEnd s = .next { t with f := { s.f with idx := s.f.idx + 1 } } := by
  subst hd
  rw [rxFrameByte_pay hp, payStep_stored hstore, payNext_more (by rwa [hf]), hf]

/-- Settles O20: the destination of the payload is the opcode's. -/
theorem payloadByteIsUnmaskedAndStored : Obligations.PayloadByteIsUnmaskedAndStored := by
  intro s fin rsv mask len7 hph hmore d u
  refine ⟨fun hin i hi => ?_, fun hin i hi => ?_, ?_⟩
  · obtain ⟨op, check0, atEnd, hexec, hd, -⟩ := exec_data hi
    have hidx : bufIndexOk (countRx s).params .msgbuf ((countRx s).ra.len.toNat + s.f.idx.toNat) = true :=
      bufIndexOk_iff.2 (.inl ⟨rfl, hin⟩)
    rw [hexec]
    exact rxFrameByte_pay_more hph hmore hd (store_msg hidx) rfl
  · have hidx : bufIndexOk (countRx s).params .ctrlbuf s.f.idx.toNat = true :=
      bufIndexOk_iff.2 (.inr (.inl ⟨rfl, hin⟩))
    simp only [List.mem_cons, List.not_mem_nil, or_false] at hi
    rcases hi with rfl | rfl <;>
      exact rxFrameByte_pay_more (d := .ctrl) hph hmore rfl (store_ctrl hidx) rfl
  · exact rxFrameByte_pay_more (t := countRx s) hph hmore rfl rfl rfl

/-! ## The end of an unfinished data frame (R142 to R144) -/

section Unfinished
variable {s : State} (h : s.f.fin = false) (p : Phase)
include h

theorem frameEndCont_unfinished :
    frameEndCont p s = .next { s with ra := { s.ra with len := s.ra.len + s.f.len } } := by
  simp [frameEndCont, h]

theorem frameEndText_unfinished :
    frameEndText p s = .next { s with ra := { active := true, op := 0x1, len := s.f.len } } := by
  simp [frameEndText, h]

theorem frameEndBinary_unfinished :
    frameEndBinary p s = .next { s with ra := { active := true, op := 0x2, len := s.f.len } } := by
  simp [frameEndBinary, h]

end Unfinished

/-- FIN at a frame's end is the one its byte 0 brought. -/
theorem frameEndState_fin {op : Opcode} {mask : Bool} {len7 : BitVec 7} {s t : State}
    (h : frameEndState op mask len7 s = some t) : t.f.fin = s.f.fin := by
  obtain ⟨-, hfin, -⟩ := frameEndState_keeps h
  exact hfin

/-- Settles O21: the byte runs the opcode's frame-end action, with FIN = 0. -/
theorem unfinishedDataFrameJoinsTheMessage : Obligations.UnfinishedDataFrameJoinsTheMessage := by
  intro s t fin rsv mask len7 hfin
  refine ⟨fun h => ?_, fun h => ?_, fun h => ?_⟩
  · exact (rxFrameByte_of_frameEndState h).trans (frameEndCont_unfinished ((frameEndState_fin h).trans hfin) _)
  · exact (rxFrameByte_of_frameEndState h).trans (frameEndText_unfinished ((frameEndState_fin h).trans hfin) _)
  · exact (rxFrameByte_of_frameEndState h).trans (frameEndBinary_unfinished ((frameEndState_fin h).trans hfin) _)

/-! ## What an RX byte of a frame leaves alone (R113, R117) -/

/-- `u` is `s` after the parser's own writes for a byte of a frame with opcode `op`: `rx_count`, its working registers and
the payload byte's buffer. -/
def ParserWrote (op : Opcode) (s u : State) : Prop :=
  ∃ n f cnt ph mb cb, ByteStored op s mb cb ∧
    u = { s with rxCount := n, f := f, cnt := cnt, ph := ph, msgbuf := mb, ctrlbuf := cb }

/-- An RX byte of a frame that answers a next state makes the parser's own writes, and then nothing more, a connection
fault or the opcode's frame-end action (R113, R119). -/
theorem rxFrameByte_parserWrote {op : Opcode} {fin : Bool} {rsv : BitVec 3} {mask : Bool} {len7 : BitVec 7}
    {check0 : State → Option ErrCode} {atEnd : FrameEnd} {s t : State}
    (h : rxFrameByte op fin rsv mask len7 check0 atEnd s = .next t) :
    ∃ u, ParserWrote op s u ∧ (t = u ∨ (∃ e, t = raise e s.ph true u) ∨ atEnd s.ph u = .next t) := by
  rcases rxFrameByte_cases h with ⟨-, rfl⟩ | ⟨e, f, cnt, ph, rfl⟩ | ⟨f, cnt, ph, mb, cb, hst, rfl⟩ |
    ⟨f, cnt, mb, cb, hst, hend⟩
  · exact ⟨t, ⟨_, _, _, _, _, _, .inl ⟨rfl, rfl⟩, rfl⟩, .inl rfl⟩
  · exact ⟨_, ⟨_, _, _, _, _, _, .inl ⟨rfl, rfl⟩, rfl⟩, .inr (.inl ⟨e, rfl⟩)⟩
  · exact ⟨_, ⟨_, _, _, _, _, _, hst, rfl⟩, .inl rfl⟩
  · exact ⟨_, ⟨_, _, _, _, _, _, hst, rfl⟩, .inr (.inr hend)⟩

/-- The payload of a data frame is written at one index of `msgbuf`. -/
theorem ParserWrote.data {op : Opcode} {s u : State} (h : ParserWrote op s u) (hd : dest op = .msg) :
    ∃ n f cnt ph mb, u = { s with rxCount := n, f := f, cnt := cnt, ph := ph, msgbuf := mb } ∧
      ∀ a, ¬ (s.ph = .pay ∧ a = s.ra.len.toNat + s.f.idx.toNat) → mb.read a = s.msgbuf.read a := by
  obtain ⟨n, f, cnt, ph, mb, cb, hst, rfl⟩ := h
  rcases hst with ⟨rfl, rfl⟩ | ⟨hp, -, rfl, rfl⟩ | ⟨-, hctrl, -, -⟩
  · exact ⟨n, f, cnt, ph, _, rfl, fun _ _ => rfl⟩
  · exact ⟨n, f, cnt, ph, _, rfl, fun a ha => memory_read_write_other _ _ fun heq => ha ⟨hp, heq⟩⟩
  · rw [hd] at hctrl
    cases hctrl

/-- The payload of a control frame is written at one index of `ctrlbuf`, or nowhere. -/
theorem ParserWrote.control {op : Opcode} {s u : State} (h : ParserWrote op s u) (hd : dest op ≠ .msg) :
    ∃ n f cnt ph cb, u = { s with rxCount := n, f := f, cnt := cnt, ph := ph, ctrlbuf := cb } ∧
      ∀ a, ¬ (s.ph = .pay ∧ a = s.f.idx.toNat ∧ dest op = .ctrl) → cb.read a = s.ctrlbuf.read a := by
  obtain ⟨n, f, cnt, ph, mb, cb, hst, rfl⟩ := h
  rcases hst with ⟨rfl, rfl⟩ | ⟨-, hmsg, -, -⟩ | ⟨hp, hctrl, rfl, rfl⟩
  · exact ⟨n, f, cnt, ph, _, rfl, fun _ _ => rfl⟩
  · exact absurd hmsg hd
  · exact ⟨n, f, cnt, ph, _, rfl, fun a ha => memory_read_write_other _ _ fun heq => ha ⟨hp, heq, hctrl⟩⟩

/-- The end of a data frame writes the reassembly registers, and then delivers the message, raises a fault or does nothing
more (R142 to R147). -/
theorem dataFrameEnd_next {atEnd : FrameEnd} (h : atEnd ∈ [frameEndCont, frameEndText, frameEndBinary])
    {p : Phase} {u t : State} (ht : atEnd p u = .next t) :
    ∃ ra, t = { u with ra := ra } ∨ t = deliver { u with ra := ra } ∨ ∃ e, t = raise e p true { u with ra := ra } := by
  have hend : ∃ ra, atEnd p u = if u.f.fin then messageComplete p { u with ra := ra } else .next { u with ra := ra } := by
    simp only [List.mem_cons, List.not_mem_nil, or_false] at h
    rcases h with rfl | rfl | rfl <;> exact ⟨_, rfl⟩
  obtain ⟨ra, hend⟩ := hend
  refine ⟨ra, ?_⟩
  rw [hend] at ht
  split at ht
  · rcases messageComplete_cases p { u with ra := ra } with hm | hm | hm <;> rw [hm] at ht <;> cases ht
    · exact .inr (.inl rfl)
    · exact .inr (.inr ⟨_, rfl⟩)
  · cases ht
    exact .inl rfl

/-- The end of a control frame writes, beside the phase: a Pong nothing, a Ping its record and `cr_pend`, a Close also
`close_rx`, `cs` and the reassembly registers (R160, R162, R164). -/
theorem controlFrameEnd_next {op : Opcode} {atEnd : FrameEnd} (h : (op, atEnd) ∈ controlFrameEnds) {p : Phase}
    {u t : State} (ht : atEnd p u = .next t) :
    ∃ ph ctrl cr crx cs ra,
      t = { u with ph := ph, ctrl := ctrl, crPend := cr, closeRx := crx, cs := cs, ra := ra } ∧
      (op = 0x8 ∨ (ra = u.ra ∧ cs = u.cs ∧ crx = u.closeRx)) ∧ (op = 0xA → ctrl = u.ctrl ∧ cr = u.crPend) := by
  simp only [controlFrameEnds, List.mem_cons, Prod.mk.injEq, List.not_mem_nil, or_false] at h
  rcases h with ⟨rfl, rfl⟩ | ⟨rfl, rfl⟩ | ⟨rfl, rfl⟩
  · simp only [frameEndClose] at ht
    split at ht <;> cases ht <;> exact ⟨_, _, _, _, _, _, rfl, .inl rfl, nofun⟩
  · simp only [frameEndPing] at ht
    split at ht <;> cases ht <;> exact ⟨_, _, _, _, _, _, rfl, .inr ⟨rfl, rfl, rfl⟩, nofun⟩
  · cases ht
    exact ⟨_, _, _, _, _, _, rfl, .inr ⟨rfl, rfl, rfl⟩, fun _ => ⟨rfl, rfl⟩⟩

/-- No control opcode's payload goes to the message buffer, and a Pong's goes nowhere (R28). -/
theorem dest_of_controlFrameEnds {op : Opcode} {atEnd : FrameEnd} (h : (op, atEnd) ∈ controlFrameEnds) :
    dest op ≠ .msg ∧ (dest op = .ctrl → op ≠ 0xA) := by
  simp only [controlFrameEnds, List.mem_cons, Prod.mk.injEq, List.not_mem_nil, or_false] at h
  rcases h with ⟨rfl, -⟩ | ⟨rfl, -⟩ | ⟨rfl, -⟩ <;> decide

section FrameOfAByte
variable {fin : Bool} {rsv : BitVec 3} {mask : Bool} {len7 : BitVec 7} {i : Instr} {s t : State}

/-- What an RX byte of a data frame does: the parser's registers, the reassembly registers and one byte of `msgbuf` are
written; a message may then be delivered, or a fault raised. -/
theorem exec_data_next (hi : i ∈ [Instr.cont fin rsv mask len7, .text fin rsv mask len7, .binary fin rsv mask len7])
    (h : exec i s = .next t) :
    ∃ n f cnt ph mb ra,
      (∀ a, ¬ (s.ph = .pay ∧ a = s.ra.len.toNat + s.f.idx.toNat) → mb.read a = s.msgbuf.read a) ∧
      ∃ w : State, w = { s with rxCount := n, f := f, cnt := cnt, ph := ph, msgbuf := mb, ra := ra } ∧
        (t = w ∨ t = deliver w ∨ ∃ e, t = raise e s.ph true w) := by
  obtain ⟨op, check0, atEnd, hexec, hd, hmem⟩ := exec_data hi
  rw [hexec] at h
  obtain ⟨u, hu, hcases⟩ := rxFrameByte_parserWrote h
  obtain ⟨n, f, cnt, ph, mb, rfl, hread⟩ := hu.data hd
  rcases hcases with rfl | ⟨e, rfl⟩ | hend
  · exact ⟨n, f, cnt, ph, mb, s.ra, hread, _, rfl, .inl rfl⟩
  · exact ⟨n, f, cnt, ph, mb, s.ra, hread, _, rfl, .inr (.inr ⟨e, rfl⟩)⟩
  · obtain ⟨ra, hend⟩ := dataFrameEnd_next hmem hend
    exact ⟨n, f, cnt, ph, mb, ra, hread, _, rfl, hend⟩

/-- What an RX byte of a control frame does: the parser's registers and one byte of `ctrlbuf` are written; a fault may then
be raised, or the frame end with its own writes. -/
theorem exec_control_next
    (hi : i ∈ [Instr.close fin rsv mask len7, .ping fin rsv mask len7, .pong fin rsv mask len7])
    (h : exec i s = .next t) :
    ∃ n f cnt ph cb,
      (∀ a, ¬ (s.ph = .pay ∧ a = s.f.idx.toNat ∧ i ≠ .pong fin rsv mask len7) → cb.read a = s.ctrlbuf.read a) ∧
      ∃ w : State, w = { s with rxCount := n, f := f, cnt := cnt, ph := ph, ctrlbuf := cb } ∧
        ((∃ e, t = raise e s.ph true w) ∨
          ∃ ctrl cr crx cs ra,
            t = { w with ctrl := ctrl, crPend := cr, closeRx := crx, cs := cs, ra := ra } ∧
            (i = .close fin rsv mask len7 ∨ (ra = s.ra ∧ cs = s.cs ∧ crx = s.closeRx)) ∧
            (i = .pong fin rsv mask len7 → ctrl = s.ctrl ∧ cr = s.crPend)) := by
  obtain ⟨op, atEnd, hexec, hmem, hclose, hpong⟩ := exec_control hi
  obtain ⟨hmsg, hctrl⟩ := dest_of_controlFrameEnds hmem
  rw [hexec] at h
  obtain ⟨u, hu, hcases⟩ := rxFrameByte_parserWrote h
  obtain ⟨n, f, cnt, ph, cb, rfl, hread⟩ := hu.control hmsg
  have hread' : ∀ a, ¬ (s.ph = .pay ∧ a = s.f.idx.toNat ∧ i ≠ .pong fin rsv mask len7) →
      cb.read a = s.ctrlbuf.read a :=
    fun a ha => hread a fun ⟨hp, hidx, hd⟩ => ha ⟨hp, hidx, fun hi => hctrl hd (hpong.2 hi)⟩
  rcases hcases with rfl | ⟨e, rfl⟩ | hend
  · exact ⟨n, f, cnt, ph, cb, hread', _, rfl,
      .inr ⟨s.ctrl, s.crPend, s.closeRx, s.cs, s.ra, rfl, .inr ⟨rfl, rfl, rfl⟩, fun _ => ⟨rfl, rfl⟩⟩⟩
  · exact ⟨n, f, cnt, ph, cb, hread', _, rfl, .inl ⟨e, rfl⟩⟩
  · obtain ⟨ph', ctrl, cr, crx, cs, ra, rfl, hc, hp⟩ := controlFrameEnd_next hmem hend
    exact ⟨n, f, cnt, ph', cb, hread', _, rfl,
      .inr ⟨ctrl, cr, crx, cs, ra, rfl, hc.imp_left hclose.1, fun hi => hp (hpong.2 hi)⟩⟩

end FrameOfAByte

/-- Settles O27: the three outcomes of `exec_data_next`. -/
theorem dataFrameByteFrame : Obligations.DataFrameByteFrame := by
  intro s t fin rsv mask len7 i hi h
  obtain ⟨n, f, cnt, ph, mb, ra, hread, w, rfl, rfl | rfl | ⟨e, rfl⟩⟩ := exec_data_next hi h
  · exact ⟨⟨rfl, rfl, rfl, rfl, rfl, rfl, rfl, rfl, rfl, rfl, rfl, rfl, rfl, rfl⟩, hread,
      .inr ⟨rfl, rfl, rfl, rfl, rfl, rfl, rfl, rfl, .inl ⟨rfl, rfl⟩⟩⟩
  · exact ⟨⟨rfl, rfl, rfl, rfl, rfl, rfl, rfl, rfl, rfl, rfl, rfl, rfl, rfl, rfl⟩, hread,
      .inr ⟨rfl, rfl, rfl, rfl, rfl, rfl, rfl, rfl, .inr ⟨rfl, rfl, rfl⟩⟩⟩
  · exact ⟨⟨rfl, rfl, rfl, rfl, rfl, rfl, rfl, rfl, rfl, rfl, rfl, rfl, rfl, rfl⟩, hread,
      .inl ⟨rfl, rfl, rfl, rfl, rfl⟩⟩

/-- Settles O28: the two outcomes of `exec_control_next`. -/
theorem controlFrameByteFrame : Obligations.ControlFrameByteFrame := by
  intro s t fin rsv mask len7 i hi h
  obtain ⟨n, f, cnt, ph, cb, hread, w, rfl, ⟨e, rfl⟩ | ⟨ctrl, cr, crx, cs, ra, rfl, hclose, hpong⟩⟩ :=
    exec_control_next hi h
  · exact ⟨⟨rfl, rfl, rfl, rfl, rfl, rfl, rfl, rfl, rfl, rfl, rfl, rfl, rfl⟩, hread,
      .inl ⟨rfl, rfl, rfl, rfl, rfl, rfl⟩⟩
  · exact ⟨⟨rfl, rfl, rfl, rfl, rfl, rfl, rfl, rfl, rfl, rfl, rfl, rfl, rfl⟩, hread,
      .inr ⟨rfl, rfl, rfl, rfl, rfl, rfl, rfl, hclose, hpong⟩⟩

/-! ## `ctrlbuf` while a control response is pending (R184) -/

/-- While a control response is pending or being emitted the parser is between frames or stopped, and takes no byte
(R112). -/
theorem rxEnabled_of_crBusy {s : State} (h : ParserOk s) (hb : crBusy s = true) : rxEnabled s = false := by
  have hmid : midFrame s = false := by
    by_contra hm
    obtain ⟨-, hidle⟩ := h.alone (by simpa using hm)
    simp [hidle] at hb
  cases hp : s.ph <;> simp [midFrame, rxEnabled, hp, hb] at hmid ⊢

/-- No command touches the control payload. -/
theorem exec_command_ctrl {i : Instr} {s t : State} (hi : frameOpcode i = none) (h : exec i s = .next t) :
    t.ctrlbuf = s.ctrlbuf ∧ t.ctrl = s.ctrl := by
  cases i <;> simp only [frameOpcode, reduceCtorEq] at hi
  case nop | clrRej | cmdRsvd8F => cases h; exact ⟨rfl, rfl⟩
  case hsDone => simp only [exec, execHsDone] at h; split at h <;> cases h <;> exact ⟨rfl, rfl⟩
  case hsFail => simp only [exec, execHsFail] at h; split at h <;> cases h <;> exact ⟨rfl, rfl⟩
  case msgAck => simp only [exec, execMsgAck] at h; split at h <;> cases h <;> exact ⟨rfl, rfl⟩
  case txData => simp only [exec, execTxData] at h; split at h <;> cases h <;> exact ⟨rfl, rfl⟩
  case txClose => simp only [exec, execTxClose] at h; split at h <;> cases h <;> exact ⟨rfl, rfl⟩
  case abort => simp only [exec, execAbort] at h; split at h <;> cases h <;> exact ⟨rfl, rfl⟩

/-- With the parser held, every operation but a reset leaves the control payload alone (R184). -/
theorem eventOut_ctrl {e : Event} {s u : State} (hrx : rxEnabled s = false) (ht : eventTaken e s = true)
    (hreset : e ≠ .reset) (h : eventOut e s = .next u) : u.ctrlbuf = s.ctrlbuf ∧ u.ctrl = s.ctrl := by
  cases e with
  | rxByte b => exact absurd (hrx.symm.trans ht) Bool.false_ne_true
  | rxEnd => exact absurd (hrx.symm.trans ht) Bool.false_ne_true
  | txStart key =>
    cases h
    rcases txStart_cases key s with ⟨masked, k, h⟩ | h <;> rw [h] <;> exact ⟨rfl, rfl⟩
  | txByte =>
    obtain ⟨out, n, rfl⟩ := txByte_next h
    exact ⟨rfl, rfl⟩
  | txError =>
    cases h
    exact ⟨rfl, rfl⟩
  | host a =>
    rcases hostAccess_next h with ⟨w, -, hcmd⟩ | ⟨cfg, rej, irq, tc, tl, tb, r, n, -, rfl⟩
    · exact exec_command_ctrl (decodeCommand_opcode w) hcmd
    · exact ⟨rfl, rfl⟩
  | reset => exact absurd rfl hreset

/-- The end of a closing handshake leaves the control payload alone (R232). -/
theorem settle_ctrl (s : State) : (settle s).ctrlbuf = s.ctrlbuf ∧ (settle s).ctrl = s.ctrl := by
  rcases settle_cases s with h | h <;> rw [h] <;> exact ⟨rfl, rfl⟩

/-- Settles O59: a control response in the way stops the parser, and nothing else but a reset writes the payload. -/
theorem ctrlbufIsStableWhileAResponseIsPending : Obligations.CtrlbufIsStableWhileAResponseIsPending := by
  intro s t hinv hbusy hreset h
  rcases step_next h with ⟨e, rest, u, htakes, hout, rfl⟩ | rfl
  · have hrx : rxEnabled s = false := rxEnabled_of_crBusy hinv.pre.parser hbusy
    obtain ⟨hbuf, hctrl⟩ := settle_ctrl u
    obtain ⟨hbuf', hctrl'⟩ := eventOut_ctrl (s := withEvents rest s) hrx
      ((eventTaken_withEvents e rest s).trans (takes_guard htakes)) (fun he => hreset rest (he ▸ htakes)) hout
    exact ⟨hbuf.trans hbuf', hctrl.trans hctrl'⟩
  · exact ⟨rfl, rfl⟩

end Sys2Proof.Machine
end

section
/-! PROOFS. The data-frame family: well-formed UTF-8 (R146), and the end of a finished data frame, with the message delivered
or the UTF-8 fault raised (R142 to R147). -/
namespace Sys2Proof.Machine

/-! ## Well-formed UTF-8 (R146) -/

/-- A sequence of the table: it fits one of the rows. -/
def FitsTable (q : List Byte) : Prop := ∃ row ∈ utf8Rows, fitsRow row q = true

/-- A concatenation of sequences of the table. -/
def TableConcat (l : List Byte) : Prop := ∃ qs : List (List Byte), (∀ q ∈ qs, FitsTable q) ∧ l = qs.flatten

theorem tableConcat_nil : TableConcat [] := ⟨[], by simp, rfl⟩

/-- A sequence of the table may be put before a concatenation. -/
theorem TableConcat.append {q l : List Byte} (hl : TableConcat l) (hq : FitsTable q) : TableConcat (q ++ l) := by
  obtain ⟨qs, hqs, rfl⟩ := hl
  exact ⟨q :: qs, List.forall_mem_cons.2 ⟨hq, hqs⟩, rfl⟩

/-- `utf8One` is row 1 of the table. -/
theorem fitsTable_one {a : Byte} : FitsTable [a] ↔ utf8One a = true := by
  simp [FitsTable, utf8Rows, fitsRow, utf8One, inRange]

/-- `utf8Two` is row 2. -/
theorem fitsTable_two {a b : Byte} : FitsTable [a, b] ↔ utf8Two a b = true := by
  simp [FitsTable, utf8Rows, fitsRow, utf8Two, inRange]

/-- `utf8Three` is rows 3 to 6. -/
theorem fitsTable_three {a b c : Byte} : FitsTable [a, b, c] ↔ utf8Three a b c = true := by
  simp [FitsTable, utf8Rows, fitsRow, utf8Three, inRange, and_assoc, or_assoc]

/-- `utf8Four` is rows 7 to 9. -/
theorem fitsTable_four {a b c d : Byte} : FitsTable [a, b, c, d] ↔ utf8Four a b c d = true := by
  simp [FitsTable, utf8Rows, fitsRow, utf8Four, inRange, and_assoc, or_assoc]

/-- A sequence of the table is one of one to four bytes that the test of its length accepts. -/
theorem fitsTable_cases {q : List Byte} (h : FitsTable q) :
    (∃ a, q = [a] ∧ utf8One a = true) ∨ (∃ a b, q = [a, b] ∧ utf8Two a b = true) ∨
      (∃ a b c, q = [a, b, c] ∧ utf8Three a b c = true) ∨ ∃ a b c d, q = [a, b, c, d] ∧ utf8Four a b c d = true := by
  match q with
  | [] => simp [FitsTable, utf8Rows, fitsRow] at h
  | [a] => exact .inl ⟨a, rfl, fitsTable_one.1 h⟩
  | [a, b] => exact .inr (.inl ⟨a, b, rfl, fitsTable_two.1 h⟩)
  | [a, b, c] => exact .inr (.inr (.inl ⟨a, b, c, rfl, fitsTable_three.1 h⟩))
  | [a, b, c, d] => exact .inr (.inr (.inr ⟨a, b, c, d, rfl, fitsTable_four.1 h⟩))
  | _ :: _ :: _ :: _ :: _ :: _ => simp [FitsTable, utf8Rows, fitsRow] at h

/-! The first byte tells the rows of different lengths apart. -/

theorem utf8One_first {a : Byte} (h : utf8One a = true) : a.toNat ≤ 0x7F := by
  simpa [utf8One, inRange] using h

theorem utf8Two_first {a b : Byte} (h : utf8Two a b = true) : 0xC2 ≤ a.toNat ∧ a.toNat ≤ 0xDF := by
  simp only [utf8Two, inRange, Bool.and_eq_true, decide_eq_true_eq] at h
  exact h.1

theorem utf8Three_first {a b c : Byte} (h : utf8Three a b c = true) : 0xE0 ≤ a.toNat ∧ a.toNat ≤ 0xEF := by
  simp only [utf8Three, inRange, Bool.and_eq_true, Bool.or_eq_true, decide_eq_true_eq] at h
  omega

theorem utf8Four_first {a b c d : Byte} (h : utf8Four a b c d = true) : 0xF0 ≤ a.toNat := by
  simp only [utf8Four, inRange, Bool.and_eq_true, Bool.or_eq_true, decide_eq_true_eq] at h
  omega

theorem utf8One_eq_false {a : Byte} (h : 0x80 ≤ a.toNat) : utf8One a = false := by
  by_contra hone
  have := utf8One_first (by simpa using hone)
  omega

theorem utf8Two_eq_false {a : Byte} (h : 0xE0 ≤ a.toNat) (b : Byte) : utf8Two a b = false := by
  by_contra htwo
  have := utf8Two_first (by simpa using htwo)
  omega

theorem utf8Three_eq_false {a : Byte} (h : 0xF0 ≤ a.toNat) (b c : Byte) : utf8Three a b c = false := by
  by_contra hthree
  have := utf8Three_first (by simpa using hthree)
  omega

/-- `utf8_valid` cuts a sequence of the table off the left: the tests of the shorter rows fail on its first byte. -/
theorem utf8Valid_append {q : List Byte} (hq : FitsTable q) (l : List Byte) : utf8Valid (q ++ l) = utf8Valid l := by
  rcases fitsTable_cases hq with ⟨a, rfl, hone⟩ | ⟨a, b, rfl, htwo⟩ | ⟨a, b, c, rfl, hthree⟩ | ⟨a, b, c, d, rfl, hfour⟩
  · rw [utf8Valid.eq_def]
    simp [hone]
  · have hfirst := utf8Two_first htwo
    have hone : utf8One a = false := utf8One_eq_false (by omega)
    rw [utf8Valid.eq_def]
    simp [hone, htwo]
  · have hfirst := utf8Three_first hthree
    have hone : utf8One a = false := utf8One_eq_false (by omega)
    have htwo : utf8Two a b = false := utf8Two_eq_false (by omega) b
    rw [utf8Valid.eq_def]
    simp [hone, htwo, hthree]
  · have hfirst := utf8Four_first hfour
    have hone : utf8One a = false := utf8One_eq_false (by omega)
    have htwo : utf8Two a b = false := utf8Two_eq_false (by omega) b
    have hthree : utf8Three a b c = false := utf8Three_eq_false hfirst b c
    rw [utf8Valid.eq_def]
    simp [hone, htwo, hthree, hfour]

/-- What `utf8_valid` accepts it has cut into sequences of the table. -/
theorem tableConcat_of_utf8Valid (l : List Byte) (h : utf8Valid l = true) : TableConcat l := by
  fun_induction utf8Valid l with
  | case1 => exact tableConcat_nil
  | case2 a l hone ih => exact (ih h).append (fitsTable_one.2 hone)
  | case3 => cases h
  | case4 a _ b l htwo ih => exact (ih h).append (fitsTable_two.2 htwo)
  | case5 => cases h
  | case6 a _ b _ c l hthree ih => exact (ih h).append (fitsTable_three.2 hthree)
  | case7 => cases h
  | case8 a _ b _ c _ d l ih =>
    obtain ⟨hfour, hl⟩ := Bool.and_eq_true_iff.1 h
    exact (ih hl).append (fitsTable_four.2 hfour)

/-- Every concatenation of sequences of the table is accepted. -/
theorem utf8Valid_flatten {qs : List (List Byte)} (h : ∀ q ∈ qs, FitsTable q) : utf8Valid qs.flatten = true := by
  induction qs with
  | nil => rfl
  | cons q qs ih =>
    obtain ⟨hq, hqs⟩ := List.forall_mem_cons.1 h
    rw [List.flatten_cons, utf8Valid_append hq, ih hqs]

/-- Settles O6: by the recursion of `utf8Valid` one way, by induction on the sequences the other. -/
theorem utf8ValidIsConcatenationOfRows : Obligations.Utf8ValidIsConcatenationOfRows := by
  refine fun l => ⟨tableConcat_of_utf8Valid l, ?_⟩
  rintro ⟨qs, hqs, rfl⟩
  exact utf8Valid_flatten hqs

/-! ## The end of a finished data frame (R142 to R147) -/

section Completed
variable {s : State} {bs : List Byte} (p : Phase) (hop : s.ra.op = 0x1)
  (hb : s.msgbuf.bytes 0 s.ra.len.toNat = some bs)
include hop hb

/-- A completed `TEXT` message that is valid UTF-8 is delivered (R145, R147). -/
theorem messageComplete_validText (hv : utf8Valid bs = true) : messageComplete p s = .next (deliver s) := by
  rw [messageComplete_text hop hb, if_pos hv]

/-- One that is not is a connection fault (R145 (e)). -/
theorem messageComplete_badText (hv : utf8Valid bs = false) :
    messageComplete p s = .next (raise .pvBadUtf8 p true s) := by
  rw [messageComplete_text hop hb, hv]
  rfl

end Completed

section LastByte
variable {fin : Bool} {rsv : BitVec 3} {mask : Bool} {len7 : BitVec 7} {s t : State} (hfin : s.f.fin = true)
include hfin

/-- The byte that ends a `CONT` frame with FIN = 1 adds its length and completes the message in progress (R142). -/
theorem exec_cont_completes {op : Opcode} (hop : t.ra.op = op) (h : frameEndState 0x0 mask len7 s = some t) :
    exec (.cont fin rsv mask len7) s =
      messageComplete s.ph { t with ra := { t.ra with op := op, len := t.ra.len + t.f.len } } := by
  subst hop
  exact (rxFrameByte_of_frameEndState h).trans (if_pos ((frameEndState_fin h).trans hfin))

/-- The byte that ends a `TEXT` frame with FIN = 1 completes a message of its own (R143). -/
theorem exec_text_completes (h : frameEndState 0x1 mask len7 s = some t) :
    exec (.text fin rsv mask len7) s =
      messageComplete s.ph { t with ra := { active := true, op := 0x1, len := t.f.len } } :=
  (rxFrameByte_of_frameEndState h).trans (if_pos ((frameEndState_fin h).trans hfin))

/-- So does the byte that ends a `BINARY` frame with FIN = 1 (R144). -/
theorem exec_binary_completes (h : frameEndState 0x2 mask len7 s = some t) :
    exec (.binary fin rsv mask len7) s =
      messageComplete s.ph { t with ra := { active := true, op := 0x2, len := t.f.len } } :=
  (rxFrameByte_of_frameEndState h).trans (if_pos ((frameEndState_fin h).trans hfin))

end LastByte

/-- Settles O22: the last byte completes the message, and a `BINARY` or valid `TEXT` one is delivered. -/
theorem finishedMessageIsDelivered : Obligations.FinishedMessageIsDelivered := by
  have hbinary : (0x2 : Opcode) ≠ 0x1 := by decide
  refine fun s t fin rsv mask len7 hfin => ⟨fun h => ?_, fun h hop => ?_, fun bs h hb hv => ?_,
    fun bs h hop hb hv => ?_⟩
  · exact (exec_binary_completes hfin h).trans (messageComplete_binary hbinary)
  · exact (exec_cont_completes hfin hop h).trans (messageComplete_binary hbinary)
  · exact (exec_text_completes hfin h).trans (messageComplete_validText _ rfl hb hv)
  · exact (exec_cont_completes hfin hop h).trans (messageComplete_validText _ rfl hb hv)

/-- A frame's end leaves the message last delivered as it was. -/
theorem frameEndState_message {op : Opcode} {mask : Bool} {len7 : BitVec 7} {s t : State}
    (h : frameEndState op mask len7 s = some t) : t.msg = s.msg := by
  obtain ⟨heq, -⟩ := frameEndState_keeps h
  rw [heq]

/-- Settles O23: the last byte completes the message, and `TEXT` that is not UTF-8 raises the fault. -/
theorem badUtf8IsNotDelivered : Obligations.BadUtf8IsNotDelivered := by
  refine fun s t bs fin rsv mask len7 hfin hv => ⟨fun h hb => ?_, fun h hop hb => ?_⟩
  · have hmsg := frameEndState_message h
    exact ⟨_, (exec_text_completes hfin h).trans (messageComplete_badText _ rfl hb hv), rfl, rfl, rfl, hmsg,
      rfl, rfl⟩
  · have hmsg := frameEndState_message h
    exact ⟨_, (exec_cont_completes hfin hop h).trans (messageComplete_badText _ rfl hb hv), rfl, rfl, rfl, hmsg,
      rfl, rfl⟩

end Sys2Proof.Machine
end

section
/-! PROOFS. The control-frame family: the fault of a reserved opcode at byte 0 (R166), and the end of a Close, a Ping and a
Pong (R160, R162, R164). -/
namespace Sys2Proof.Machine

/-! ## The reserved opcodes (R166) -/

/-- The frames with a reserved opcode, each with its opcode (R18). -/
def reservedFrames (fin : Bool) (rsv : BitVec 3) (mask : Bool) (len7 : BitVec 7) : List (Instr × Opcode) :=
  [(.rsvd3 fin rsv mask len7, 0x3), (.rsvd4 fin rsv mask len7, 0x4), (.rsvd5 fin rsv mask len7, 0x5),
    (.rsvd6 fin rsv mask len7, 0x6), (.rsvd7 fin rsv mask len7, 0x7), (.rsvdB fin rsv mask len7, 0xB),
    (.rsvdC fin rsv mask len7, 0xC), (.rsvdD fin rsv mask len7, 0xD), (.rsvdE fin rsv mask len7, 0xE),
    (.rsvdF fin rsv mask len7, 0xF)]

/-- A reserved frame runs the RX byte step with the check that always fails. -/
theorem exec_reserved {fin : Bool} {rsv : BitVec 3} {mask : Bool} {len7 : BitVec 7} {p : Instr × Opcode}
    (h : p ∈ reservedFrames fin rsv mask len7) :
    exec p.1 = rxFrameByte p.2 fin rsv mask len7 reservedCheck frameEndReserved := by
  simp only [reservedFrames, List.mem_cons, List.not_mem_nil, or_false] at h
  rcases h with rfl | rfl | rfl | rfl | rfl | rfl | rfl | rfl | rfl | rfl <;> rfl

/-- The capture of a step that takes byte 0: byte 0 valid, byte 1 not, phase `HDR0` (R246). -/
theorem toNat_capture_byte0 (f : FrameHdr) :
    (capture .hdr0 true f).toNat = 2 ^ 19 + f.fin.toNat * 128 + f.rsv.toNat * 16 + f.op.toNat := by
  have hcap : capture .hdr0 true f = 0b01000#5 ++ 0#8 ++ byte0Of f.fin f.rsv f.op := rfl
  have hvalid : (0b01000#5 ++ 0#8).toNat = 2 ^ 11 := rfl
  rw [hcap, toNat_append_eq_add, toNat_byte0Of, hvalid]
  omega

/-- Settles O13: check (a) fails in every state, and the capture shows byte 0 alone. -/
theorem reservedOpcodeFaultsAtByte0 : Obligations.ReservedOpcodeFaultsAtByte0 := by
  intro s fin rsv mask len7 he hph p hp
  have hexec := congrFun (exec_reserved hp) s
  have hfault := hexec.trans ((rxFrameByte_hdr0 he hph).trans (byte0Step_fails rfl))
  exact ⟨_, hfault, rfl, rfl, rfl, rfl, rfl, rfl, rfl, rfl, rfl, rfl, toNat_capture_byte0 _⟩

/-! ## The end of a Close (R160) -/

/-- A frame's end leaves the connection state as it was. -/
theorem frameEndState_cs {op : Opcode} {mask : Bool} {len7 : BitVec 7} {s t : State}
    (h : frameEndState op mask len7 s = some t) : t.cs = s.cs := by
  obtain ⟨heq, -⟩ := frameEndState_keeps h
  rw [heq]

/-- What a Close that ends writes in every connection state: its record, `close_rx`, a stopped parser and an idle
reassembler (R160). -/
def closeRecorded (s : State) : State :=
  { s with
    ctrl := { op := 0x8, len := s.f.len.setWidth 32 }, closeRx := true, ph := .stop
    ra := { active := false, op := 0, len := 0 } }

/-- A Close that ends in `OPEN` also has its echo queued (R160). -/
theorem frameEndClose_opened {s : State} (h : s.cs = .opened) (p : Phase) :
    frameEndClose p s = .next { closeRecorded s with cs := .closingReceived, crPend := .closeEcho } := if_pos h

/-- In any other state it has none. -/
theorem frameEndClose_not_opened {s : State} (h : s.cs ≠ .opened) (p : Phase) :
    frameEndClose p s = .next (closeRecorded s) := if_neg h

/-- Settles O24: the last byte runs Close's frame-end action, and `cs` tells its two cases apart. -/
theorem closeReceivedQueuesItsEcho : Obligations.CloseReceivedQueuesItsEcho := by
  intro s t fin rsv mask len7 h u
  have hcs := frameEndState_cs h
  refine ⟨fun hs => ?_, fun hs => ?_⟩
  · exact (rxFrameByte_of_frameEndState h).trans (frameEndClose_opened (hcs.trans hs) _)
  · exact (rxFrameByte_of_frameEndState h).trans (frameEndClose_not_opened (hcs.trans_ne hs) _)

/-! ## The end of a Ping (R162) -/

/-- What a Ping that ends writes in every connection state: its record (R162). -/
def pingRecorded (s : State) : State := { s with ctrl := { op := 0x9, len := s.f.len.setWidth 32 } }

/-- A Ping that ends in `OPEN` also has its Pong queued (R162). -/
theorem frameEndPing_opened {s : State} (h : s.cs = .opened) (p : Phase) :
    frameEndPing p s = .next { pingRecorded s with crPend := .pong } := if_pos h

/-- In any other state it has none. -/
theorem frameEndPing_not_opened {s : State} (h : s.cs ≠ .opened) (p : Phase) :
    frameEndPing p s = .next (pingRecorded s) := if_neg h

/-- Settles O25: the last byte runs Ping's frame-end action, and `cs` tells its two cases apart. -/
theorem pingReceivedQueuesAPong : Obligations.PingReceivedQueuesAPong := by
  intro s t fin rsv mask len7 h _ u
  have hcs := frameEndState_cs h
  refine ⟨fun hs => ?_, fun hs => ?_⟩
  · exact (rxFrameByte_of_frameEndState h).trans (frameEndPing_opened (hcs.trans hs) _)
  · exact (rxFrameByte_of_frameEndState h).trans (frameEndPing_not_opened (hcs.trans_ne hs) _)

/-! ## The end of a Pong (R164) -/

/-- Settles O26: a Pong's frame-end action does nothing, and its payload goes to neither buffer. -/
theorem pongReceivedIsDiscarded : Obligations.PongReceivedIsDiscarded := by
  intro s t fin rsv mask len7 h
  obtain ⟨hkeeps, -, -, -, hmsg, hctrl⟩ := frameEndState_keeps h
  have hmsgbuf : t.msgbuf = s.msgbuf := hmsg (by decide)
  have hctrlbuf : t.ctrlbuf = s.ctrlbuf := hctrl (by decide)
  rw [hmsgbuf, hctrlbuf] at hkeeps
  exact ⟨rxFrameByte_of_frameEndState h, hkeeps⟩

end Sys2Proof.Machine
end

section
/-! PROOFS. The TX framer's byte: a header byte (R185), or a payload byte read now and masked (R186). -/
namespace Sys2Proof.Machine

/-! ## Reading a buffer (R59, R185) -/

/-- A byte some step wrote is read as it is, and nothing is drawn. -/
theorem readOrDraw_written {b : Buf} {i : Nat} {s : State} {d : Byte} (h : (bufOf s b).read i = some d) :
    readOrDraw b i s = (d, s) := by
  simp only [readOrDraw, h]

/-- A byte no step wrote is a free value. -/
theorem readOrDraw_unwritten {b : Buf} {i : Nat} {s : State} (h : (bufOf s b).read i = none) :
    readOrDraw b i s = drawByte s := by
  simp only [readOrDraw, h]

/-- A host frame's payload comes from `txbuf` (R184). -/
theorem encBuf_host {s : State} (h : s.enc.src = .host) : encBuf s = .txbuf := by
  simp only [encBuf, h]

/-- A control response's payload comes from `ctrlbuf` (R184). -/
theorem encBuf_ctrl {s : State} (h : s.enc.src = .ctrl) : encBuf s = .ctrlbuf := by
  simp only [encBuf, h]

/-! ## The byte at the position (R185, R186) -/

/-- Within the header, its byte goes out as it is (R185). -/
theorem txByte_header {s : State} {out : Byte} (h : s.enc.hdr[s.enc.pos.toNat]? = some out) :
    txByte s = .next (txEmit out s) := by
  simp only [txByte, txOut, h]

section Payload
variable {s : State} {b : Buf} (hbuf : encBuf s = b) (hpos : s.enc.hdr.length ≤ s.enc.pos.toNat)
  (hidx : bufIndexOk s.params b (s.enc.pos.toNat - s.enc.hdr.length) = true)
include hbuf hpos hidx

/-- Behind the header, the byte that goes out is the one read from the frame's buffer, masked (R185, R186). -/
theorem txByte_payload {d : Byte} {t : State}
    (hread : readOrDraw b (s.enc.pos.toNat - s.enc.hdr.length) s = (d, t)) :
    txByte s =
      .next (txEmit (maskByte s.enc.masked s.enc.key (s.enc.pos.toNat - s.enc.hdr.length) d) t) := by
  subst hbuf
  have hbehind : s.enc.hdr[s.enc.pos.toNat]? = none := List.getElem?_eq_none hpos
  simp only [txByte, txOut, hbehind, hidx, if_true, hread]

/-- A written payload byte changes nothing by being read (R185, R186). -/
theorem txByte_written {d : Byte} (hread : (bufOf s b).read (s.enc.pos.toNat - s.enc.hdr.length) = some d) :
    txByte s =
      .next (txEmit (maskByte s.enc.masked s.enc.key (s.enc.pos.toNat - s.enc.hdr.length) d) s) :=
  txByte_payload hbuf hpos hidx (readOrDraw_written hread)

/-- An unwritten one is drawn (R59, R185). -/
theorem txByte_unwritten (hread : (bufOf s b).read (s.enc.pos.toNat - s.enc.hdr.length) = none) :
    txByte s =
      .next (txEmit (maskByte s.enc.masked s.enc.key (s.enc.pos.toNat - s.enc.hdr.length) (drawByte s).1)
        (drawByte s).2) :=
  txByte_payload hbuf hpos hidx (readOrDraw_unwritten hread)

end Payload

/-! ## What `TxEmit` writes (R185) -/

/-- The framer stays busy exactly until the last byte is out, and the last byte of a host frame alone sets `TXDONE`. -/
theorem txEmit_of_busy {s : State} (hb : s.enc.busy = true) (out : Byte) :
    let last := decide (s.enc.pos.toNat + 1 = s.enc.hdr.length + s.enc.plen.toNat)
    txEmit out s = { s with
      env := { s.env with txStream := s.env.txStream ++ [out] }
      txCount := s.txCount + 1
      enc := { s.enc with pos := s.enc.pos + 1, busy := !last }
      irq := { s.irq with
        pend := if last ∧ s.enc.src = .host then s.irq.pend ||| irqTxDone else s.irq.pend } } := by
  intro last
  by_cases hdone : s.enc.pos.toNat + 1 = s.enc.hdr.length + s.enc.plen.toNat ∧ s.enc.src = .host
  · simp [txEmit, last, hb, hdone, setPend]
  · simp [txEmit, last, hb, hdone]

/-- A draw before `TxEmit` shows in the draws alone. -/
theorem txEmit_drawByte (out : Byte) (s : State) :
    txEmit out (drawByte s).2 =
      { txEmit out s with env := { (txEmit out s).env with draws := s.env.draws + 1 } } := rfl

/-! ## The step -/

/-- A step on `TxByte` while a frame is in emission settles what the byte leaves (R185, R231). -/
theorem step_txByte {s u : State} {rest : List Event} (hev : s.env.events = .txByte :: rest)
    (hb : s.enc.busy = true) (hbyte : txByte (withEvents rest s) = .next u) : step s = .next (settle u) := by
  have htakes : Takes s .txByte rest := takes_of_events hev hb
  exact (step_eventOut htakes).trans (congrArg settleOut hbyte)

/-- Settles O42: the byte is a header byte, a written payload byte of either buffer, or an unwritten one of `txbuf`. -/
theorem txByteEmitsTheNextByte : Obligations.TxByteEmitsTheNextByte := by
  intro s rest hev hb n j last sent
  have hsent (out : Byte) : txEmit out (withEvents rest s) = sent out :=
    txEmit_of_busy (s := withEvents rest s) hb out
  refine ⟨fun out hout => ?_, fun d hpos hsrc hcap hread => ?_, fun d hpos hsrc hcap hread => ?_,
    fun hpos hsrc hcap hread => ?_⟩
  · rw [← hsent]
    exact step_txByte hev hb (txByte_header hout)
  · have hidx := bufIndexOk_iff.2 (.inr (.inr ⟨rfl, hcap⟩))
    rw [← hsent]
    exact step_txByte hev hb (txByte_written (s := withEvents rest s) (encBuf_host hsrc) hpos hidx hread)
  · have hidx := bufIndexOk_iff.2 (.inr (.inl ⟨rfl, hcap⟩))
    rw [← hsent]
    exact step_txByte hev hb (txByte_written (s := withEvents rest s) (encBuf_ctrl hsrc) hpos hidx hread)
  · have hidx := bufIndexOk_iff.2 (.inr (.inr ⟨rfl, hcap⟩))
    have hstep := step_txByte hev hb (txByte_unwritten (s := withEvents rest s) (encBuf_host hsrc) hpos hidx hread)
    rw [txEmit_drawByte, hsent] at hstep
    exact ⟨_, _, hstep⟩

end Sys2Proof.Machine
end

section
/-! PROOFS. The host-interface family: the commands (R210 to R220), the completion of the closing handshake (R231, R232),
and the ends of a connection that the transport brings about (R225, R226). -/
namespace Sys2Proof.Machine

/-! ## The completion of the closing handshake (R231, R232) -/

/-- The closing handshake is complete (R231): the echo of the other side's Close is out, or this side's Close is out and the
other side's has come. -/
theorem closeComplete_iff {s : State} :
    (echoDone s || bothClosesDone s) = true ↔
      (s.cs = .closingReceived ∧ s.crPend = .none ∧ s.enc.busy = false) ∨
        (s.cs = .closingSent ∧ s.closeRx = true ∧ s.ht.pend = false ∧ s.crPend = .none ∧ s.enc.busy = false) := by
  simp only [echoDone, bothClosesDone, Bool.or_eq_true, Bool.and_eq_true, decide_eq_true_eq, Bool.not_eq_true',
    and_assoc]

/-- Settles O31: the two checks of `settle` are the written-out conditions. -/
theorem settleClosesACompleteHandshake : Obligations.SettleClosesACompleteHandshake := by
  intro s done
  refine ⟨fun hdone => settle_done (closeComplete_iff.2 hdone), fun hopen => settle_not_done ?_⟩
  rw [← Bool.not_eq_true, closeComplete_iff]
  exact hopen

/-! ## When a host frame is accepted (R36, R216, R217) -/

theorem txHostBusy_iff {s : State} :
    txHostBusy s = true ↔ s.ht.pend = true ∨ (s.enc.busy = true ∧ s.enc.src = .host) := by
  simp only [txHostBusy, Bool.or_eq_true, Bool.and_eq_true, decide_eq_true_eq]

theorem isDataOp_iff {op : Opcode} : isDataOp op = true ↔ op = 0x0 ∨ op = 0x1 ∨ op = 0x2 := by
  simp [isDataOp, or_assoc]

/-- `TX_CLOSE` is legal in `OPEN`, with no host frame under way and a payload that fits `txbuf` (R217). -/
theorem txCloseLegal_iff {s : State} :
    txCloseLegal s = true ↔ s.cs = .opened ∧ ¬ (s.ht.pend = true ∨ (s.enc.busy = true ∧ s.enc.src = .host)) ∧
      s.txLen.toNat ≤ s.params.txCap := by
  rw [← txHostBusy_iff]
  simp only [txCloseLegal, Bool.and_eq_true, decide_eq_true_eq, Bool.not_eq_true', Bool.not_eq_true, and_assoc]

/-- `TX_DATA` is legal where `TX_CLOSE` is and the opcode is a data opcode (R216). -/
theorem txDataLegal_iff {s : State} :
    txDataLegal s = true ↔ s.cs = .opened ∧ ¬ (s.ht.pend = true ∨ (s.enc.busy = true ∧ s.enc.src = .host)) ∧
      (s.txCtrl.op = 0x0 ∨ s.txCtrl.op = 0x1 ∨ s.txCtrl.op = 0x2) ∧ s.txLen.toNat ≤ s.params.txCap := by
  rw [← txHostBusy_iff, ← isDataOp_iff]
  simp only [txDataLegal, Bool.and_eq_true, decide_eq_true_eq, Bool.not_eq_true', Bool.not_eq_true, and_assoc]

/-- Settles O36: the legality check of `TX_DATA` is R216's list. -/
theorem txDataLatchesTheFrame : Obligations.TxDataLatchesTheFrame := fun _ _ =>
  ⟨fun hlegal => if_pos (txDataLegal_iff.2 hlegal), fun hnot => if_neg (mt txDataLegal_iff.1 hnot)⟩

/-- Settles O37: the legality check of `TX_CLOSE` is R217's list. -/
theorem txCloseStartsTheClosingHandshake : Obligations.TxCloseStartsTheClosingHandshake := fun _ _ =>
  ⟨fun hlegal => if_pos (txCloseLegal_iff.2 hlegal), fun hnot => if_neg (mt txCloseLegal_iff.1 hnot)⟩

/-! ## The ends the transport brings about (R225, R226) -/

/-- When no event is taken, nothing happens (R14). -/
theorem step_of_takes_none {s : State} (h : ∀ e rest, ¬ Takes s e rest) : step s = .next s := by
  rcases step_cases s with ⟨e, rest, htakes, -⟩ | ⟨-, hstep⟩
  · exact absurd htakes (h e rest)
  · exact hstep

/-- An event whose guard is false is not taken (R14, R266). -/
theorem not_takes_of_guard_false {s : State} {e : Event} (h : eventTaken e s = false) (rest : List Event) :
    ¬ Takes s e rest :=
  fun htakes => Bool.false_ne_true (h.symm.trans (takes_guard htakes))

/-- Between frames the end of the RX stream is a clean end (R225). -/
theorem rxEnd_between {s : State} (h : s.ph = .hdr0) : rxEnd s = closeDone .eof s := if_pos h

/-- Inside a frame it truncates the frame (R225). -/
theorem rxEnd_inside {s : State} (h : s.ph ≠ .hdr0) : rxEnd s = raise .truncated s.ph false s := if_neg h

theorem settle_rxEnd (s : State) : settle (rxEnd s) = rxEnd s := by
  rcases rxEnd_cases s with h | h <;> rw [h]
  · exact settle_closeDone _ _
  · exact settle_raise _ _ _ _

/-- A step on `RxEnd` under its guard ends the connection (R112, R225). -/
theorem step_rxEnd {s : State} {rest : List Event} (hev : s.env.events = .rxEnd :: rest) (he : rxEnabled s = true) :
    step s = .next (rxEnd (withEvents rest s)) := by
  have htakes : Takes s .rxEnd rest := takes_of_events hev he
  exact (step_eventOut htakes).trans (congrArg Host.Outcome.next (settle_rxEnd _))

/-- Settles O39: where the guard holds, `ph` tells the two ends apart. -/
theorem rxEndBetweenAndInsideFrames : Obligations.RxEndBetweenAndInsideFrames := by
  intro s rest hev u
  refine ⟨fun _ => step_of_takes_none, fun he => not_takes_of_guard_false (e := .rxEnd) he rest,
    fun he hph => ?_, fun he hph => ?_⟩
  · exact (step_rxEnd hev he).trans (congrArg Host.Outcome.next (rxEnd_between hph))
  · exact (step_rxEnd hev he).trans (congrArg Host.Outcome.next (rxEnd_inside hph))

/-- A step on `TxError` while a frame is in emission raises `IO_ERROR` (R226). -/
theorem step_txError {s : State} {rest : List Event} (hev : s.env.events = .txError :: rest)
    (hb : s.enc.busy = true) : step s = .next (raise .ioError s.ph false (withEvents rest s)) := by
  have htakes : Takes s .txError rest := takes_of_events hev hb
  exact (step_eventOut htakes).trans (congrArg Host.Outcome.next (settle_raise _ _ _ _))

/-- Settles O40: the fault action stops the framer and leaves the TX stream as it is. -/
theorem txErrorIsAFault : Obligations.TxErrorIsAFault := by
  intro s rest hev u
  exact ⟨fun _ => step_of_takes_none, fun hb => not_takes_of_guard_false (e := .txError) hb rest,
    fun hb => ⟨_, step_txError hev hb, rfl, rfl, rfl, rfl⟩⟩

/-! ## The other commands (R211 to R215, R218 to R220) -/

/-- Settles O32: none of the three has a case to tell apart. -/
theorem nopClrRejAndReservedCodes : Obligations.NopClrRejAndReservedCodes := fun _ _ _ => ⟨rfl, rfl, rfl⟩

/-- Settles O33: `cs` decides between the opening and the reject action. -/
theorem hsDoneOpensTheConnection : Obligations.HsDoneOpensTheConnection := fun _ _ =>
  ⟨fun hcs => if_pos hcs, fun hcs => if_neg hcs⟩

/-- Settles O34: `cs` decides between the fault action and the reject action. -/
theorem hsFailRaisesTheHandshakeFault : Obligations.HsFailRaisesTheHandshakeFault := fun _ _ =>
  ⟨fun hcs => ⟨_, if_pos hcs, rfl, rfl, rfl, rfl, rfl⟩, fun hcs => if_neg hcs⟩

/-- Settles O35: `msg_valid` decides between the release and the reject action. -/
theorem msgAckReleasesTheMessage : Obligations.MsgAckReleasesTheMessage := fun _ _ =>
  ⟨fun hvalid => if_pos hvalid, fun hvalid => if_neg (Bool.eq_false_iff.1 hvalid)⟩

/-- Settles O38: `cs` decides between `close_done(ABORT)` and the reject action. -/
theorem abortEndsALiveConnection : Obligations.AbortEndsALiveConnection := fun _ _ =>
  ⟨fun hcs => if_pos hcs, fun hcs => if_neg (not_not.2 hcs)⟩

end Sys2Proof.Machine
end

section
/-! PROOFS. The exceptions family: `CLOSED`, which a reset alone leaves (R248 to R250), the `ERR_INFO` capture as a
number (R246), and what the fault action writes and keeps (R245). -/
namespace Sys2Proof.Machine

/-! ## `CLOSED` (R248 to R250) -/

/-- In `CLOSED` the parser is stopped and the framer is idle (R112, R188). -/
theorem ConnOk.closed_stopped {s : State} (h : ConnOk s) (hc : s.cs = .closed) :
    s.ph = .stop ∧ s.enc.busy = false := by
  obtain ⟨-, -, hbusy, -⟩ := h.quiet (.inr hc)
  refine ⟨by_contra fun hph => ?_, hbusy⟩
  obtain ⟨hrun, -⟩ := h.running hph
  simp [hc] at hrun

/-- So the block takes nothing there but a host access or a reset (R249). -/
theorem eventTaken_closed {e : Event} {s : State} (h : ConnOk s) (hc : s.cs = .closed) (ht : eventTaken e s = true) :
    e = .reset ∨ ∃ a, e = .host a := by
  obtain ⟨hph, hbusy⟩ := h.closed_stopped hc
  have held : eventTaken e s ≠ false := by simp [ht]
  cases e with
  | rxByte b => exact absurd (rxEnabled_stop hph) held
  | rxEnd => exact absurd (rxEnabled_stop hph) held
  | txStart key => exact absurd (txStartTaken_eq_false_iff.2 (.inr (.inr (.inl hc)))) held
  | txByte => exact absurd hbusy held
  | txError => exact absurd hbusy held
  | host a => exact .inr ⟨a, rfl⟩
  | reset => exact .inl rfl

/-- In `CLOSED` a command writes `cmd_rej`, or the delivered message's registers if it is `MSG_ACK`, and nothing else
(R211 to R220, R250). -/
theorem exec_command_closed {i : Instr} {s u : State} (hi : frameOpcode i = none) (hc : s.cs = .closed)
    (h : exec i s = .next u) : ∃ msg rej, u = { s with msg := msg, cmdRej := rej } := by
  have hrejected : exec i s = .next (reject s) → ∃ msg rej, u = { s with msg := msg, cmdRej := rej } := by
    intro hrej
    cases h.symm.trans hrej
    exact ⟨_, _, rfl⟩
  cases i <;> simp only [frameOpcode, reduceCtorEq] at hi
  case nop => cases h; exact ⟨_, _, rfl⟩
  case clrRej => cases h; exact ⟨_, _, rfl⟩
  case msgAck => simp only [exec, execMsgAck] at h; split at h <;> cases h <;> exact ⟨_, _, rfl⟩
  case cmdRsvd8F => exact hrejected rfl
  case hsDone => exact hrejected (if_neg (by simp [hc]))
  case hsFail => exact hrejected (if_neg (by simp [hc]))
  case txData => exact hrejected (if_neg (by simp [txDataLegal, hc]))
  case txClose => exact hrejected (if_neg (by simp [txCloseLegal, hc]))
  case abort => exact hrejected (if_neg (by simp [hc]))

/-- In `CLOSED` a host access writes the delivered message's registers, the registers of the host port, `txbuf`, the
reply and the draws at most (R62 to R65, R250). -/
theorem hostAccess_closed {a : HostAccess} {s u : State} (hc : s.cs = .closed) (h : hostAccess a s = .next u) :
    ∃ cfg msg rej irq tc tl tb r n,
      u = { s with cfg := cfg, msg := msg, cmdRej := rej, irq := irq, txCtrl := tc, txLen := tl, txbuf := tb,
                   env := { s.env with reply := r, draws := n } } := by
  rcases hostAccess_next h with ⟨w, -, hcmd⟩ | ⟨cfg, rej, irq, tc, tl, tb, r, n, -, rfl⟩
  · obtain ⟨msg, rej, rfl⟩ := exec_command_closed (decodeCommand_opcode w) hc hcmd
    exact ⟨_, _, _, _, _, _, _, _, _, rfl⟩
  · exact ⟨_, _, _, _, _, _, _, _, _, rfl⟩

/-- In `CLOSED` there is no closing handshake left for `settle` to complete (R231). -/
theorem settle_closed {s : State} (hc : s.cs = .closed) : settle s = s :=
  settle_outside (by simp [hc]) (by simp [hc])

/-- Settles O55: only a host access is taken, it writes none of these fields, and `settle` does nothing in `CLOSED`. -/
theorem closedIsLeftOnlyByReset : Obligations.ClosedIsLeftOnlyByReset := by
  intro s t hinv hc hreset h
  have hconn := hinv.pre.conn
  obtain ⟨hph, -⟩ := hconn.closed_stopped hc
  rcases step_next h with ⟨e, rest, u, htakes, hout, rfl⟩ | rfl
  · rcases eventTaken_closed hconn hc (takes_guard htakes) with rfl | ⟨a, rfl⟩
    · exact absurd htakes (hreset rest)
    · obtain ⟨cfg, msg, rej, irq, tc, tl, tb, r, n, hu⟩ := hostAccess_closed (s := withEvents rest s) hc hout
      have hcu : u.cs = .closed := hu ▸ hc
      rw [settle_closed hcu, hu]
      exact ⟨hc, hph, rfl, rfl, rfl, rfl, rfl, rfl, rfl, rfl, rfl, rfl, rfl, rfl, rfl, rfl⟩
  · exact ⟨hc, hph, rfl, rfl, rfl, rfl, rfl, rfl, rfl, rfl, rfl, rfl, rfl, rfl, rfl, rfl⟩

/-! ## The capture (R246) -/

/-- Byte 0 is valid from the step that consumes it to the end of the frame (R246). -/
theorem b0Valid_eq_decide (p : Phase) (consumed : Bool) :
    b0Valid p consumed =
      decide ((consumed = true ∧ p = .hdr0) ∨ p = .hdr1 ∨ p = .ext ∨ p = .key ∨ p = .pay) := by
  cases p <;> simp [b0Valid]

/-- So is byte 1 (R246). -/
theorem b1Valid_eq_decide (p : Phase) (consumed : Bool) :
    b1Valid p consumed = decide ((consumed = true ∧ p = .hdr1) ∨ p = .ext ∨ p = .key ∨ p = .pay) := by
  cases p <;> simp [b1Valid]

/-- The capture is its five fields side by side, whichever header bytes are valid (R246). -/
theorem toNat_capture (p : Phase) (consumed : Bool) (f : FrameHdr) :
    (capture p consumed f).toNat =
      (b1Valid p consumed).toNat * 2 ^ 20 + (b0Valid p consumed).toNat * 2 ^ 19 + p.code.toNat * 2 ^ 16 +
        (if b1Valid p consumed then f.mask.toNat * 128 + f.len7.toNat else 0) * 256 +
        (if b0Valid p consumed then f.fin.toNat * 128 + f.rsv.toNat * 16 + f.op.toNat else 0) := by
  have hzero : (0 : Byte).toNat = 0 := rfl
  rw [capture, toNat_append_eq_add, toNat_append_eq_add, toNat_append_eq_add, toNat_append_eq_add,
    BitVec.toNat_ofBool, BitVec.toNat_ofBool, apply_ite BitVec.toNat, apply_ite BitVec.toNat, toNat_byte0Of,
    toNat_byte1Of, hzero]
  omega

/-- Settles O30: the validity bits of the capture are the written-out conditions on the phase. -/
theorem captureShowsTheHeaderSeenSoFar : Obligations.CaptureShowsTheHeaderSeenSoFar := by
  intro p consumed f b0 b1
  rw [toNat_capture, b0Valid_eq_decide, b1Valid_eq_decide]

/-! ## The fault action (R245) -/

/-- Settles O29: the fault action's own writes, after which the connection is closed and `settle` has nothing to do. -/
theorem faultActionWritesAndKeeps : Obligations.FaultActionWritesAndKeeps := by
  intro code p consumed s t
  refine ⟨⟨rfl, rfl, rfl, rfl, rfl, rfl, rfl, rfl, rfl, rfl, rfl, settle_raise code p consumed s, rfl⟩, ?_⟩
  exact ⟨rfl, rfl, rfl, rfl, rfl, rfl, rfl, rfl, rfl, rfl, rfl, rfl, rfl, rfl, rfl, rfl⟩

end Sys2Proof.Machine
end
